-- ==== Sys2Proof/Word.lean ====
section
/-! DEFINITION. The word and byte types of HUFFCORE (spec/00_scope.md R18, R19: every register is 32 bits wide, all values
are unsigned, bit 0 is the least significant bit). -/

namespace Sys2Proof

/-- A 32-bit register, bus word or payload word (spec/00_scope.md R14, spec/10_state.md section 2). -/
abbrev Word := BitVec 32

/-- Eight bits: a code length, a trailingZeroBits value, an opcode, a byte of a container. -/
abbrev Byte := BitVec 8

/-- A 64-bit node weight (spec/00_scope.md R16). -/
abbrev Weight := BitVec 64

end Sys2Proof
end

