-- ==== Sys2Proof/Config.lean ====
section
/-! DEFINITION. What is fixed for one HUFFCORE block (spec/00_scope.md section 4), the open parameters of the platform and of
the host (spec/92_eei_decisions.md, Open parameters), and the free values (spec/93_implementation_defined.md section 1). -/

namespace Sys2Proof

/-- The parameter of one block (spec/00_scope.md R11): it is readable in PARAM and no step changes it. State carries one, so
that a statement about every state is a statement about every NSYM_MAX (log entry 1). -/
structure Config where
  /-- NSYM_MAX, the largest number of leaves of one tree; default 256, legal 2..4096. -/
  nsymMax : Nat
  deriving DecidableEq, Repr

namespace Config

/-- The default of spec/00_scope.md R11. -/
def standard : Config := { nsymMax := 256 }

/-- The legal range of NSYM_MAX (spec/00_scope.md R11). -/
abbrev Legal (c : Config) : Prop := 2 ≤ c.nsymMax ∧ c.nsymMax ≤ 4096

/-- ARENA_SIZE = 2 * NSYM_MAX - 1 (spec/00_scope.md R12). -/
abbrev arenaSize (c : Config) : Nat := 2 * c.nsymMax - 1

/-- L_MAX, the largest token width in bytes (spec/00_scope.md R10). -/
abbrev lMax : Nat := 4

/-- MAX_CODE_LEN, the largest codeword length (spec/00_scope.md R13). -/
abbrev maxCodeLen : Nat := 31

/-- WORD_BITS, the width of a payload word and of the packer's accumulator (spec/00_scope.md R14). -/
abbrev wordBits : Nat := 32

/-- TBUF_DEPTH, the number of the unpacker's output slots (spec/00_scope.md R15). -/
abbrev tbufDepth : Nat := 32

/-- The constant of ID (spec/10_state.md R31). -/
abbrev idValue : Word := 0x48554631#32

/-- FREE VALUES: what the spec calls ANY (spec/93_implementation_defined.md I1 to I5). `free w d k` is the w-bit value of slot
k in the d-th draw of a run; it has no body, so nothing is known of it (log entry 2). -/
opaque free (w : Nat) (draw : Nat) (slot : Nat) : BitVec w

/-- FREE VALUE: what an engine would find at an index outside its memory, which no rule describes. No reachable state reads
one (log entry 8). -/
opaque absent (w : Nat) (slot : Nat) : BitVec w

/-- OPEN parameter HUFF_BASE: where the platform puts the block's 1 MiB window (spec/20_memory.md R82; log entry 13). -/
opaque huffBase : Nat

/-- OPEN parameter HUFF_IRQ: the interrupt number the platform gives the irq line (spec/60_exceptions.md R280; log entry 13). -/
opaque huffIrq : Nat

/-- OPEN parameter MAGIC_TAG: the four bytes that open a container, as one big-endian word (spec/00_scope.md R17; log entry
13). The block never sees it. -/
opaque magicTag : Word

end Config

end Sys2Proof
end

