-- ==== Sys2Proof/Syntax.lean ====
section
/-! DEFINITION. The commands of HUFFCORE: one constructor per row of spec/opcode_table.json (spec/30_encoding.md R111). No
command carries an operand but UNPACK_WORD's LAST bit (R110, R114). -/

namespace Sys2Proof

/-- A legal command. An illegal command word is no command: Decode answers why (spec/30_encoding.md R112). -/
inductive Instr where
  /-- NOP, opcode 0x00 (spec/40_commands_common.md R143). -/
  | nop
  /-- BUILD, opcode 0x01 (spec/41_tree_builder.md R161). -/
  | build
  /-- DERIVE, opcode 0x02 (spec/42_code_deriver.md R180). -/
  | derive
  /-- PACK_BEGIN, opcode 0x03 (spec/43_bit_packer.md R195). -/
  | packBegin
  /-- PACK_TOKEN, opcode 0x04 (spec/43_bit_packer.md R196). -/
  | packToken
  /-- PACK_END, opcode 0x05 (spec/43_bit_packer.md R197). -/
  | packEnd
  /-- REBUILD, opcode 0x06 (spec/44_decode_tree.md R215). -/
  | rebuild
  /-- UNPACK_BEGIN, opcode 0x07 (spec/45_bit_unpacker.md R232). -/
  | unpackBegin
  /-- UNPACK_WORD, opcode 0x08; `last` is the LAST bit: the word in WORD is the final payload word (R233). -/
  | unpackWord (last : Bool)
  /-- UNPACK_END, opcode 0x09 (spec/45_bit_unpacker.md R234). -/
  | unpackEnd
  deriving DecidableEq, Repr

end Sys2Proof
end

