-- ==== Sys2Proof/WellFormed.lean ====
section
/-! DEFINITION. What is well formed: a command, a command word (spec/30_encoding.md R110, R112), a host access
(spec/20_memory.md R86) and a configuration (spec/00_scope.md R11). -/

namespace Sys2Proof

/-- A command has no operand that could be out of range (spec/30_encoding.md R114): every term of Instr is well formed. What
can be ill formed is a command WORD, below. -/
def Instr.wellFormed : Instr → Bool
  | .nop | .build | .derive | .packBegin | .packToken | .packEnd | .rebuild | .unpackBegin => true
  | .unpackWord _ | .unpackEnd => true

/-- Why a command word is illegal (spec/30_encoding.md R112), in the order of `illegal(w)` of spec/40_commands_common.md
R142. -/
inductive IllegalWord where
  /-- OPCODE is 0x0A to 0xFF. -/
  | unknownOpcode
  /-- Bits [31:9] are not all 0. -/
  | reservedBits
  /-- LAST = 1 and OPCODE is not 0x08. -/
  | lastNotAllowed
  deriving DecidableEq, Repr

/-- OPCODE, bits [7:0] of a command word (spec/30_encoding.md R110). -/
abbrev opcodeOf (w : Word) : Byte := w.setWidth 8

/-- LAST, bit 8 of a command word (spec/30_encoding.md R110). -/
abbrev lastOf (w : Word) : Bool := w.getLsbD 8

/-- The reserved bits [31:9] of a command word (spec/30_encoding.md R110). -/
abbrev reservedOf (w : Word) : BitVec 23 := w.extractLsb' 9 23

/-- The check of a command word: none for a legal word, else the first reason it is illegal. -/
def illegalReason (w : Word) : Option IllegalWord :=
  if 0x09#8 < opcodeOf w then some .unknownOpcode
  else if reservedOf w ≠ 0#23 then some .reservedBits
  else if lastOf w = true ∧ opcodeOf w ≠ 0x08#8 then some .lastNotAllowed
  else none

/-- What a host access must be (spec/20_memory.md R86): 32 bits wide (`size` is in bytes), at a multiple of 4, below
0x100000. -/
abbrev AccessOk (size addr : Nat) : Prop := size = 4 ∧ addr % 4 = 0 ∧ addr < 0x100000

end Sys2Proof
end

