-- ==== Sys2Proof/Decode.lean ====
section
/-! DEFINITION. The decoder of command words, total and rejecting by name, and the encoder (spec/30_encoding.md R110 to R112,
spec/40_commands_common.md R142). A command is always exactly one 32-bit word (R119), and the bus moves whole words, so that
a command word has no byte order (spec/20_memory.md R85 (a); log entry 14). -/

namespace Sys2Proof

/-- The opcode map of spec/30_encoding.md R111, for the low byte and the LAST bit of a word with no other bit set. -/
def decodeOpcode (op : Byte) (last : Bool) : Except IllegalWord Instr :=
  if op = 0x00#8 then .ok .nop
  else if op = 0x01#8 then .ok .build
  else if op = 0x02#8 then .ok .derive
  else if op = 0x03#8 then .ok .packBegin
  else if op = 0x04#8 then .ok .packToken
  else if op = 0x05#8 then .ok .packEnd
  else if op = 0x06#8 then .ok .rebuild
  else if op = 0x07#8 then .ok .unpackBegin
  else if op = 0x08#8 then .ok (.unpackWord last)
  else if op = 0x09#8 then .ok .unpackEnd
  else .error .unknownOpcode

/-- Decode one command word: the command, or by name why the word is illegal (spec/30_encoding.md R112). -/
def decode (w : Word) : Except IllegalWord Instr :=
  match illegalReason w with
  | some r => .error r
  | none => decodeOpcode (opcodeOf w) (lastOf w)

/-- `illegal(w)` of spec/40_commands_common.md R142. -/
def illegal (w : Word) : Bool := (illegalReason w).isSome

/-- OPCODE of a command (spec/30_encoding.md R111). -/
def Instr.opcode : Instr → Byte
  | .nop => 0x00#8
  | .build => 0x01#8
  | .derive => 0x02#8
  | .packBegin => 0x03#8
  | .packToken => 0x04#8
  | .packEnd => 0x05#8
  | .rebuild => 0x06#8
  | .unpackBegin => 0x07#8
  | .unpackWord _ => 0x08#8
  | .unpackEnd => 0x09#8

/-- LAST of a command: 0 for every command but UNPACK_WORD (spec/30_encoding.md R110). -/
def Instr.lastBit : Instr → Bool
  | .unpackWord last => last
  | .nop | .build | .derive | .packBegin | .packToken | .packEnd | .rebuild | .unpackBegin | .unpackEnd => false

/-- The command word of a command: 23 zero bits, LAST, OPCODE (spec/30_encoding.md R110). -/
def encode (i : Instr) : Word := 0#23 ++ BitVec.ofBool i.lastBit ++ i.opcode

/-- The command the decoder reads from a word numbered as spec/opcode_table.json numbers its bits; bits at or above `nbits`
are 0. -/
def decodeTableWord (nbits w : Nat) : Option Instr :=
  match decode (BitVec.ofNat 32 (w % 2 ^ nbits)) with
  | .ok i => some i
  | .error _ => none

end Sys2Proof
end

