-- ==== Sys2Proof/Machine/State.lean ====
section
/-! DEFINITION. The state of HUFFCORE as plain data (spec/10_state.md), the state after power-on reset (R55,
spec/70_reset_and_hazards.md R300), and the reasons a step can stop. The fields are grouped as the spec groups them; a STATUS
or CTRL word is computed from its fields (Machine/Flags.lean), so that no bit is stored twice. -/

namespace Sys2Proof.Machine

/-- PK_STATE (spec/10_state.md R50). -/
inductive PkState where
  | idle
  | active
  deriving DecidableEq, Repr

/-- UP_STATE (spec/10_state.md R34, R50); the value 3 never occurs. -/
inductive UpState where
  | idle
  | run
  | done
  deriving DecidableEq, Repr

/-- The error codes of spec/60_exceptions.md R270; no other code is ever written. -/
inductive ErrCode where
  /-- 0x00 E_OK -/
  | ok
  /-- 0x01 E_NOLEAVES -/
  | noLeaves
  /-- 0x02 E_RANGE -/
  | range
  /-- 0x03 E_DUPTOKEN -/
  | dupToken
  /-- 0x04 E_CODELEN -/
  | codeLen
  /-- 0x05 E_NOTREADY -/
  | notReady
  /-- 0x06 E_UNKNOWN_TOKEN -/
  | unknownToken
  /-- 0x07 E_FMT_TABLE -/
  | fmtTable
  /-- 0x08 E_DEGENERATE -/
  | degenerate
  /-- 0x09 E_FMT_TZB -/
  | fmtTzb
  /-- 0x0A E_FMT_TRUNC -/
  | fmtTrunc
  /-- 0x0B E_FMT_EXTRA -/
  | fmtExtra
  /-- 0x0C E_SEQ -/
  | seq
  /-- 0x0D E_ILLEGAL -/
  | illegal
  deriving DecidableEq, Repr

/-- One entry of SYM (spec/10_state.md R45). -/
structure SymEntry where
  token : Word
  count : Word
  deriving DecidableEq, Repr

/-- One entry of CODE (spec/10_state.md R46). -/
structure CodeEntry where
  token : Word
  cw    : Word
  len   : Byte
  deriving DecidableEq, Repr

/-- One record of NODE (spec/10_state.md R47). -/
structure NodeRec where
  leaf   : Bool
  hasPar : Bool
  bit    : Bool
  parent : Word
  c1     : Word
  c0     : Word
  weight : Weight
  token  : Word
  deriving DecidableEq, Repr

/-- CTRL (spec/10_state.md R33); its other bits hold no state. -/
structure Ctrl where
  ie   : Bool
  tokw : BitVec 3
  deriving DecidableEq, Repr

/-- The sequencer: the pending command and the completion fields of STATUS (spec/10_state.md R34, R50). -/
structure Sequencer where
  busy    : Bool
  pending : Word
  done    : Bool
  err     : Bool
  haz     : Bool
  errcode : ErrCode
  lastop  : Byte
  deriving DecidableEq, Repr

/-- The operand registers the host writes (spec/10_state.md R36 to R39). -/
structure OperandRegs where
  nsym  : Word
  token : Word
  word  : Word
  upTzb : Byte
  deriving DecidableEq, Repr

/-- The registers and flags about the tree and the table (spec/10_state.md R34, R40 to R42). -/
structure TreeRegs where
  valid  : Bool
  degen  : Bool
  root   : Word
  nnodes : Word
  maxlen : Word
  deriving DecidableEq, Repr

/-- The packer (spec/10_state.md R43, R44, R50). -/
structure Packer where
  state    : PkState
  acc      : Word
  free     : Word
  out      : Word
  outValid : Bool
  tzb      : Word
  tokcnt   : Word
  wcnt     : Word
  deriving DecidableEq, Repr

/-- The unpacker (spec/10_state.md R49, R50). -/
structure Unpacker where
  state  : UpState
  node   : Word
  tcount : Word
  wcnt   : Word
  tokcnt : Word
  deriving DecidableEq, Repr

/-- The four internal memories (spec/10_state.md R45 to R48), each the list of all its entries, index 0 first (log entry 3). -/
structure Memory where
  sym  : List SymEntry
  code : List CodeEntry
  node : List NodeRec
  tbuf : List Word
  deriving DecidableEq, Repr

/-- What the outside does to the block, one action at a time: a bus read or write of `size` bytes at byte offset `addr` of the
block (spec/20_memory.md R80, R81), or the reset input (spec/70_reset_and_hazards.md R300). -/
inductive HostAct where
  | read (size addr : Nat)
  | write (size addr : Nat) (value : Word)
  | rst
  deriving DecidableEq, Repr

/-- The MODEL's own picture of the host agent, not state of the block (log entries 4 and 5). -/
structure HostAgent where
  /-- the host's coming actions, in the order it issues them -/
  script   : List HostAct
  /-- how many of them still take effect before the pending command's completion step -/
  lag      : Nat
  /-- the lag of each command still to be issued -/
  lags     : List Nat
  /-- the values the host's reads have returned, newest first -/
  readData : List Word
  deriving DecidableEq, Repr

/-- The state: the block (spec/10_state.md), its constant configuration, the host agent and the count of free draws. -/
structure State where
  config : Config
  ctrl   : Ctrl
  seq    : Sequencer
  regs   : OperandRegs
  tree   : TreeRegs
  pk     : Packer
  up     : Unpacker
  mem    : Memory
  host   : HostAgent
  draws  : Nat
  deriving DecidableEq, Repr

/-- HUFFCORE has no fault: every command completes, with E_OK or with an error code, and an error code is an ordinary
outcome (spec/00_scope.md R22, spec/93_implementation_defined.md). So there is no fault constructor, and no step answers a
fault. -/
inductive Fault where
  deriving DecidableEq, Repr

/-- Why a step has no meaning. -/
inductive Refusal where
  /-- Raised by exec's arm of a command that has no meaning yet; no arm does. Safe: nothing is proved of such a step. -/
  | notModelled (mnemonic : String)
  /-- Raised by a host access that is not 32 bits wide, not aligned, or at or above 0x100000 (spec/20_memory.md R86: "the
  model has no meaning for it and refuses it"). Safe: nothing is proved of such a step. -/
  | badAccess
  deriving DecidableEq, Repr

/-! ## Free draws of memory entries (spec/93_implementation_defined.md I1, I3 to I5; log entry 2) -/

/-- One bit of a draw. -/
def anyBit (draw slot : Nat) : Bool := (Config.free 1 draw slot).getLsbD 0

/-- An arbitrary SYM entry. -/
def anySymEntry (draw i : Nat) : SymEntry :=
  { token := Config.free 32 draw (2 * i), count := Config.free 32 draw (2 * i + 1) }

/-- An arbitrary CODE entry. -/
def anyCodeEntry (draw i : Nat) : CodeEntry :=
  { token := Config.free 32 draw (2 * i), cw := Config.free 32 draw (2 * i + 1), len := Config.free 8 draw i }

/-- An arbitrary NODE record. -/
def anyNodeRec (draw k : Nat) : NodeRec :=
  { leaf := anyBit draw (3 * k), hasPar := anyBit draw (3 * k + 1), bit := anyBit draw (3 * k + 2),
    parent := Config.free 32 draw (4 * k), c1 := Config.free 32 draw (4 * k + 1), c0 := Config.free 32 draw (4 * k + 2),
    weight := Config.free 64 draw k, token := Config.free 32 draw (4 * k + 3) }

/-- ANY contents of SYM. -/
def anySym (c : Config) (draw : Nat) : List SymEntry := (List.range c.nsymMax).map (anySymEntry draw)

/-- ANY contents of CODE. -/
def anyCode (c : Config) (draw : Nat) : List CodeEntry := (List.range c.nsymMax).map (anyCodeEntry draw)

/-- ANY contents of NODE. -/
def anyNode (c : Config) (draw : Nat) : List NodeRec := (List.range c.arenaSize).map (anyNodeRec draw)

/-- ANY contents of TBUF. -/
def anyTbuf (draw : Nat) : List Word := (List.range Config.tbufDepth).map (Config.free 32 draw)

/-- The memories after power-on, each a draw of its own (spec/70_reset_and_hazards.md R300). -/
def Memory.powerOn (c : Config) (draw : Nat) : Memory :=
  { sym := anySym c draw, code := anyCode c (draw + 1), node := anyNode c (draw + 2), tbuf := anyTbuf (draw + 3) }

/-! ## Reset values of the registers (spec/10_state.md R55) -/

def Ctrl.reset : Ctrl := { ie := false, tokw := 1#3 }

def Sequencer.reset : Sequencer :=
  { busy := false, pending := 0#32, done := false, err := false, haz := false, errcode := .ok, lastop := 0#8 }

def OperandRegs.reset : OperandRegs := { nsym := 0#32, token := 0#32, word := 0#32, upTzb := 0#8 }

def TreeRegs.reset : TreeRegs := { valid := false, degen := false, root := 0#32, nnodes := 0#32, maxlen := 0#32 }

def Packer.reset : Packer :=
  { state := .idle, acc := 0#32, free := 32#32, out := 0#32, outValid := false, tzb := 0#32, tokcnt := 0#32, wcnt := 0#32 }

def Unpacker.reset : Unpacker := { state := .idle, node := 0#32, tcount := 0#32, wcnt := 0#32, tokcnt := 0#32 }

/-- A host that has nothing to do (DESIGN CHOICE, log entries 4 and 5). -/
def HostAgent.idle : HostAgent := { script := [], lag := 0, lags := [], readData := [] }

/-- The block of configuration `c` right after power-on reset (spec/70_reset_and_hazards.md R300). -/
def State.powerOn (c : Config) : State :=
  { config := c, ctrl := .reset, seq := .reset, regs := .reset, tree := .reset, pk := .reset, up := .reset,
    mem := .powerOn c 0, host := .idle, draws := 4 }

/-- The machine right after power-on reset, with the default NSYM_MAX (spec/00_scope.md R11, spec/10_state.md R55). -/
def State.reset : State := .powerOn .standard

end Sys2Proof.Machine
end

