-- ==== Sys2Proof/Machine/Flags.lean ====
section
/-! DEFINITION. The flags: the CTRL and STATUS words as the host reads them, the write-1-to-clear of STATUS, the error codes'
values and the interrupt line (spec/10_state.md R33, R34; spec/60_exceptions.md R270, R280). -/

namespace Sys2Proof.Machine

/-- The 8-bit value of an error code (spec/60_exceptions.md R270). -/
def ErrCode.code : ErrCode → Byte
  | .ok => 0x00#8
  | .noLeaves => 0x01#8
  | .range => 0x02#8
  | .dupToken => 0x03#8
  | .codeLen => 0x04#8
  | .notReady => 0x05#8
  | .unknownToken => 0x06#8
  | .fmtTable => 0x07#8
  | .degenerate => 0x08#8
  | .fmtTzb => 0x09#8
  | .fmtTrunc => 0x0A#8
  | .fmtExtra => 0x0B#8
  | .seq => 0x0C#8
  | .illegal => 0x0D#8

/-- The value of UP_STATE in STATUS[11:10] (spec/10_state.md R34). -/
def UpState.code : UpState → BitVec 2
  | .idle => 0#2
  | .run => 1#2
  | .done => 2#2

/-- PK_ACTIVE, STATUS[8]: 1 when PK_STATE = ACTIVE (spec/10_state.md R34). -/
def Packer.active (p : Packer) : Bool := p.state == .active

/-- CTRL as the host reads it: TOKW in [10:8], IE in [0], all else zero (spec/10_state.md R33). -/
def Ctrl.toWord (c : Ctrl) : Word := 0#21 ++ c.tokw ++ 0#7 ++ BitVec.ofBool c.ie

/-- CTRL after a host write with bit 31 = 0 (spec/10_state.md R33): IE and TOKW take the written bits. -/
def Ctrl.ofWrite (v : Word) : Ctrl := { ie := v.getLsbD 0, tokw := v.extractLsb' 8 3 }

/-- STATUS as the host reads it (spec/10_state.md R34), bit 31 first. -/
def State.statusWord (s : State) : Word :=
  s.seq.lastop ++ s.seq.errcode.code ++ 0#4 ++ s.up.state.code ++ 0#1 ++ BitVec.ofBool s.pk.active ++ 0#1
    ++ BitVec.ofBool s.pk.outValid ++ BitVec.ofBool s.tree.degen ++ BitVec.ofBool s.tree.valid
    ++ BitVec.ofBool s.seq.haz ++ BitVec.ofBool s.seq.err ++ BitVec.ofBool s.seq.done ++ BitVec.ofBool s.seq.busy

/-- A host write to STATUS: a written 1 clears DONE, ERR or HAZ, a written 0 does nothing, all other bits ignore the write
(spec/10_state.md R34, spec/60_exceptions.md R276). -/
def Sequencer.clearFlags (q : Sequencer) (v : Word) : Sequencer :=
  { q with done := q.done && !v.getLsbD 1, err := q.err && !v.getLsbD 2, haz := q.haz && !v.getLsbD 3 }

/-- The interrupt output `irq = CTRL.IE AND STATUS.DONE` (spec/60_exceptions.md R280). -/
def State.irq (s : State) : Bool := s.ctrl.ie && s.seq.done

/-- The interrupt number the platform sees, while irq is asserted (spec/60_exceptions.md R280; log entry 13). -/
def State.platformIrq (s : State) : Option Nat := if s.irq then some Config.huffIrq else none

end Sys2Proof.Machine
end

