-- ==== Sys2Proof/Machine/Operands.lean ====
section
/-! DEFINITION. Where a command's operands come from (spec/30_encoding.md R113 to R116): the token width L and the count N, the
comparison of tokens, the codeword of a table entry, the bits of a payload word in stream order, and the reading of a
memory's entries. -/

namespace Sys2Proof.Machine

/-- `mask(k) = 2^k - 1`, k between 0 and 32 (spec/00_scope.md R19). -/
def mask (k : Nat) : Word := BitVec.ofNat 32 (2 ^ k - 1)

/-- L = CTRL.TOKW, the token width in bytes (spec/00_scope.md R9). -/
def State.tokenWidth (s : State) : Nat := s.ctrl.tokw.toNat

/-- The check of L (spec/10_state.md R33): legal is 1 to L_MAX. -/
abbrev WidthOk (L : Nat) : Prop := 1 ≤ L ∧ L ≤ Config.lMax

/-- N = NSYM (spec/10_state.md R36). -/
def State.count (s : State) : Nat := s.regs.nsym.toNat

/-- `zext_32(t[8L-1:0])`: a token with the bits at or above 8L cleared (spec/30_encoding.md R113). -/
def tokMask (L : Nat) (t : Word) : Word := t &&& mask (8 * L)

/-- `tok_eq(a, b)`: equal in the low 8L bits (spec/00_scope.md R21). -/
def tokEq (L : Nat) (a b : Word) : Bool := tokMask L a == tokMask L b

/-- `tok_eq` of some pair i < j of a list of tokens (spec/41_tree_builder.md R161). -/
def hasDupToken (L : Nat) : List Word → Bool
  | [] => false
  | t :: ts => ts.any (tokEq L t) || hasDupToken L ts

/-- An entry of an engine's memory. `dflt` is only reached at an index the memory does not have (log entry 8). -/
def entryAt {α : Type} (dflt : Nat → α) (m : List α) (i : Nat) : α := m.getD i (dflt i)

/-- What an index outside NODE would read as: nothing is known of it (log entry 8). -/
def absentNode (k : Nat) : NodeRec :=
  { leaf := (Config.absent 1 (3 * k)).getLsbD 0, hasPar := (Config.absent 1 (3 * k + 1)).getLsbD 0,
    bit := (Config.absent 1 (3 * k + 2)).getLsbD 0, parent := Config.absent 32 (4 * k), c1 := Config.absent 32 (4 * k + 1),
    c0 := Config.absent 32 (4 * k + 2), weight := Config.absent 64 k, token := Config.absent 32 (4 * k + 3) }

/-- What an index outside CODE would read as: nothing is known of it (log entry 8). -/
def absentCode (i : Nat) : CodeEntry :=
  { token := Config.absent 32 (2 * i), cw := Config.absent 32 (2 * i + 1), len := Config.absent 8 i }

/-- NODE[k] (spec/10_state.md R47). -/
def nodeAt (node : List NodeRec) (k : Nat) : NodeRec := entryAt absentNode node k

/-- CODE[i] (spec/10_state.md R46). -/
def codeAt (code : List CodeEntry) (i : Nat) : CodeEntry := entryAt absentCode code i

/-- LEN of a table entry, as a number (spec/30_encoding.md R115). -/
def CodeEntry.length (e : CodeEntry) : Nat := e.len.toNat

/-- The codeword of a table entry: CW[LEN-1:0], the bits at or above LEN ignored (spec/30_encoding.md R115). -/
def CodeEntry.codeword (e : CodeEntry) : Word := e.cw &&& mask e.length

/-- The lowest index of a list of entries whose token is `tok_eq` to `t` (spec/43_bit_packer.md R199). -/
def findToken (L : Nat) (t : Word) (code : List CodeEntry) : Option Nat := code.findIdx? (fun e => tokEq L e.token t)

/-- The bits a decoder reads of a payload word before the cursor reaches `stop`: cursor c = 32 down to stop + 1 reads
WORD[c - 1] (spec/45_bit_unpacker.md R230 (b)). -/
def streamBits (w : Word) (stop : Nat) : List Bool :=
  (List.range (Config.wordBits - stop)).map (fun j => w.getLsbD (Config.wordBits - 1 - j))

end Sys2Proof.Machine
end

