-- ==== Sys2Proof/Machine/Ops.lean ====
section
/-! DEFINITION. The operations the commands and the bus share: writing a memory's entries, issuing and completing a command,
completing it with an error (HUFFCORE's whole "exception": spec/60_exceptions.md R275, R276), free draws, and the two resets
(spec/70_reset_and_hazards.md R300, R301). -/

namespace Sys2Proof.Machine

/-- What a command answers. -/
abbrev Result := Host.Outcome State Fault Refusal

/-! ## Memories -/

/-- The memories have all their entries and no more (spec/10_state.md R45 to R48): the one form in which a memory of
configuration `c` is held, so that equal memories are equal data (log entry 3). -/
abbrev Memory.wf (c : Config) (m : Memory) : Prop :=
  m.sym.length = c.nsymMax ∧ m.code.length = c.nsymMax ∧ m.node.length = c.arenaSize ∧ m.tbuf.length = Config.tbufDepth

/-- Write entries 0, 1, ... of a memory; the others keep their values, and nothing is written past its end. -/
def writePrefix {α : Type} (xs : List α) (m : List α) : List α := xs.take m.length ++ m.drop xs.length

/-! ## Issue and completion (spec/40_commands_common.md R140, R141) -/

/-- Issue a command word: PENDING <- w, BUSY <- 1 (R140). Nothing else of the block changes; the model takes the command's lag
from its own schedule (log entry 4). -/
def State.issue (s : State) (w : Word) : State :=
  { s with seq := { s.seq with pending := w, busy := true },
           host := { s.host with lag := s.host.lags.headD 0, lags := s.host.lags.tail } }

/-- `finish(code)`: the completion fields of STATUS (R141). ERR is sticky: E_OK never clears it. -/
def Sequencer.complete (q : Sequencer) (code : ErrCode) : Sequencer :=
  { q with errcode := code, lastop := opcodeOf q.pending, done := true, err := q.err || code != .ok, busy := false }

/-- `finish(code)` of a state. -/
def State.complete (s : State) (code : ErrCode) : State := { s with seq := s.seq.complete code }

/-- End a command with `code`, keeping the effects in `s` (spec/00_scope.md R20). -/
def finish (code : ErrCode) (s : State) : Result := .next (s.complete code)

/-- `raise E_X` with no listed effect: `s` is the state at issue, so that every change the command made before is undone and
only the completion fields change (spec/40_commands_common.md R145). -/
def raise (code : ErrCode) (s : State) : Result := finish code s

/-! ## Free draws (log entry 2) -/

/-- NODE[0..ARENA_SIZE-1] become ANY. -/
def State.scrambleNode (s : State) : State :=
  { s with mem := { s.mem with node := anyNode s.config s.draws }, draws := s.draws + 1 }

/-- CODE[0..NSYM_MAX-1] become ANY. -/
def State.scrambleCode (s : State) : State :=
  { s with mem := { s.mem with code := anyCode s.config s.draws }, draws := s.draws + 1 }

/-- TBUF[0..31] become ANY. -/
def State.scrambleTbuf (s : State) : State :=
  { s with mem := { s.mem with tbuf := anyTbuf s.draws }, draws := s.draws + 1 }

/-- The effects of a BUILD or REBUILD error: TREE_VALID <- 0, UP_STATE <- IDLE, NODE becomes ANY; ROOT, NNODES and TREE_DEGEN
keep their values (spec/41_tree_builder.md R166, spec/44_decode_tree.md R222). -/
def State.dropTree (s : State) : State :=
  { s with tree := { s.tree with valid := false }, up := { s.up with state := .idle } }.scrambleNode

/-- The end of a BUILD or REBUILD that failed. -/
def raiseTree (code : ErrCode) (s : State) : Result := finish code s.dropTree

/-- What BUILD and REBUILD leave when they succeed: the arena, ROOT, NNODES, TREE_DEGEN, TREE_VALID <- 1, UP_STATE <- IDLE
(spec/41_tree_builder.md R161, spec/44_decode_tree.md R215). -/
def State.setTree (s : State) (node : List NodeRec) (root nnodes : Nat) (degen : Bool) : State :=
  { s with mem := { s.mem with node := node },
           tree := { s.tree with valid := true, degen := degen, root := BitVec.ofNat 32 root, nnodes := BitVec.ofNat 32 nnodes },
           up := { s.up with state := .idle } }

/-! ## Reset (spec/70_reset_and_hazards.md) -/

/-- Every register and every piece of sequencer state at the value of spec/10_state.md R55. -/
def State.resetRegisters (s : State) : State :=
  { s with ctrl := .reset, seq := .reset, regs := .reset, tree := .reset, pk := .reset, up := .reset }

/-- Abandon the pending command: the memory entries its rule may write become ANY (R301 (b)); an illegal word writes none (log
entry 16). With no command pending nothing is abandoned. -/
def State.abandon (s : State) : State :=
  if s.seq.busy then
    match decode s.seq.pending with
    | .ok .build | .ok .rebuild => s.scrambleNode
    | .ok .derive => s.scrambleCode
    | .ok (.unpackWord _) => s.scrambleTbuf
    | .ok .nop | .ok .packBegin | .ok .packToken | .ok .packEnd | .ok .unpackBegin | .ok .unpackEnd => s
    | .error _ => s
  else s

/-- Soft reset (R301). -/
def State.softReset (s : State) : State := s.abandon.resetRegisters

/-- Power-on reset by the input `rst` (R300): the registers as after reset, every memory entry a fresh draw (log entry 12). -/
def State.hardReset (s : State) : State :=
  { s.resetRegisters with mem := .powerOn s.config s.draws, draws := s.draws + 4 }

end Sys2Proof.Machine
end

