-- ==== Sys2Proof/Machine/Bus.lean ====
section
/-! DEFINITION. The host bus: the address map (spec/20_memory.md R82 to R84), reads and writes while idle and while a command is
pending (R80, R81, R86 to R89), and one action of the host agent. -/

namespace Sys2Proof.Machine

/-- The registers of the map, in the order of their offsets (spec/20_memory.md R82). -/
inductive Reg where
  | id | param | ctrl | status | cmd | nsym | token | word | upTzb | root | nnodes | maxlen
  | pkAcc | pkFree | pkOut | pkTzb | pkTokcnt | pkWcnt | upNode | upTcount | upWcnt | upTokcnt
  deriving DecidableEq, Repr

/-- The words of one SYM entry (spec/20_memory.md R83). -/
inductive SymField where
  | token | count
  deriving DecidableEq, Repr

/-- The words of one CODE entry; `pad` is the word at +12 (spec/20_memory.md R83). -/
inductive CodeField where
  | token | cw | len | pad
  deriving DecidableEq, Repr

/-- The words of one NODE record; `pad` is the word at +28 (spec/20_memory.md R83). -/
inductive NodeField where
  | flags | parent | c1 | c0 | wlo | whi | token | pad
  deriving DecidableEq, Repr

/-- What the map holds at an offset (spec/20_memory.md R82 to R84). -/
inductive Target where
  | reg (r : Reg)
  | tbuf (j : Nat)
  | sym (i : Nat) (f : SymField)
  | code (i : Nat) (f : CodeField)
  | node (k : Nat) (f : NodeField)
  /-- RAZ/WI -/
  | reserved
  deriving DecidableEq, Repr

/-- The registers by the number of their word (spec/20_memory.md R82). -/
def regMap : List Reg :=
  [.id, .param, .ctrl, .status, .cmd, .nsym, .token, .word, .upTzb, .root, .nnodes, .maxlen]
    ++ [.pkAcc, .pkFree, .pkOut, .pkTzb, .pkTokcnt, .pkWcnt, .upNode, .upTcount, .upWcnt, .upTokcnt]

def symFields : List SymField := [.token, .count]

def codeFields : List CodeField := [.token, .cw, .len, .pad]

def nodeFields : List NodeField := [.flags, .parent, .c1, .c0, .wlo, .whi, .token, .pad]

/-- The address map: what stands at an aligned offset below 0x100000 (spec/20_memory.md R82 to R84). -/
def decodeOffset (c : Config) (off : Nat) : Target :=
  if off < 0x58 then .reg (regMap.getD (off / 4) .id)
  else if off < 0x1000 then .reserved
  else if off < 0x1080 then .tbuf ((off - 0x1000) / 4)
  else if off < 0x10000 then .reserved
  else if off < 0x18000 then
    let i := (off - 0x10000) / 8
    if i < c.nsymMax then .sym i (symFields.getD (off % 8 / 4) .token) else .reserved
  else if off < 0x20000 then .reserved
  else if off < 0x30000 then
    let i := (off - 0x20000) / 16
    if i < c.nsymMax then .code i (codeFields.getD (off % 16 / 4) .pad) else .reserved
  else if off < 0x40000 then .reserved
  else if off < 0x7FFE0 then
    let k := (off - 0x40000) / 32
    if k < c.arenaSize then .node k (nodeFields.getD (off % 32 / 4) .pad) else .reserved
  else .reserved

/-- The offset of a register (spec/20_memory.md R82). -/
def Reg.offset (r : Reg) : Nat := 4 * regMap.idxOf r

/-- The offset of a mapped word (spec/20_memory.md R82, R83); a reserved word has none of its own. -/
def Target.offset : Target → Option Nat
  | .reg r => some r.offset
  | .tbuf j => some (0x1000 + 4 * j)
  | .sym i f => some (0x10000 + 8 * i + 4 * symFields.idxOf f)
  | .code i f => some (0x20000 + 16 * i + 4 * codeFields.idxOf f)
  | .node k f => some (0x40000 + 32 * k + 4 * nodeFields.idxOf f)
  | .reserved => none

/-- The platform's address of an offset, and back (spec/20_memory.md R82; log entry 13). -/
def platformAddress (off : Nat) : Nat := Config.huffBase + off

def blockOffset (addr : Nat) : Option Nat :=
  if Config.huffBase ≤ addr ∧ addr < Config.huffBase + 0x100000 then some (addr - Config.huffBase) else none

/-! ## Reads -/

/-- PARAM (spec/10_state.md R32): 0, MAX_CODE_LEN, 0, L_MAX, NSYM_MAX. -/
def paramWord (c : Config) : Word :=
  0#3 ++ BitVec.ofNat 5 Config.maxCodeLen ++ 0#4 ++ BitVec.ofNat 4 Config.lMax ++ BitVec.ofNat 16 c.nsymMax

/-- FLAGS of a node record: LEAF, HASPAR, BIT in bits 0 to 2 (spec/20_memory.md R83). -/
def NodeRec.flagsWord (r : NodeRec) : Word :=
  0#29 ++ BitVec.ofBool r.bit ++ BitVec.ofBool r.hasPar ++ BitVec.ofBool r.leaf

/-- The value of a register (spec/10_state.md section 2); CMD reads 0 (R35). -/
def State.readReg (s : State) : Reg → Word
  | .id => Config.idValue
  | .param => paramWord s.config
  | .ctrl => s.ctrl.toWord
  | .status => s.statusWord
  | .cmd => 0#32
  | .nsym => s.regs.nsym
  | .token => s.regs.token
  | .word => s.regs.word
  | .upTzb => s.regs.upTzb.setWidth 32
  | .root => s.tree.root
  | .nnodes => s.tree.nnodes
  | .maxlen => s.tree.maxlen
  | .pkAcc => s.pk.acc
  | .pkFree => s.pk.free
  | .pkOut => s.pk.out
  | .pkTzb => s.pk.tzb
  | .pkTokcnt => s.pk.tokcnt
  | .pkWcnt => s.pk.wcnt
  | .upNode => s.up.node
  | .upTcount => s.up.tcount
  | .upWcnt => s.up.wcnt
  | .upTokcnt => s.up.tokcnt

/-- A word of a SYM entry. -/
def SymEntry.readField (e : SymEntry) : SymField → Word
  | .token => e.token
  | .count => e.count

/-- A word of a CODE entry: LEN in [7:0], +12 reads zero (spec/20_memory.md R83). -/
def CodeEntry.readField (e : CodeEntry) : CodeField → Word
  | .token => e.token
  | .cw => e.cw
  | .len => e.len.setWidth 32
  | .pad => 0#32

/-- A word of a NODE record (spec/20_memory.md R83). -/
def NodeRec.readField (r : NodeRec) : NodeField → Word
  | .flags => r.flagsWord
  | .parent => r.parent
  | .c1 => r.c1
  | .c0 => r.c0
  | .wlo => r.weight.extractLsb' 0 32
  | .whi => r.weight.extractLsb' 32 32
  | .token => r.token
  | .pad => 0#32

/-- What an index outside SYM would read as (log entry 8). -/
def absentSym (i : Nat) : SymEntry :=
  { token := Config.absent 32 (2 * i), count := Config.absent 32 (2 * i + 1) }

/-- The register or memory word at a target (spec/20_memory.md R80). -/
def State.readTarget (s : State) : Target → Word
  | .reg r => s.readReg r
  | .tbuf j => entryAt (Config.absent 32) s.mem.tbuf j
  | .sym i f => (entryAt absentSym s.mem.sym i).readField f
  | .code i f => (codeAt s.mem.code i).readField f
  | .node k f => (nodeAt s.mem.node k).readField f
  | .reserved => 0#32

/-- The addresses whose reads have a law while BUSY = 1 (spec/20_memory.md R88). -/
def busyReadable : Target → Bool
  | .reg .id | .reg .param | .reg .ctrl | .reg .status | .reg .cmd => true
  | .reg _ | .tbuf _ | .sym _ _ | .code _ _ | .node _ _ | .reserved => false

/-- Hand the host a value it read. -/
def State.deliver (s : State) (v : Word) : State := { s with host := { s.host with readData := v :: s.host.readData } }

/-- The value of a read at an aligned offset: the word the map holds there, or ANY while a command is pending (R80, R88). -/
def State.readValue (s : State) (off : Nat) : Word :=
  if s.seq.busy = true ∧ busyReadable (decodeOffset s.config off) = false then Config.free 32 s.draws 0
  else s.readTarget (decodeOffset s.config off)

/-- The draws after that read: one more when the value was ANY. -/
def State.readDraws (s : State) (off : Nat) : Nat :=
  if s.seq.busy = true ∧ busyReadable (decodeOffset s.config off) = false then s.draws + 1 else s.draws

/-- A bus read at an aligned offset: no side effect on the block (R80). -/
def State.busRead (s : State) (off : Nat) : State :=
  { s.deliver (s.readValue off) with draws := s.readDraws off }

/-! ## Writes -/

/-- A write to a register while BUSY = 0 (spec/20_memory.md R81); a write to a read-only register is ignored. CTRL is
reached only with bit 31 = 0: a soft reset is told apart first. -/
def State.writeReg (s : State) (r : Reg) (v : Word) : State :=
  match r with
  | .ctrl => { s with ctrl := .ofWrite v }
  | .status => { s with seq := s.seq.clearFlags v }
  | .cmd => s.issue v
  | .nsym => { s with regs := { s.regs with nsym := v } }
  | .token => { s with regs := { s.regs with token := v } }
  | .word => { s with regs := { s.regs with word := v } }
  | .upTzb => { s with regs := { s.regs with upTzb := v.setWidth 8 } }
  | .id | .param | .root | .nnodes | .maxlen | .pkAcc | .pkFree | .pkOut | .pkTzb | .pkTokcnt | .pkWcnt => s
  | .upNode | .upTcount | .upWcnt | .upTokcnt => s

/-- A write to a word of a SYM entry. -/
def SymEntry.writeField (e : SymEntry) (f : SymField) (v : Word) : SymEntry :=
  match f with
  | .token => { e with token := v }
  | .count => { e with count := v }

/-- A write to a word of a CODE entry: LEN takes [7:0], +12 ignores the write (spec/20_memory.md R83). -/
def CodeEntry.writeField (e : CodeEntry) (f : CodeField) (v : Word) : CodeEntry :=
  match f with
  | .token => { e with token := v }
  | .cw => { e with cw := v }
  | .len => { e with len := v.setWidth 8 }
  | .pad => e

/-- A write while BUSY = 0 to a target (spec/20_memory.md R81): NODE and TBUF are read-only, reserved words ignore it. -/
def State.writeTarget (s : State) (t : Target) (v : Word) : State :=
  match t with
  | .reg r => s.writeReg r v
  | .sym i f => { s with mem := { s.mem with sym := s.mem.sym.modify i (fun e => e.writeField f v) } }
  | .code i f => { s with mem := { s.mem with code := s.mem.code.modify i (fun e => e.writeField f v) } }
  | .tbuf _ | .node _ _ | .reserved => s

/-- A write dropped because a command is pending: STATUS.HAZ <- 1 and nothing else (R89). -/
def State.dropWrite (s : State) : State := { s with seq := { s.seq with haz := true } }

/-- Whether a write is a soft reset: to CTRL with bit 31 = 1 (spec/10_state.md R33). -/
def isSoftReset (t : Target) (v : Word) : Bool := t == .reg .ctrl && v.getLsbD 31

/-- A bus write at an aligned offset (R81, R89). -/
def State.busWrite (s : State) (off : Nat) (v : Word) : State :=
  if isSoftReset (decodeOffset s.config off) v then s.softReset
  else if s.seq.busy then s.dropWrite
  else s.writeTarget (decodeOffset s.config off) v

/-! ## The host agent -/

/-- One action of the host: a transaction outside R86 is refused, whatever the block is doing. -/
def hostAct (s : State) : HostAct → Result
  | .read size addr => if AccessOk size addr then .next (s.busRead addr) else .refused .badAccess
  | .write size addr v => if AccessOk size addr then .next (s.busWrite addr v) else .refused .badAccess
  | .rst => .next s.hardReset

/-- Take the next action off the host's script; while a command is pending it is one of those that precede its completion
(log entry 4). -/
def State.takeAct (s : State) (rest : List HostAct) : State :=
  { s with host := { s.host with script := rest, lag := s.host.lag - 1 } }

/-- The agents of spec/00_scope.md R7; `rest` when neither has a step (R315). -/
inductive Turn where
  | engine
  | host (a : HostAct) (rest : List HostAct)
  | rest
  deriving DecidableEq, Repr

/-- Whose step is next (log entry 4): while BUSY = 0 the host's; while BUSY = 1 the host's as long as the command's lag
and the script last, then the engine's, so that a pending command completes after finitely many host actions
(spec/00_scope.md R8). -/
def State.turn (s : State) : Turn :=
  match s.host.script with
  | [] => if s.seq.busy then .engine else .rest
  | a :: rest => if s.seq.busy && s.host.lag == 0 then .engine else .host a rest

/-- The host agent's step: take the action, then perform it. -/
def hostStep (s : State) (a : HostAct) (rest : List HostAct) : Result := hostAct (s.takeAct rest) a

/-- The state with the command word `w` pending and the engine next to step: what the very next step runs. It stands for the
host's write of `w` to CMD (log entry 6). -/
def State.withPending (s : State) (w : Word) : State :=
  { s with seq := { s.seq with pending := w, busy := true }, host := { s.host with lag := 0 } }

/-- A command word from a word numbered as spec/opcode_table.json numbers it; bits at or above `nbits` are 0. -/
def tableWord (nbits w : Nat) : Word := BitVec.ofNat 32 (w % 2 ^ nbits)

end Sys2Proof.Machine
end

