-- ==== Sys2Proof/Machine/BitPacker.lean ====
section
/-! DEFINITION. The bit-stream packer: PACK_BEGIN, PACK_TOKEN, PACK_END (spec/43_bit_packer.md). -/

namespace Sys2Proof.Machine

/-- What PACK_BEGIN leaves in the packer, whatever stood there (R195). -/
def Packer.opened : Packer :=
  { state := .active, acc := 0#32, free := 32#32, out := 0#32, outValid := false, tzb := 0#32, tokcnt := 0#32, wcnt := 0#32 }

/-- `append(v, n)` (R198): shift the codeword in, or fill the word with its top bits, flush it, and keep the rest. -/
def Packer.append (p : Packer) (v : Word) (n : Nat) : Packer :=
  if n ≤ p.free.toNat then
    { p with outValid := false, acc := (p.acc <<< n) ||| v, free := p.free - BitVec.ofNat 32 n }
  else
    let r := p.free.toNat
    { p with out := (p.acc <<< r) ||| (v >>> (n - r)), outValid := true, wcnt := p.wcnt + 1#32,
             acc := v &&& mask (n - r), free := 32#32 - BitVec.ofNat 32 (n - r) }

/-- The packer after a successful PACK_TOKEN of an n-bit codeword v (R196). -/
def Packer.pushCode (p : Packer) (v : Word) (n : Nat) : Packer :=
  { p.append v n with tokcnt := p.tokcnt + 1#32 }

/-- The packer after a successful PACK_END (R197, R200). -/
def Packer.closed (p : Packer) : Packer :=
  if p.free = 32#32 then
    { p with outValid := false, tzb := 0#32, acc := 0#32, free := 32#32, state := .idle }
  else
    { p with out := p.acc <<< p.free.toNat, outValid := true, wcnt := p.wcnt + 1#32, tzb := p.free, acc := 0#32,
             free := 32#32, state := .idle }

/-- PACK_BEGIN (R195). -/
def execPackBegin (s : State) : Result := finish .ok { s with pk := .opened }

/-- The checks of PACK_TOKEN, in order, and the entry it finds (R196, spec/60_exceptions.md R272). -/
def packLookup (s : State) : Except ErrCode CodeEntry :=
  if s.pk.state ≠ .active then .error .seq
  else if ¬ WidthOk s.tokenWidth then .error .range
  else if s.config.nsymMax < s.count then .error .range
  else match findToken s.tokenWidth s.regs.token (s.mem.code.take s.count) with
    | none => .error .unknownToken
    | some i => if Config.maxCodeLen < (codeAt s.mem.code i).length then .error .fmtTable else .ok (codeAt s.mem.code i)

/-- PACK_TOKEN (R196). -/
def execPackToken (s : State) : Result :=
  match packLookup s with
  | .error e => raise e s
  | .ok e => finish .ok { s with pk := s.pk.pushCode e.codeword e.length }

/-- PACK_END (R197). -/
def execPackEnd (s : State) : Result :=
  if s.pk.state ≠ .active then raise .seq s
  else finish .ok { s with pk := s.pk.closed }

end Sys2Proof.Machine
end

