-- ==== Sys2Proof/Machine/BitUnpacker.lean ====
section
/-! DEFINITION. The bit-stream unpacker: UNPACK_BEGIN, UNPACK_WORD, UNPACK_END (spec/45_bit_unpacker.md). -/

namespace Sys2Proof.Machine

/-- The decode walk inside one word: the current record and the tokens emitted so far, first one first (R230, R231). -/
structure Walk where
  node   : Word
  tokens : List Word
  deriving DecidableEq, Repr

/-- `step(b)` (R231): bit 1 descends to C1, bit 0 to C0; at a leaf emit its token and return to the root. -/
def descend (node : List NodeRec) (root : Word) (w : Walk) (b : Bool) : Walk :=
  let r := nodeAt node w.node.toNat
  let n := if b then r.c1 else r.c0
  if (nodeAt node n.toNat).leaf then { node := root, tokens := w.tokens ++ [(nodeAt node n.toNat).token] }
  else { w with node := n }

/-- The walk over a list of stream bits. -/
def walk (node : List NodeRec) (root : Word) (w : Walk) (bits : List Bool) : Walk := bits.foldl (descend node root) w

/-- Where the cursor stops: UP_TZB for the final word, else 0 (R233, R235). -/
def State.stopAt (s : State) (last : Bool) : Nat := if last then s.regs.upTzb.toNat else 0

/-- The walk UNPACK_WORD makes over WORD, from UP_NODE (R233). -/
def State.wordWalk (s : State) (last : Bool) : Walk :=
  walk s.mem.node s.tree.root { node := s.up.node, tokens := [] } (streamBits s.regs.word (s.stopAt last))

/-- What UNPACK_WORD's loop leaves: TBUF[0..t-1], UP_NODE, UP_TCOUNT and the counters (R233). -/
def State.emit (s : State) (w : Walk) : State :=
  { s with mem := { s.mem with tbuf := writePrefix w.tokens s.mem.tbuf },
           up := { s.up with node := w.node, tcount := BitVec.ofNat 32 w.tokens.length, wcnt := s.up.wcnt + 1#32,
                             tokcnt := s.up.tokcnt + BitVec.ofNat 32 w.tokens.length } }

/-- UP_STATE <- u. -/
def State.setUpState (s : State) (u : UpState) : State := { s with up := { s.up with state := u } }

/-- UNPACK_BEGIN's checks, in order (R232). -/
def unpackBeginError (s : State) : Option ErrCode :=
  if s.tree.valid = false then some .notReady
  else if s.tree.degen = true then some .degenerate
  else none

/-- UNPACK_BEGIN (R232). -/
def execUnpackBegin (s : State) : Result :=
  match unpackBeginError s with
  | some e => raise e s
  | none => finish .ok { s with up := { state := .run, node := s.tree.root, tcount := 0#32, wcnt := 0#32, tokcnt := 0#32 } }

/-- UNPACK_WORD in state RUN, its checks before the loop passed (R233). -/
def unpackRun (last : Bool) (s : State) : Result :=
  let w := s.wordWalk last
  if last = false then finish .ok (s.emit w)
  else if w.node ≠ s.tree.root then finish .fmtTrunc ((s.emit w).setUpState .idle)
  else finish .ok ((s.emit w).setUpState .done)

/-- UNPACK_WORD (R233). -/
def execUnpackWord (last : Bool) (s : State) : Result :=
  match s.up.state with
  | .idle => raise .seq s
  | .done => finish .fmtExtra (s.setUpState .idle)
  | .run =>
    if last = true ∧ 31 < s.regs.upTzb.toNat then finish .fmtTzb (s.setUpState .idle)
    else unpackRun last s

/-- UNPACK_END (R234). -/
def execUnpackEnd (s : State) : Result :=
  match s.up.state with
  | .idle => raise .seq s
  | .done => finish .ok (s.setUpState .idle)
  | .run =>
    if s.up.wcnt ≠ 0#32 then finish .fmtTrunc (s.setUpState .idle)
    else if s.regs.upTzb ≠ 0#8 then finish .fmtTzb (s.setUpState .idle)
    else finish .ok (s.setUpState .idle)

end Sys2Proof.Machine
end

