-- ==== Sys2Proof/Machine/CodeDeriver.lean ====
section
/-! DEFINITION. The codeword table deriver: DERIVE, the upward walk (spec/42_code_deriver.md). -/

namespace Sys2Proof.Machine

/-- A codeword under construction: its bits so far and how many they are. -/
structure PathCode where
  cw  : Word
  len : Nat
  deriving DecidableEq, Repr

/-- `code_of` (R181): from record `n` up along PARENT while HASPAR = 1, the branch bits appended from the least significant
position. `fuel` bounds the links followed (log entry 9). -/
def climb (node : List NodeRec) : Nat → Nat → PathCode → PathCode
  | 0, _, p => p
  | fuel + 1, n, p =>
    let r := nodeAt node n
    if r.hasPar then
      climb node fuel r.parent.toNat
        { cw := if p.len < 32 then p.cw ||| ((BitVec.ofBool r.bit).setWidth 32 <<< p.len) else p.cw, len := p.len + 1 }
    else p

/-- The code of leaf i. MAX_CODE_LEN + 1 links decide everything DERIVE uses of it: a leaf that still has a parent after 31
links is deeper than MAX_CODE_LEN, and DERIVE then fails whatever its code (R182; log entry 9). -/
def codeOf (node : List NodeRec) (i : Nat) : PathCode := climb node (Config.maxCodeLen + 1) i { cw := 0#32, len := 0 }

/-- The number of leaves, (NNODES + 1) / 2 (spec/10_state.md R41). -/
def State.leaves (s : State) : Nat := (s.tree.nnodes.toNat + 1) / 2

/-- The entry DERIVE writes for leaf i (R180). -/
def derivedEntry (node : List NodeRec) (i : Nat) : CodeEntry :=
  { token := (nodeAt node i).token, cw := (codeOf node i).cw, len := BitVec.ofNat 8 (codeOf node i).len }

/-- The table DERIVE writes (R180). -/
def derivedTable (node : List NodeRec) (n : Nat) : List CodeEntry := (List.range n).map (derivedEntry node)

/-- max(len[0..N-1]), 0 for no leaf (R180). -/
def maxLength (node : List NodeRec) (n : Nat) : Nat := ((List.range n).map (fun i => (codeOf node i).len)).foldl max 0

/-- DERIVE's checks, in order (R180, spec/60_exceptions.md R272). -/
def deriveError (s : State) : Option ErrCode :=
  if s.tree.valid = false then some .notReady
  else if Config.maxCodeLen < maxLength s.mem.node s.leaves then some .codeLen
  else none

/-- CODE[0..N-1] and MAXLEN after a DERIVE (R180). -/
def State.setTable (s : State) : State :=
  { s with mem := { s.mem with code := writePrefix (derivedTable s.mem.node s.leaves) s.mem.code },
           tree := { s.tree with maxlen := BitVec.ofNat 32 (maxLength s.mem.node s.leaves) } }

/-- DERIVE (R180). -/
def execDerive (s : State) : Result :=
  match deriveError s with
  | some e => raise e s
  | none => finish .ok s.setTable

end Sys2Proof.Machine
end

