-- ==== Sys2Proof/Machine/Common.lean ====
section
/-! DEFINITION. NOP and illegal command words (spec/40_commands_common.md R143, R144). -/

namespace Sys2Proof.Machine

/-- NOP (R143): completes with E_OK and changes only the completion fields. -/
def execNop (s : State) : Result := finish .ok s

/-- An illegal command word (R144): completes with E_ILLEGAL and changes only the completion fields. -/
def execIllegal (s : State) : Result := raise .illegal s

end Sys2Proof.Machine
end

