-- ==== Sys2Proof/Machine/TreeBuilder.lean ====
section
/-! DEFINITION. The tree builder: BUILD, the two-queue merge (spec/41_tree_builder.md). -/

namespace Sys2Proof.Machine

/-- The leaf record of one SYM entry: its token masked to 8L bits, its count as weight (R161, R162). -/
def leafOfSym (L : Nat) (e : SymEntry) : NodeRec :=
  { leaf := true, hasPar := false, bit := false, parent := 0#32, c1 := 0#32, c0 := 0#32,
    weight := e.count.setWidth 64, token := tokMask L e.token }

/-- The state of the merge (R163): the arena; the leaves queue is records lh..N-1, the internals queue ih..next-1. -/
structure MergeState where
  arena : List NodeRec
  lh    : Nat
  ih    : Nat
  next  : Nat
  deriving DecidableEq, Repr

/-- WEIGHT of a record. -/
def weightAt (node : List NodeRec) (k : Nat) : Weight := (nodeAt node k).weight

/-- Whether `pop()` takes the leaf: there is one, and there is no internal record or the leaf is not heavier (R163). -/
def popsLeaf (n : Nat) (q : MergeState) : Bool :=
  q.lh < n && (q.ih == q.next || weightAt q.arena q.lh ≤ weightAt q.arena q.ih)

/-- `pop()` (R163): the front of the chosen queue. -/
def popIndex (n : Nat) (q : MergeState) : Nat := if popsLeaf n q then q.lh else q.ih

/-- The queues after `pop()`. -/
def popRest (n : Nat) (q : MergeState) : MergeState :=
  if popsLeaf n q then { q with lh := q.lh + 1 } else { q with ih := q.ih + 1 }

/-- The record of a merge of `a` (first popped, C1) and `b` (second popped, C0) (R164). -/
def mergedRec (arena : List NodeRec) (a b : Nat) : NodeRec :=
  { leaf := false, hasPar := false, bit := false, parent := 0#32, c1 := BitVec.ofNat 32 a, c0 := BitVec.ofNat 32 b,
    weight := weightAt arena a + weightAt arena b, token := 0#32 }

/-- Give record `c` the parent `k` and the branch bit `b` (R161, R164; spec/44_decode_tree.md R215). -/
def linkChild (arena : List NodeRec) (c k : Nat) (b : Bool) : List NodeRec :=
  arena.modify c (fun r => { r with hasPar := true, parent := BitVec.ofNat 32 k, bit := b })

/-- One merge (R161, R164). -/
def mergeStep (n : Nat) (q : MergeState) : MergeState :=
  let a := popIndex n q
  let q1 := popRest n q
  let b := popIndex n q1
  let q2 := popRest n q1
  let merged := q2.arena.set q2.next (mergedRec q2.arena a b)
  { q2 with arena := linkChild (linkChild merged a q2.next true) b q2.next false, next := q2.next + 1 }

/-- `repeat k times` of the merge. -/
def mergeLoop (n : Nat) : Nat → MergeState → MergeState
  | 0, q => q
  | k + 1, q => mergeLoop n k (mergeStep n q)

/-- The arena with the N leaves written (R162). -/
def leafArena (L : Nat) (sym : List SymEntry) (node : List NodeRec) : List NodeRec :=
  writePrefix (sym.map (leafOfSym L)) node

/-- The arena of a successful BUILD with N leaves `sym` (R161, R165). -/
def buildArena (L : Nat) (sym : List SymEntry) (node : List NodeRec) : List NodeRec :=
  (mergeLoop sym.length (sym.length - 1)
    { arena := leafArena L sym node, lh := 0, ih := sym.length, next := sym.length }).arena

/-- BUILD's checks, in order (R161, spec/60_exceptions.md R272): the code of the first that fails. -/
def buildError (s : State) : Option ErrCode :=
  if ¬ WidthOk s.tokenWidth then some .range
  else if s.count = 0 then some .noLeaves
  else if s.config.nsymMax < s.count then some .range
  else if hasDupToken s.tokenWidth ((s.mem.sym.take s.count).map SymEntry.token) then some .dupToken
  else none

/-- BUILD (R161): the errors of R166, else the tree of SYM[0..N-1]; one leaf is the degenerate tree (R165). -/
def execBuild (s : State) : Result :=
  match buildError s with
  | some e => raiseTree e s
  | none =>
    let node := buildArena s.tokenWidth (s.mem.sym.take s.count) s.mem.node
    if s.count = 1 then finish .ok (s.setTree node 0 1 true)
    else finish .ok (s.setTree node (2 * s.count - 2) (2 * s.count - 1) false)

end Sys2Proof.Machine
end

