-- ==== Sys2Proof/Machine/DecodeTree.lean ====
section
/-! DEFINITION. The decode-tree reconstructor: REBUILD, the breadth-first partition (spec/44_decode_tree.md). -/

namespace Sys2Proof.Machine

/-- The leaf record of one CODE entry: its token masked to 8L bits, weight 0 (R215, R216). -/
def leafOfCode (L : Nat) (e : CodeEntry) : NodeRec :=
  { leaf := true, hasPar := false, bit := false, parent := 0#32, c1 := 0#32, c0 := 0#32, weight := 0#64,
    token := tokMask L e.token }

/-- One item (k, S, d) of the work queue: the record, its entry set in index order, the depth (R215, R217). -/
structure SplitItem where
  record  : Nat
  entries : List Nat
  depth   : Nat
  deriving DecidableEq, Repr

/-- The state of the reconstruction (R215): the arena, the next record's number, the queue. -/
structure SplitState where
  arena : List NodeRec
  next  : Nat
  queue : List SplitItem
  deriving DecidableEq, Repr

/-- LEN of entry e. -/
def lenAt (code : List CodeEntry) (e : Nat) : Nat := (codeAt code e).length

/-- CODE[e].CW[LEN - d], the branch bit of entry e at depth d (R218). -/
def branchBit (code : List CodeEntry) (d e : Nat) : Bool := (codeAt code e).cw.getLsbD (lenAt code e - d)

/-- R218 (d): the partition is one entry whose codeword does not end at depth d. -/
def loneMismatch (code : List CodeEntry) (d : Nat) : List Nat → Bool
  | [e] => lenAt code e != d
  | _ => false

/-- Whether the split of (S, d) fails one of the checks of R218 (b) to (d), in the order of R215. -/
def splitFails (code : List CodeEntry) (it : SplitItem) : Bool :=
  let s1 := it.entries.filter (branchBit code it.depth)
  let s0 := it.entries.filter (fun e => !branchBit code it.depth e)
  it.entries.any (fun e => lenAt code e < it.depth) || s1.isEmpty || s0.isEmpty
    || loneMismatch code it.depth s1 || loneMismatch code it.depth s0

/-- The record that stands for a partition: the leaf of a lone entry, else the next internal record (R215). -/
def childRecord (st : SplitState) : List Nat → Nat
  | [e] => e
  | _ => st.next

/-- Give the partition `part` of record `k` its record: link it, and queue it for splitting unless it is a leaf (R215). -/
def placeChild (k d : Nat) (b : Bool) (part : List Nat) (st : SplitState) : SplitState :=
  match part with
  | [e] => { st with arena := linkChild st.arena e k b }
  | _ => { arena := linkChild st.arena st.next k b, next := st.next + 1,
           queue := st.queue ++ [{ record := st.next, entries := part, depth := d + 1 }] }

/-- Record k becomes internal with children c1 and c0, its own links kept (R215). -/
def makeInternal (arena : List NodeRec) (k c1 c0 : Nat) : List NodeRec :=
  arena.modify k (fun r =>
    { leaf := false, hasPar := r.hasPar, bit := r.bit, parent := r.parent, c1 := BitVec.ofNat 32 c1,
      c0 := BitVec.ofNat 32 c0, weight := 0#64, token := 0#32 })

/-- One turn of the loop of R215, on the item popped from the front: C1 first, then C0. -/
def splitRecord (code : List CodeEntry) (it : SplitItem) (st : SplitState) : SplitState :=
  let s1 := it.entries.filter (branchBit code it.depth)
  let s0 := it.entries.filter (fun e => !branchBit code it.depth e)
  let st1 := placeChild it.record it.depth true s1 st
  let st0 := placeChild it.record it.depth false s0 st1
  { st0 with arena := makeInternal st0.arena it.record (childRecord st s1) (childRecord st1 s0) }

/-- The loop `while Q is not empty` of R215; none is E_FMT_TABLE. `fuel` bounds the records split (log entry 10). -/
def splitLoop (code : List CodeEntry) : Nat → SplitState → Option SplitState
  | 0, st => if st.queue.isEmpty then some st else none
  | fuel + 1, st =>
    match st.queue with
    | [] => some st
    | it :: rest => if splitFails code it then none else splitLoop code fuel (splitRecord code it { st with queue := rest })

/-- The record of the root before it is split: no parent (R215: "The root record N is written with HASPAR = 0, BIT = 0,
PARENT = 0"; log entry 11). -/
def rootRec : NodeRec :=
  { leaf := false, hasPar := false, bit := false, parent := 0#32, c1 := 0#32, c0 := 0#32, weight := 0#64, token := 0#32 }

/-- The reconstruction of a table of N >= 2 entries; N - 1 splits suffice (R218). -/
def rebuildArena (L : Nat) (code : List CodeEntry) (node : List NodeRec) : Option SplitState :=
  splitLoop code code.length
    { arena := (writePrefix (code.map (leafOfCode L)) node).set code.length rootRec, next := code.length + 1,
      queue := [{ record := code.length, entries := List.range code.length, depth := 1 }] }

/-- REBUILD's checks before any split, in order (R215, spec/60_exceptions.md R272 checks 1 to 4). -/
def rebuildError (s : State) : Option ErrCode :=
  if ¬ WidthOk s.tokenWidth then some .range
  else if s.count = 0 then some .fmtTable
  else if s.config.nsymMax < s.count then some .range
  else if (s.mem.code.take s.count).any (fun e => Config.maxCodeLen < e.length) then some .fmtTable
  else none

/-- REBUILD (R215): one entry is the degenerate tree, its codeword never read (R219). -/
def execRebuild (s : State) : Result :=
  match rebuildError s with
  | some e => raiseTree e s
  | none =>
    let code := s.mem.code.take s.count
    if s.count = 1 then
      finish .ok (s.setTree (writePrefix (code.map (leafOfCode s.tokenWidth)) s.mem.node) 0 1 true)
    else match rebuildArena s.tokenWidth code s.mem.node with
      | none => raiseTree .fmtTable s
      | some st => finish .ok (s.setTree st.arena s.count st.next false)

end Sys2Proof.Machine
end

