-- ==== Sys2Proof/Machine/Dispatch.lean ====
section
/-! DEFINITION. The dispatch of a legal command to its meaning (spec/40_commands_common.md R142). -/

namespace Sys2Proof.Machine

/-- The engine's step on a command: its whole effect and its completion (spec/40_commands_common.md R141, R142). -/
def exec (i : Instr) (s : State) : Host.Outcome State Fault Refusal :=
  match i with
  | .nop => Sys2Proof.Machine.execNop s
  | .build => Sys2Proof.Machine.execBuild s
  | .derive => Sys2Proof.Machine.execDerive s
  | .packBegin => Sys2Proof.Machine.execPackBegin s
  | .packToken => Sys2Proof.Machine.execPackToken s
  | .packEnd => Sys2Proof.Machine.execPackEnd s
  | .rebuild => Sys2Proof.Machine.execRebuild s
  | .unpackBegin => Sys2Proof.Machine.execUnpackBegin s
  | .unpackWord last => Sys2Proof.Machine.execUnpackWord last s
  | .unpackEnd => Sys2Proof.Machine.execUnpackEnd s

end Sys2Proof.Machine
end

