-- ==== Sys2Proof/Machine/Step.lean ====
section
/-! DEFINITION. One step of HUFFCORE: the engine's completion of the pending command, or one action of the host, or, at the end
of a run, nothing (spec/00_scope.md R7, spec/40_commands_common.md R141). -/

namespace Sys2Proof.Machine

/-- The engine's step on the pending word: the command it decodes to, or E_ILLEGAL (spec/40_commands_common.md R142). -/
def engineStep (s : State) : Host.Outcome State Fault Refusal :=
  match decode s.seq.pending with
  | .ok i => exec i s
  | .error _ => execIllegal s

/-- One step of the machine (log entries 4 and 7). -/
def step (s : State) : Host.Outcome State Fault Refusal :=
  match s.turn with
  | .engine => engineStep s
  | .host a rest => hostStep s a rest
  | .rest => .next s

/-- The state whose next step runs the command word `w` (log entry 6). -/
def State.withFetchWord (s : State) (nbits w : Nat) : State := s.withPending (tableWord nbits w)

end Sys2Proof.Machine
end

