-- ==== Sys2Proof/Machine/HostCodec.lean ====
section
/-! DEFINITION. The host-side codec procedures (spec/46_host_codec.md): frequency counting, the container, encode and decode,
over the block's bus writes and commands. They bind the host, not the block (R250). The progress callback (R260), seeking and
the byte source's own errors are outside (spec/00_scope.md R5 (e), (f)). -/

namespace Sys2Proof.Machine

/-- What a host procedure reports (spec/60_exceptions.md R271). -/
inductive HostError where
  /-- EmptySourceError (spec/46_host_codec.md R251) -/
  | emptySource
  /-- NoLeavesError -/
  | noLeaves
  /-- FormatError: a container check of R255 or one of the four E_FMT_ codes -/
  | format
  /-- UnknownTokenError -/
  | unknownToken
  /-- a typed failure carrying the block's code, outside the source's taxonomy -/
  | block (e : ErrCode)
  /-- an input beyond this hardware's range that the host refuses itself (R251, R255) -/
  | unsupported
  deriving DecidableEq, Repr

/-- The host's error for a failed command (spec/60_exceptions.md R271). -/
def hostErrorOf : ErrCode → HostError
  | .noLeaves => .noLeaves
  | .fmtTable | .fmtTzb | .fmtTrunc | .fmtExtra => .format
  | .unknownToken => .unknownToken
  | .ok => .block .ok
  | .range => .block .range
  | .dupToken => .block .dupToken
  | .codeLen => .block .codeLen
  | .notReady => .block .notReady
  | .degenerate => .block .degenerate
  | .seq => .block .seq
  | .illegal => .block .illegal

/-! ## Bytes and tokens (spec/30_encoding.md R113, R116, R117) -/

/-- The big-endian value of a list of at most four bytes (R113). -/
def wordOfBytes (bs : List Byte) : Word := bs.foldl (fun acc b => (acc <<< 8) ||| b.setWidth 32) 0#32

/-- The low 8L bits of a word as L bytes, most significant first. -/
def bytesOfWord (L : Nat) (w : Word) : List Byte := (List.range L).map (fun i => (w >>> (8 * (L - 1 - i))).setWidth 8)

/-- The tokens of a byte source: L bytes each, a final short read discarded (spec/46_host_codec.md R251). -/
def tokensOf (L : Nat) (src : List Byte) : List Word :=
  (List.range (src.length / L)).map (fun i => wordOfBytes ((src.drop (L * i)).take L))

/-! ## Frequency counting (spec/46_host_codec.md R251) -/

/-- A token and its count. -/
structure Freq where
  token : Word
  count : Nat
  deriving DecidableEq, Repr

/-- Count one token; a new token goes last, so that the list is in first-seen order. -/
def bumpFreq (t : Word) : List Freq → List Freq
  | [] => [{ token := t, count := 1 }]
  | f :: fs => if f.token = t then { f with count := f.count + 1 } :: fs else f :: bumpFreq t fs

/-- Insert behind every entry of a count that is not greater: a stable ascending order. -/
def insertFreq (f : Freq) : List Freq → List Freq
  | [] => [f]
  | g :: gs => if f.count < g.count then f :: g :: gs else g :: insertFreq f gs

/-- The FrequencyTable: ascending by count, ties in first-seen order (R251). -/
def freqTable (tokens : List Word) : List Freq :=
  (tokens.foldl (fun fs t => bumpFreq t fs) []).foldl (fun acc f => insertFreq f acc) []

/-! ## The container (spec/30_encoding.md R117, R118) -/

/-- A container's fields after the magic tag. -/
structure Container where
  width   : Nat
  table   : List CodeEntry
  tzb     : Byte
  payload : List Word
  deriving DecidableEq, Repr

/-- One table record: the token's L bytes, the codeword's four, the length's one (R118). -/
def recordBytes (L : Nat) (e : CodeEntry) : List Byte := bytesOfWord L e.token ++ bytesOfWord 4 e.cw ++ [e.len]

/-- The container's bytes, for the format tag `magic` (R117). -/
def containerBytes (magic : Word) (c : Container) : List Byte :=
  bytesOfWord 4 magic ++ [BitVec.ofNat 8 c.width] ++ bytesOfWord 4 (BitVec.ofNat 32 (c.table.length * (c.width + 5)))
    ++ c.table.flatMap (recordBytes c.width) ++ [c.tzb] ++ c.payload.flatMap (bytesOfWord 4)

/-- One table record read back (spec/46_host_codec.md R255 step 4). -/
def recordOfBytes (L : Nat) (bs : List Byte) : CodeEntry :=
  { token := wordOfBytes (bs.take L), cw := wordOfBytes ((bs.drop L).take 4), len := bs.getD (L + 4) 0#8 }

/-- `n` pieces of `k` bytes each. -/
def pieces (k n : Nat) (bs : List Byte) : List (List Byte) := (List.range n).map (fun i => (bs.drop (k * i)).take k)

/-- What steps 1 to 3 of spec/46_host_codec.md R255 leave: the width, the number of records, and the bytes from the table on. -/
structure ContainerHead where
  width : Nat
  count : Nat
  body  : List Byte
  deriving DecidableEq, Repr

/-- The checks of R255 steps 1 to 3, in order; every failure is FormatError. -/
def parseHead (magic : Word) (nsymMax : Nat) (bs : List Byte) : Except HostError ContainerHead :=
  if bs.length < 4 ∨ wordOfBytes (bs.take 4) ≠ magic then .error .format
  else
    let width := (bs.getD 4 0#8).toNat
    if bs.length < 5 ∨ ¬ WidthOk width then .error .format
    else
      let tableLength := (wordOfBytes ((bs.drop 5).take 4)).toNat
      let n := tableLength / (width + 5)
      if bs.length < 9 ∨ tableLength = 0 ∨ tableLength % (width + 5) ≠ 0 ∨ bs.length < 9 + tableLength ∨ nsymMax < n then
        .error .format
      else .ok { width := width, count := n, body := bs.drop 9 }

/-- The table records (R255 step 4). -/
def ContainerHead.table (h : ContainerHead) : List CodeEntry :=
  (pieces (h.width + 5) h.count h.body).map (recordOfBytes h.width)

/-- The bytes behind the table: trailingZeroBits and the payload. -/
def ContainerHead.tail (h : ContainerHead) : List Byte := h.body.drop (h.count * (h.width + 5))

/-- The container of a head, its trailingZeroBits byte and its payload bytes: their number must be a multiple of 4 (R255
step 6). -/
def ContainerHead.withPayload (h : ContainerHead) (tzb : Byte) (bytes : List Byte) : Except HostError Container :=
  if bytes.length % 4 ≠ 0 then .error .format
  else .ok { width := h.width, table := h.table, tzb := tzb, payload := (pieces 4 (bytes.length / 4) bytes).map wordOfBytes }

/-- Read and check a container, the checks in the order of R255; every failure is FormatError. These are the checks alone: the
loads between them are loadContainer's. -/
def parseContainer (magic : Word) (nsymMax : Nat) (bs : List Byte) : Except HostError Container :=
  match parseHead magic nsymMax bs with
  | .error e => .error e
  | .ok h =>
    match h.tail with
    | [] => .error .format
    | z :: bytes => h.withPayload z bytes

/-! ## Driving the block -/

/-- A host write to a named word. -/
def hostSet (t : Target) (v : Word) (s : State) : State := s.busWrite (t.offset.getD 0x58) v

/-- Issue a command, wait for it (spec/70_reset_and_hazards.md R304) and read its code: the state after it, and the host's
error if the code is not E_OK. The last two lines are never reached: the engine always completes (R315). -/
def hostRunCmd (i : Instr) (s : State) : State × Option HostError :=
  match engineStep (hostSet (.reg .cmd) (encode i) s) with
  | .next t => (t, if t.seq.errcode = .ok then none else some (hostErrorOf t.seq.errcode))
  | .fault _ => (s, some (.block .illegal))
  | .refused _ => (s, some (.block .illegal))

/-- The same for a procedure that ends at the first error. -/
def hostCmd (i : Instr) (s : State) : Except HostError State :=
  match hostRunCmd i s with
  | (t, none) => .ok t
  | (_, some e) => .error e

/-- CTRL.TOKW <- L, IE left 0 (spec/70_reset_and_hazards.md R303 step 2). -/
def hostSetWidth (L : Nat) (s : State) : State := hostSet (.reg .ctrl) (BitVec.ofNat 32 (256 * L)) s

/-- SYM[i] <- the i-th entry of the frequency table, for every i (spec/46_host_codec.md R251). -/
def hostLoadSym (fs : List Freq) (s : State) : State :=
  fs.zipIdx.foldl
    (fun s f => hostSet (.sym f.2 .count) (BitVec.ofNat 32 f.1.count) (hostSet (.sym f.2 .token) f.1.token s)) s

/-- CODE[i] <- the i-th record of the table, for every i (spec/46_host_codec.md R255 step 4). -/
def hostLoadCode (es : List CodeEntry) (s : State) : State :=
  es.zipIdx.foldl
    (fun s e => hostSet (.code e.2 .len) (e.1.len.setWidth 32)
      (hostSet (.code e.2 .cw) e.1.cw (hostSet (.code e.2 .token) e.1.token s))) s

/-- The word a packer command flushed, if STATUS.PK_OUTVALID = 1 (spec/70_reset_and_hazards.md R305). -/
def flushedWord (s : State) : List Word := if s.pk.outValid then [s.readReg .pkOut] else []

/-- Pack tokens one by one, reading each flushed word (spec/46_host_codec.md R252 step 4). -/
def packTokens : List Word → State → Except HostError (State × List Word)
  | [], s => .ok (s, [])
  | x :: xs, s =>
    match hostCmd .packToken (hostSet (.reg .token) x s) with
    | .error e => .error e
    | .ok t =>
      match packTokens xs t with
      | .error e => .error e
      | .ok r => .ok (r.1, flushedWord t ++ r.2)

/-- One whole pack stream: PACK_BEGIN, the tokens, PACK_END. -/
def packStream (tokens : List Word) (s : State) : Except HostError (State × List Word) :=
  match hostCmd .packBegin s with
  | .error e => .error e
  | .ok b =>
    match packTokens tokens b with
    | .error e => .error e
    | .ok r =>
      match hostCmd .packEnd r.1 with
      | .error e => .error e
      | .ok t => .ok (t, r.2 ++ flushedWord t)

/-- The tokens the last UNPACK_WORD emitted, TBUF[0..UP_TCOUNT-1] (spec/70_reset_and_hazards.md R306). -/
def emittedTokens (s : State) : List Word := s.mem.tbuf.take s.up.tcount.toNat

/-- What a decode has written so far and how it ended; partial output stays (spec/46_host_codec.md R258). -/
structure HostRun where
  state : State
  sink  : List Word
  error : Option HostError
  deriving DecidableEq, Repr

/-- Unpack words one by one, the last one marked LAST (spec/46_host_codec.md R256). DESIGN CHOICE (log entry 21): the tokens of a
final word that completes with E_FMT_TRUNC are not taken; spec/70_reset_and_hazards.md R306 leaves it to the host ("if the
host wants the partial output"). Those of the words before it stay in the sink (R258). -/
def unpackWords : List Word → State → HostRun
  | [], s => { state := s, sink := [], error := none }
  | w :: ws, s =>
    match hostRunCmd (.unpackWord ws.isEmpty) (hostSet (.reg .word) w s) with
    | (t, some e) => { state := t, sink := [], error := some e }
    | (t, none) =>
      let r := unpackWords ws t
      { r with sink := emittedTokens t ++ r.sink }

/-- One whole unpack stream: UNPACK_BEGIN, the words, UNPACK_END. -/
def unpackStream (words : List Word) (s : State) : HostRun :=
  match hostRunCmd .unpackBegin s with
  | (t, some e) => { state := t, sink := [], error := some e }
  | (b, none) =>
    let r := unpackWords words b
    match r.error with
    | some _ => r
    | none =>
      { r with state := (hostRunCmd .unpackEnd r.state).1, error := (hostRunCmd .unpackEnd r.state).2 }

/-! ## Encode and decode (spec/46_host_codec.md R252 to R256) -/

/-- The payload of an encode: the count word of the degenerate policy (R254 (a)), else the packed tokens; with the
trailingZeroBits to patch into the header (R253). -/
def encodePayload (fs : List Freq) (tokens : List Word) (s : State) : Except HostError (State × List Word × Byte) :=
  if s.tree.degen then .ok (s, [BitVec.ofNat 32 ((fs.map Freq.count).getD 0 0)], 0#8)
  else
    match packStream tokens s with
    | .error e => .error e
    | .ok r => .ok (r.1, r.2, (r.1.readReg .pkTzb).setWidth 8)

/-- Encode a byte source into a container (R252). -/
def encodeSource (magic : Word) (L : Nat) (src : List Byte) (s : State) : Except HostError (State × List Byte) :=
  let tokens := tokensOf L src
  let fs := freqTable tokens
  if ¬ WidthOk L then .error .unsupported
  else if tokens = [] then .error .emptySource
  else if fs.any (fun f => 2 ^ 32 ≤ f.count) ∨ s.config.nsymMax < fs.length then .error .unsupported
  else
    match hostCmd .build (hostSet (.reg .nsym) (BitVec.ofNat 32 fs.length) (hostLoadSym fs (hostSetWidth L s))) with
    | .error e => .error e
    | .ok b =>
      match hostCmd .derive b with
      | .error e => .error e
      | .ok d =>
        match encodePayload fs tokens d with
        | .error e => .error e
        | .ok r =>
          .ok (r.1, containerBytes magic
            { width := L, table := d.mem.code.take fs.length, tzb := r.2.2, payload := r.2.1 })

/-- The output of a one-record container: its token, count times (R254 (b)). -/
def decodeDegenerate (c : Container) (s : State) : HostRun :=
  match c.payload with
  | [n] =>
    if c.tzb = 0#8 ∧ n ≠ 0#32 then
      { state := s, sink := List.replicate n.toNat ((c.table.map CodeEntry.token).getD 0 0#32), error := none }
    else { state := s, sink := [], error := some .format }
  | _ => { state := s, sink := [], error := some .format }

/-- R255 step 4: the records to CODE, then NSYM <- N, then CTRL.TOKW <- L (log entry 19). -/
def hostLoadTable (h : ContainerHead) (s : State) : State :=
  hostSetWidth h.width (hostSet (.reg .nsym) (BitVec.ofNat 32 h.count) (hostLoadCode h.table s))

/-- Read a container into the block (R255): each load happens when the checks before it have passed, so that a container that
fails at step 5 or 6 has loaded what came before. The container is the one parseContainer gives. -/
def loadContainer (magic : Word) (bs : List Byte) (s : State) : State × Except HostError Container :=
  match parseHead magic s.config.nsymMax bs with
  | .error e => (s, .error e)
  | .ok h =>
    match h.tail with
    | [] => (hostLoadTable h s, .error .format)
    | z :: bytes => (hostSet (.reg .upTzb) (z.setWidth 32) (hostLoadTable h s), h.withPayload z bytes)

/-- Decode a container that is loaded (R256): REBUILD, then the payload. The sink holds tokens; each is L bytes. -/
def decodeContainer (c : Container) (loaded : State) : HostRun :=
  match hostRunCmd .rebuild loaded with
  | (t, some e) => { state := t, sink := [], error := some e }
  | (t, none) => if c.table.length = 1 then decodeDegenerate c t else unpackStream c.payload t

/-- What a decode of a byte source ends with: the block's state, the bytes written, and the error if there was one. -/
structure DecodeResult where
  state : State
  bytes : List Byte
  error : Option HostError
  deriving DecidableEq, Repr

/-- Decode a byte source (R255, R256, R258). -/
def decodeSource (magic : Word) (src : List Byte) (s : State) : DecodeResult :=
  match loadContainer magic src s with
  | (t, .error e) => { state := t, bytes := [], error := some e }
  | (t, .ok c) =>
    let r := decodeContainer c t
    { state := r.state, bytes := r.sink.flatMap (bytesOfWord c.width), error := r.error }

/-- The source's `encode` and `decode` with the platform's format tag (R252, R256). -/
def hostEncode (L : Nat) (src : List Byte) (s : State) : Except HostError (State × List Byte) :=
  encodeSource Config.magicTag L src s

def hostDecode (src : List Byte) (s : State) : DecodeResult := decodeSource Config.magicTag src s

end Sys2Proof.Machine
end

