-- ==== Sys2Proof/Machine/HostScript.lean ====
section
/-! DEFINITION. The host script notation (spec/30_encoding.md R120, R121), run against the block with every command waited for
(spec/70_reset_and_hazards.md R304). Notation for test programs; no part of the block. -/

namespace Sys2Proof.Machine

/-- `<target>` (R120): a named word, or a numeric offset. -/
inductive Place where
  | named (t : Target)
  | offset (off : Nat)
  deriving DecidableEq, Repr

/-- The byte offset of a place; a reserved word has no name, and stands for the first reserved word of the map. -/
def Place.off : Place → Nat
  | .named t => t.offset.getD 0x58
  | .offset off => off

/-- One statement (R120, R121). -/
inductive Stmt where
  /-- `wr <target>, <value>` -/
  | wr (p : Place) (v : Word)
  /-- `rd <target>`, with the value the rules give where the script states one -/
  | rd (p : Place) (want : Option Word)
  /-- `cmd <MNEMONIC>`: write the command word, then wait -/
  | cmd (i : Instr)
  /-- `wait`: read STATUS until BUSY reads 0 -/
  | wait
  /-- `clr`: clear DONE, ERR, HAZ -/
  | clr
  /-- `wsym i, tok, cnt` -/
  | wsym (i : Nat) (tok cnt : Word)
  /-- `wcode i, tok, cw, len` -/
  | wcode (i : Nat) (tok cw len : Word)
  /-- `expect <ERRNAME>`: STATUS[23:16] is the code -/
  | expect (e : ErrCode)
  deriving DecidableEq, Repr

/-- How a script ends: run to its end, at a value other than the one it states, or at an access the block refuses. -/
inductive ScriptEnd where
  | done (s : State)
  | wrong (want got : Word)
  | refused
  deriving DecidableEq, Repr

/-- `MemWrite(off, 4, v)`, refused where spec/20_memory.md R86 says. -/
def scriptWrite (off : Nat) (v : Word) (s : State) : ScriptEnd :=
  if AccessOk 4 off then .done (s.busWrite off v) else .refused

/-- `MemRead(off, 4)`, with the check of the value where the script states one. -/
def scriptRead (off : Nat) (want : Option Word) (s : State) : ScriptEnd :=
  if AccessOk 4 off then
    match want with
    | some v => if s.readValue off = v then .done { s with draws := s.readDraws off } else .wrong v (s.readValue off)
    | none => .done { s with draws := s.readDraws off }
  else .refused

/-- `wait`: a pending command completes, by the engine's fairness (spec/00_scope.md R8). -/
def scriptWait (s : State) : ScriptEnd :=
  if s.seq.busy then
    match engineStep s with
    | .next t => .done t
    | .fault _ => .refused
    | .refused _ => .refused
  else .done s

/-- One part of a script after another. -/
def ScriptEnd.andThen (r : ScriptEnd) (f : State → ScriptEnd) : ScriptEnd :=
  match r with
  | .done s => f s
  | .wrong a b => .wrong a b
  | .refused => .refused

/-- A write to a named word. -/
def scriptSet (t : Target) (v : Word) (s : State) : ScriptEnd := scriptWrite (Place.named t).off v s

/-- One statement (R120, R121). -/
def Stmt.run (st : Stmt) (s : State) : ScriptEnd :=
  match st with
  | .wr p v => scriptWrite p.off v s
  | .rd p want => scriptRead p.off want s
  | .cmd i => (scriptSet (.reg .cmd) (encode i) s).andThen scriptWait
  | .wait => scriptWait s
  | .clr => scriptSet (.reg .status) 0x0000000E#32 s
  | .wsym i tok cnt => (scriptSet (.sym i .token) tok s).andThen (scriptSet (.sym i .count) cnt)
  | .wcode i tok cw len =>
    ((scriptSet (.code i .token) tok s).andThen (scriptSet (.code i .cw) cw)).andThen (scriptSet (.code i .len) len)
  | .expect e =>
    if (s.readValue (Place.named (.reg .status)).off).extractLsb' 16 8 = e.code then .done s
    else .wrong (e.code.setWidth 32) (s.readValue (Place.named (.reg .status)).off)

/-- A whole script. -/
def runScript : List Stmt → State → ScriptEnd
  | [], s => .done s
  | st :: rest, s => (st.run s).andThen (runScript rest)

end Sys2Proof.Machine
end

