-- ==== Sys2Proof/Safety.lean ====
section
/-! DEFINITION. What a safe run is, and the words the statements are written in: the invariants of a state (registers, memories,
tree), the bits of a codeword and of a stream, paths in the tree, prefix codes. Nothing here is used by the machine. -/

namespace Sys2Proof.Machine

/-! ## Safe runs -/

/-- A host action within the host's preconditions (spec/20_memory.md R86). -/
def HostAct.ok : HostAct → Bool
  | .read size addr => decide (AccessOk size addr)
  | .write size addr _ => decide (AccessOk size addr)
  | .rst => true

/-- A host action that resets the block: rst, or a soft reset (spec/70_reset_and_hazards.md R300, R301). -/
def HostAct.resets (c : Config) : HostAct → Bool
  | .read _ _ => false
  | .write _ addr v => isSoftReset (decodeOffset c addr) v
  | .rst => true

/-- A run of k steps is safe when no step is refused: it has an end state. HUFFCORE has no fault (spec/00_scope.md R22). -/
def SafeRun (k : Nat) (s : State) : Prop := ∃ t, Host.Core.run Sys2Proof.core k s = .next t

/-! ## The invariant of registers and memories -/

/-- spec/43_bit_packer.md R201, with PK_TZB's range (spec/10_state.md R44) and the packer at rest outside a stream. -/
abbrev PackerOk (p : Packer) : Prop :=
  p.free.toNat ≤ 32 ∧ p.acc.toNat < 2 ^ (32 - p.free.toNat) ∧ (p.state = .idle → p.free = 32#32 ∧ p.acc = 0#32)
    ∧ p.tzb.toNat ≤ 31

/-- UP_TCOUNT's range (spec/10_state.md R49); a stream is open only on a valid tree that is not degenerate
(spec/45_bit_unpacker.md R231, R232). -/
abbrev UnpackerOk (s : State) : Prop :=
  s.up.tcount.toNat ≤ 32 ∧ (s.up.state ≠ .idle → s.tree.valid = true ∧ s.tree.degen = false)

/-- The configuration is legal, the memories have their sizes, packer and unpacker are in range. -/
abbrev StateOk (s : State) : Prop := s.config.Legal ∧ s.mem.wf s.config ∧ PackerOk s.pk ∧ UnpackerOk s

/-! ## The invariant of the tree (spec/10_state.md R53) -/

/-- Record c is the child of record p on branch bit b, as c's own links say. -/
abbrev LinkedChild (node : List NodeRec) (p c : Nat) (b : Bool) : Prop :=
  (nodeAt node c).hasPar = true ∧ (nodeAt node c).parent = BitVec.ofNat 32 p ∧ (nodeAt node c).bit = b

/-- The child of record k on bit b. -/
abbrev childOf (node : List NodeRec) (k : Nat) (b : Bool) : Nat :=
  if b then (nodeAt node k).c1.toNat else (nodeAt node k).c0.toNat

/-- PARENT of record k. -/
abbrev parentOf (node : List NodeRec) (k : Nat) : Nat := (nodeAt node k).parent.toNat

/-- `m` records of `node` with leaves 0..n-1 are a full binary tree below `root`: the leaves are exactly the first n records;
every internal record has two distinct linked children among the m; every record but the root is linked as a child of its
parent; the root has no parent; following PARENT from any record reaches the root (spec/10_state.md R47, R53). -/
abbrev FullTree (node : List NodeRec) (n m root : Nat) : Prop :=
  root < m ∧ (nodeAt node root).hasPar = false
    ∧ (∀ k < m, ((nodeAt node k).leaf = true ↔ k < n))
    ∧ (∀ p < m, (nodeAt node p).leaf = false →
        childOf node p true < m ∧ childOf node p false < m ∧ childOf node p true ≠ childOf node p false
          ∧ LinkedChild node p (childOf node p true) true ∧ LinkedChild node p (childOf node p false) false)
    ∧ (∀ k < m, k ≠ root → (nodeAt node k).hasPar = true ∧ parentOf node k < m
        ∧ (nodeAt node (parentOf node k)).leaf = false ∧ childOf node (parentOf node k) (nodeAt node k).bit = k)
    ∧ (∀ k < m, ∃ j < m, (parentOf node)^[j] k = root)

/-- What TREE_VALID = 1 promises (spec/10_state.md R53), with the sizes of R40 and R41 and TREE_DEGEN of R34. -/
abbrev TreeOk (s : State) : Prop :=
  1 ≤ s.leaves ∧ s.leaves ≤ s.config.nsymMax ∧ s.tree.nnodes.toNat = 2 * s.leaves - 1
    ∧ (s.tree.degen = true ↔ s.leaves = 1)
    ∧ FullTree s.mem.node s.leaves s.tree.nnodes.toNat s.tree.root.toNat

/-- While a stream is open the walk stands at an internal record, and at the root once the final word was decoded
(spec/45_bit_unpacker.md R231, R233). -/
abbrev WalkOk (s : State) : Prop :=
  s.up.node.toNat < s.tree.nnodes.toNat ∧ (nodeAt s.mem.node s.up.node.toNat).leaf = false
    ∧ (s.up.state = .done → s.up.node = s.tree.root)

/-- The tree's invariant. -/
abbrev TreeInv (s : State) : Prop := (s.tree.valid = true → TreeOk s) ∧ (s.up.state ≠ .idle → WalkOk s)

/-! ## Bits, codewords and paths -/

/-- The n low bits of v, MSB-first: v[n-1], ..., v[0] (spec/00_scope.md R18). -/
def msbBits (v : Word) (n : Nat) : List Bool := (List.range n).map (fun j => v.getLsbD (n - 1 - j))

/-- The bits of a table entry's codeword in stream order (spec/30_encoding.md R115). -/
def CodeEntry.bits (e : CodeEntry) : List Bool := msbBits e.cw e.length

/-- Where a path of branch bits leads from record k, bit 1 to C1 and bit 0 to C0. -/
def follow (node : List NodeRec) (k : Nat) (path : List Bool) : Nat := path.foldl (childOf node) k

/-- No entry's codeword among the first n is a prefix of another's; in particular they are distinct. -/
abbrev PrefixFree (code : List CodeEntry) (n : Nat) : Prop :=
  ∀ i < n, ∀ j < n, i ≠ j → ¬ (codeAt code i).bits <+: (codeAt code j).bits

/-- The sum over the first n entries of 2^(31 - LEN); a code with every LEN <= 31 is complete when it is 2^31, that is, when
the sum of 2^(-LEN) is 1. -/
def kraftSum (code : List CodeEntry) (n : Nat) : Nat := ((List.range n).map (fun i => 2 ^ (31 - lenAt code i))).sum

/-- A table REBUILD accepts (spec/44_decode_tree.md R221 (c)). -/
abbrev CompletePrefixCode (code : List CodeEntry) (n : Nat) : Prop :=
  (∀ i < n, lenAt code i ≤ Config.maxCodeLen) ∧ PrefixFree code n ∧ kraftSum code n = 2 ^ 31

/-! ## The packer's stream -/

/-- The words the packer flushes for a list of table entries, from packer state p, and the packer after them. -/
def packAll (p : Packer) : List CodeEntry → Packer × List Word
  | [] => (p, [])
  | e :: es =>
    let q := p.pushCode e.codeword e.length
    let r := packAll q es
    (r.1, (if q.outValid then [q.out] else []) ++ r.2)

/-- The bits of a list of payload words in stream order (spec/30_encoding.md R116). -/
def wordsBits (ws : List Word) : List Bool := ws.flatMap (fun w => msbBits w 32)

/-- The words of a whole stream: those flushed by the tokens and the one PACK_END flushes, if any. -/
def streamWords (es : List CodeEntry) : List Word :=
  (packAll .opened es).2
    ++ (if (packAll .opened es).1.closed.outValid then [(packAll .opened es).1.closed.out] else [])

/-! ## Tables and operands, as a host reads them -/

/-- The entries SYM[0..N-1] are sorted ascending by count (spec/41_tree_builder.md R160). -/
abbrev SortedByCount (sym : List SymEntry) : Prop := sym.Pairwise (fun a b => a.count ≤ b.count)

/-- No two of a list of tokens are equal in their low 8L bits. -/
abbrev DistinctTokens (L : Nat) (ts : List Word) : Prop := ts.Pairwise (fun a b => tokMask L a ≠ tokMask L b)

/-- Entry i is the one PACK_TOKEN finds: the lowest of CODE[0..N-1] whose token is TOKEN's in the low 8L bits
(spec/43_bit_packer.md R199). -/
abbrev FoundAt (s : State) (i : Nat) : Prop :=
  i < s.count ∧ tokMask s.tokenWidth (codeAt s.mem.code i).token = tokMask s.tokenWidth s.regs.token
    ∧ ∀ j < i, tokMask s.tokenWidth (codeAt s.mem.code j).token ≠ tokMask s.tokenWidth s.regs.token

end Sys2Proof.Machine
end

