-- ==== Sys2Proof/Certificates/Slice0/Obligations.lean ====
section
/-! DEFINITION. The statements about HUFFCORE for the provers. Each docstring names the rule of spec/ it formalises; where a
clause rests on a choice of the model, the docstring says so and names the log entry. -/

open Sys2Proof Sys2Proof.Machine

/-! ## Command words and sequencing (spec/30_encoding.md, spec/40_commands_common.md) -/

/-- The decoder accepts exactly the encoder's words, each as its own command: no legal word is dropped, no two commands share a
word, and no bit of an accepted word is ignored (spec/30_encoding.md R110, R111). -/
def Obligations.DecodeAcceptsExactlyTheEncodings : Prop := ∀ (w : Word) (i : Instr), decode w = .ok i ↔ w = encode i

/-- The eleven command words of the opcode map decode to their commands (spec/30_encoding.md R111). -/
def Obligations.OpcodeMapWordsDecode : Prop :=
  decode 0x00000000#32 = .ok .nop ∧ decode 0x00000001#32 = .ok .build ∧ decode 0x00000002#32 = .ok .derive
    ∧ decode 0x00000003#32 = .ok .packBegin ∧ decode 0x00000004#32 = .ok .packToken ∧ decode 0x00000005#32 = .ok .packEnd
    ∧ decode 0x00000006#32 = .ok .rebuild ∧ decode 0x00000007#32 = .ok .unpackBegin
    ∧ decode 0x00000008#32 = .ok (.unpackWord false) ∧ decode 0x00000108#32 = .ok (.unpackWord true)
    ∧ decode 0x00000009#32 = .ok .unpackEnd

/-- R112: which words are illegal, told by their numbers; the decoder rejects exactly those; such a word is still issued, and
completes with E_ILLEGAL and no other effect. -/
def Obligations.IllegalWordsAreExactlyTheUnmapped : Prop :=
  ∀ w : Word,
    (illegal w = true ↔ 0x0A ≤ w.toNat % 256 ∨ w.toNat / 512 ≠ 0 ∨ (w.getLsbD 8 = true ∧ w.toNat % 256 ≠ 0x08))
      ∧ (illegal w = true ↔ ∃ r, decode w = .error r)
      ∧ (∀ s : State, s.seq.busy = false →
          ∃ t, hostAct s (.write 4 0x10 w) = .next t ∧ t.seq = { s.seq with pending := w, busy := true })
      ∧ (∀ s : State, s.seq.pending = w → illegal w = true → engineStep s = .next (s.complete .illegal))

/-- An illegal word completes with E_ILLEGAL (0x0D), LASTOP its low byte, and no other state changes
(spec/40_commands_common.md R144); the rule's corner
cases. That it is the machine's next step then, when no host action is due first, is the model's schedule (log entry 4). -/
def Obligations.IllegalWordCompletesWithEIllegal : Prop :=
  (∀ s : State, s.seq.busy = true → (s.host.lag = 0 ∨ s.host.script = []) → illegal s.seq.pending = true →
    step s = .next { s with seq := { s.seq with errcode := .illegal, lastop := s.seq.pending.setWidth 8, done := true,
                                                err := true, busy := false } })
    ∧ ErrCode.illegal.code = 0x0D#8
    ∧ illegal 0x00000100#32 = true ∧ illegal 0x00000104#32 = true ∧ illegal 0x0000000A#32 = true
    ∧ illegal 0x80000001#32 = true ∧ illegal 0x00000108#32 = false

/-- When the engine is next to step and the pending word decodes to a command, the step is that command's meaning, and so is
the step after withFetchWord (spec/40_commands_common.md R141, R142). When the engine is next is the model's choice (log
entry 4). -/
def Obligations.EngineStepRunsTheDecodedCommand : Prop :=
  (∀ (s : State) (i : Instr), s.seq.busy = true → (s.host.lag = 0 ∨ s.host.script = []) → decode s.seq.pending = .ok i →
    step s = exec i s)
    ∧ (∀ (s : State) (nbits w : Nat) (i : Instr), decodeTableWord nbits w = some i →
        step (s.withFetchWord nbits w) = exec i (s.withFetchWord nbits w))

/-- R140: a write to CMD while BUSY = 0 sets PENDING and BUSY and changes nothing else of the block, whatever the word (`h` is
the model's host agent, log entry 4); while BUSY = 1 it is dropped. -/
def Obligations.CmdWriteIssuesWhileIdle : Prop :=
  ∀ (s : State) (w : Word),
    (s.seq.busy = false → ∃ h : HostAgent,
      hostAct s (.write 4 0x10 w) = .next { s with seq := { s.seq with pending := w, busy := true }, host := h })
      ∧ (s.seq.busy = true → hostAct s (.write 4 0x10 w) = .next { s with seq := { s.seq with haz := true } })

/-- R141: every command completes, and its completion writes ERRCODE, LASTOP, DONE, ERR and BUSY so; while BUSY = 1 the engine
has its step (taken at the latest when the lag has run out, log entry 4), while BUSY = 0 it has none. -/
def Obligations.CompletionWritesTheStatusFields : Prop :=
  (∀ (i : Instr) (s : State), ∃ (t : State) (c : ErrCode), exec i s = .next t
      ∧ t.seq = { s.seq with errcode := c, lastop := s.seq.pending.setWidth 8, done := true,
                             err := s.seq.err || (c != .ok), busy := false })
    ∧ (∀ s : State, s.seq.busy = true → s.host.lag = 0 → step s = engineStep s)
    ∧ (∀ s : State, s.seq.busy = false → s.turn ≠ .engine)

/-- No step faults, and the only step without a next state is a host access outside R86 (spec/00_scope.md R22). That the idle
block at the end of its host's script answers a next state and not a stop is the model's choice (log entry 7), and so is when
a host action is due (log entry 4). -/
def Obligations.OnlyBadAccessesAreRefused : Prop :=
  ∀ s : State, (∃ t, step s = .next t)
    ∨ (step s = .refused .badAccess ∧ ∃ a rest, s.host.script = a :: rest ∧ a.ok = false)

/-- The engine's fairness (spec/00_scope.md R8): a pending command completes after at most its lag of host actions, if those are
accesses of R86 and no reset. The lag is the model's own (log entry 4). -/
def Obligations.PendingCommandCompletesWithinItsLag : Prop :=
  ∀ s : State, s.seq.busy = true →
    (∀ a ∈ s.host.script.take s.host.lag, a.ok = true ∧ a.resets s.config = false) →
    ∃ k ≤ s.host.lag + 1, ∃ t : State, Host.Core.run Sys2Proof.core k s = .next t
      ∧ t.seq.busy = false ∧ t.seq.done = true ∧ t.seq.lastop = s.seq.pending.setWidth 8

/-- R143: NOP completes with E_OK in every state and changes only the completion fields, ERR not among them; a word with OPCODE
0x00 and any other bit set is illegal. -/
def Obligations.NopOnlyCompletes : Prop :=
  (∀ s : State, exec .nop s = .next { s with seq := { s.seq with errcode := .ok, lastop := s.seq.pending.setWidth 8,
                                                                 done := true, busy := false } })
    ∧ decode 0x00000000#32 = .ok .nop
    ∧ (∀ w : Word, w.setWidth 8 = 0x00#8 → w ≠ 0#32 → illegal w = true)

/-! ## The host bus (spec/20_memory.md) -/

/-- Exactly the narrow, wide, misaligned and out-of-range accesses are refused (spec/20_memory.md R86). That they are refused
also while a command is pending is the model's reading of R86, which does not speak of BUSY (log entry 17). -/
def Obligations.AccessesOutsideTheBusAreRefused : Prop :=
  ∀ (s : State) (size addr : Nat) (v : Word),
    (¬ (size = 4 ∧ addr % 4 = 0 ∧ addr < 0x100000) →
      hostAct s (.read size addr) = .refused .badAccess ∧ hostAct s (.write size addr v) = .refused .badAccess)
      ∧ (size = 4 ∧ addr % 4 = 0 ∧ addr < 0x100000 →
        (∃ t, hostAct s (.read size addr) = .next t) ∧ (∃ t, hostAct s (.write size addr v) = .next t))

/-- R80: a read returns the word the map holds there (while BUSY = 0) and has no side effect on any state of the block; `v` goes
to the model's host agent, `d` is the model's count of free draws. Which word that is, by its offset: every register of
spec/20_memory.md R82 with the fields of PARAM and CTRL (spec/10_state.md R32, R33), and every word of the TBUF, SYM, CODE and
NODE windows (R83). -/
def Obligations.ReadsHaveNoSideEffect : Prop :=
  (∀ (s : State) (off : Nat), off % 4 = 0 → off < 0x100000 → ∃ (v : Word) (d : Nat),
    hostAct s (.read 4 off)
      = .next { s with host := { s.host with readData := v :: s.host.readData }, draws := d }
      ∧ (s.seq.busy = false → v = s.readTarget (decodeOffset s.config off) ∧ d = s.draws))
    ∧ ∀ s : State, s.config.Legal → s.seq.busy = false →
      let reads (off : Nat) (v : Word) : Prop :=
        hostAct s (.read 4 off) = .next { s with host := { s.host with readData := v :: s.host.readData } }
      (reads 0x0 0x48554631#32
        ∧ (∃ v, reads 0x4 v ∧ (v.extractLsb' 0 16).toNat = s.config.nsymMax ∧ v.extractLsb' 16 8 = 0x04#8
          ∧ v.extractLsb' 24 8 = 0x1F#8)
        ∧ (∃ v, reads 0x8 v ∧ v.getLsbD 0 = s.ctrl.ie ∧ v.extractLsb' 1 7 = 0#7 ∧ v.extractLsb' 8 3 = s.ctrl.tokw
          ∧ v.extractLsb' 11 21 = 0#21)
        ∧ reads 0xC s.statusWord ∧ reads 0x10 0#32)
      ∧ (reads 0x14 s.regs.nsym ∧ reads 0x18 s.regs.token ∧ reads 0x1C s.regs.word
        ∧ reads 0x20 (s.regs.upTzb.setWidth 32) ∧ reads 0x24 s.tree.root ∧ reads 0x28 s.tree.nnodes
        ∧ reads 0x2C s.tree.maxlen)
      ∧ (reads 0x30 s.pk.acc ∧ reads 0x34 s.pk.free ∧ reads 0x38 s.pk.out ∧ reads 0x3C s.pk.tzb ∧ reads 0x40 s.pk.tokcnt
        ∧ reads 0x44 s.pk.wcnt)
      ∧ (reads 0x48 s.up.node ∧ reads 0x4C s.up.tcount ∧ reads 0x50 s.up.wcnt ∧ reads 0x54 s.up.tokcnt)
      ∧ (∀ j < 32, ∀ x, s.mem.tbuf[j]? = some x → reads (0x1000 + 4 * j) x)
      ∧ (∀ i < s.config.nsymMax, ∀ e, s.mem.sym[i]? = some e →
          reads (0x10000 + 8 * i) e.token ∧ reads (0x10004 + 8 * i) e.count)
      ∧ (∀ i < s.config.nsymMax, ∀ e, s.mem.code[i]? = some e →
          reads (0x20000 + 16 * i) e.token ∧ reads (0x20004 + 16 * i) e.cw
            ∧ reads (0x20008 + 16 * i) (e.len.setWidth 32) ∧ reads (0x2000C + 16 * i) 0#32)
      ∧ (∀ k < 2 * s.config.nsymMax - 1, ∀ r, s.mem.node[k]? = some r →
          (∃ v, reads (0x40000 + 32 * k) v ∧ v.getLsbD 0 = r.leaf ∧ v.getLsbD 1 = r.hasPar ∧ v.getLsbD 2 = r.bit
            ∧ v.extractLsb' 3 29 = 0#29)
          ∧ reads (0x40004 + 32 * k) r.parent ∧ reads (0x40008 + 32 * k) r.c1 ∧ reads (0x4000C + 32 * k) r.c0
          ∧ reads (0x40010 + 32 * k) (r.weight.extractLsb' 0 32) ∧ reads (0x40014 + 32 * k) (r.weight.extractLsb' 32 32)
          ∧ reads (0x40018 + 32 * k) r.token ∧ reads (0x4001C + 32 * k) 0#32)

/-- R88: while BUSY = 1 the five registers ID, PARAM, CTRL, STATUS and CMD read as always; a read of any other address returns
ANY, a fresh free value (log entry 2). -/
def Obligations.ReadsWhileBusy : Prop :=
  ∀ (s : State) (off : Nat), s.seq.busy = true → off % 4 = 0 → off < 0x100000 →
    hostAct s (.read 4 off) =
      (if off = 0x0 then .next (s.deliver 0x48554631#32)
       else if off = 0x4 then .next (s.deliver (paramWord s.config))
       else if off = 0x8 then .next (s.deliver s.ctrl.toWord)
       else if off = 0xC then .next (s.deliver s.statusWord)
       else if off = 0x10 then .next (s.deliver 0#32)
       else .next { s.deliver (Config.free 32 s.draws 0) with draws := s.draws + 1 })

/-- R89: while BUSY = 1 a write of CTRL with bit 31 = 1 is the soft reset, and every other write changes nothing but
STATUS.HAZ <- 1. -/
def Obligations.WritesWhileBusyAreDropped : Prop :=
  ∀ (s : State) (off : Nat) (v : Word), s.seq.busy = true → off % 4 = 0 → off < 0x100000 →
    (off = 0x8 ∧ v.getLsbD 31 = true → hostAct s (.write 4 off v) = .next s.softReset)
      ∧ (¬ (off = 0x8 ∧ v.getLsbD 31 = true) →
        hostAct s (.write 4 off v) = .next { s with seq := { s.seq with haz := true } })

/-- The address map is one to one: a mapped word's offset is an aligned offset below 0x100000 that the map gives back, and an
offset the map does not leave reserved is its word's offset (spec/20_memory.md R82, R83). -/
def Obligations.AddressMapIsOneToOne : Prop :=
  ∀ c : Config, c.Legal →
    (∀ r : Reg, decodeOffset c r.offset = .reg r ∧ AccessOk 4 r.offset)
      ∧ (∀ j < 32, ∃ off, (Target.tbuf j).offset = some off ∧ AccessOk 4 off ∧ decodeOffset c off = .tbuf j)
      ∧ (∀ i < c.nsymMax, ∀ f, ∃ off, (Target.sym i f).offset = some off ∧ AccessOk 4 off ∧ decodeOffset c off = .sym i f)
      ∧ (∀ i < c.nsymMax, ∀ f, ∃ off, (Target.code i f).offset = some off ∧ AccessOk 4 off ∧ decodeOffset c off = .code i f)
      ∧ (∀ k < c.arenaSize, ∀ f, ∃ off, (Target.node k f).offset = some off ∧ AccessOk 4 off
          ∧ decodeOffset c off = .node k f)
      ∧ (∀ off, AccessOk 4 off → decodeOffset c off ≠ .reserved → (decodeOffset c off).offset = some off)

/-- R84: the window words past NSYM_MAX and ARENA_SIZE and the reserved ranges of the map read as zero and ignore writes. -/
def Obligations.ReservedWordsReadZeroAndIgnoreWrites : Prop :=
  ∀ (s : State) (off : Nat) (v : Word), s.config.Legal → s.seq.busy = false → off % 4 = 0 → off < 0x100000 →
    (0x58 ≤ off ∧ off < 0x1000 ∨ 0x1080 ≤ off ∧ off < 0x10000
      ∨ 0x10000 + 8 * s.config.nsymMax ≤ off ∧ off < 0x20000
      ∨ 0x20000 + 16 * s.config.nsymMax ≤ off ∧ off < 0x40000
      ∨ 0x40000 + 32 * (2 * s.config.nsymMax - 1) ≤ off) →
    hostAct s (.read 4 off) = .next (s.deliver 0#32) ∧ hostAct s (.write 4 off v) = .next s

/-- RW words store what is written, in the bits they have, and no other mapped word changes (spec/20_memory.md R81, R83): CTRL
(bit 31 = 0), NSYM, TOKEN, WORD, UP_TZB, SYM and CODE. Which field of the state each of their offsets writes. -/
def Obligations.WritableWordsReadBack : Prop :=
  (∀ (s : State) (off off' : Nat) (v : Word), StateOk s → s.seq.busy = false → AccessOk 4 off → AccessOk 4 off' →
    (off = 0x14 ∨ off = 0x18 ∨ off = 0x1C → (s.busWrite off v).readValue off = v)
      ∧ (off = 0x20 → (s.busWrite off v).readValue off = v &&& 0x000000FF#32)
      ∧ (off = 0x8 → v.getLsbD 31 = false → (s.busWrite off v).readValue off = v &&& 0x00000701#32)
      ∧ (0x10000 ≤ off → off < 0x10000 + 8 * s.config.nsymMax → (s.busWrite off v).readValue off = v)
      ∧ (0x20000 ≤ off → off < 0x20000 + 16 * s.config.nsymMax → (s.busWrite off v).readValue off =
          (if off % 16 < 8 then v else if off % 16 = 8 then v &&& 0x000000FF#32 else 0#32))
      ∧ (off' ≠ off → (0x14 ≤ off ∧ off ≤ 0x20 ∨ off = 0x8 ∧ v.getLsbD 31 = false ∨ 0x10000 ≤ off ∧ off < 0x30000) →
          (s.busWrite off v).readValue off' = s.readValue off'))
    ∧ ∀ (s : State) (v : Word), StateOk s → s.seq.busy = false →
      let writes (off : Nat) (t : State) : Prop := hostAct s (.write 4 off v) = .next t
      (v.getLsbD 31 = false → writes 0x8 { s with ctrl := { ie := v.getLsbD 0, tokw := v.extractLsb' 8 3 } })
      ∧ writes 0x14 { s with regs := { s.regs with nsym := v } }
      ∧ writes 0x18 { s with regs := { s.regs with token := v } }
      ∧ writes 0x1C { s with regs := { s.regs with word := v } }
      ∧ writes 0x20 { s with regs := { s.regs with upTzb := v.setWidth 8 } }
      ∧ (∀ i < s.config.nsymMax, ∀ e, s.mem.sym[i]? = some e →
          writes (0x10000 + 8 * i) { s with mem := { s.mem with sym := s.mem.sym.set i { e with token := v } } }
          ∧ writes (0x10004 + 8 * i) { s with mem := { s.mem with sym := s.mem.sym.set i { e with count := v } } })
      ∧ (∀ i < s.config.nsymMax, ∀ e, s.mem.code[i]? = some e →
          writes (0x20000 + 16 * i) { s with mem := { s.mem with code := s.mem.code.set i { e with token := v } } }
          ∧ writes (0x20004 + 16 * i) { s with mem := { s.mem with code := s.mem.code.set i { e with cw := v } } }
          ∧ writes (0x20008 + 16 * i)
              { s with mem := { s.mem with code := s.mem.code.set i { e with len := v.setWidth 8 } } }
          ∧ writes (0x2000C + 16 * i) s)

/-- Read-only words ignore writes (spec/20_memory.md R81): ID, PARAM, ROOT to UP_TOKCNT, TBUF, NODE. -/
def Obligations.ReadOnlyWordsIgnoreWrites : Prop :=
  ∀ (s : State) (off : Nat) (v : Word), s.seq.busy = false → AccessOk 4 off →
    (off ≤ 0x4 ∨ 0x24 ≤ off ∧ off ≤ 0x54 ∨ 0x1000 ≤ off ∧ off < 0x1080 ∨ 0x40000 ≤ off) →
    hostAct s (.write 4 off v) = .next s

/-- A write to STATUS clears DONE, ERR and HAZ where a 1 is written and nothing else (spec/10_state.md R34, spec/60_exceptions.md
R276); and the layout of STATUS: bit 0 BUSY, 1 DONE, 2 ERR, 3 HAZ, 4 TREE_VALID, 5 TREE_DEGEN, 6 PK_OUTVALID, 8 PK_ACTIVE,
[11:10] UP_STATE, [23:16] ERRCODE with the codes of spec/60_exceptions.md R270, [31:24] LASTOP, all other bits 0 (R34). -/
def Obligations.StatusWriteClearsWrittenOnes : Prop :=
  (∀ (s : State) (v : Word), s.seq.busy = false →
    hostAct s (.write 4 0xC v)
      = .next { s with seq := { s.seq with done := s.seq.done && !v.getLsbD 1, err := s.seq.err && !v.getLsbD 2,
                                           haz := s.seq.haz && !v.getLsbD 3 } })
    ∧ (∀ s : State, let w := s.statusWord
        w.getLsbD 0 = s.seq.busy ∧ w.getLsbD 1 = s.seq.done ∧ w.getLsbD 2 = s.seq.err ∧ w.getLsbD 3 = s.seq.haz
          ∧ w.getLsbD 4 = s.tree.valid ∧ w.getLsbD 5 = s.tree.degen ∧ w.getLsbD 6 = s.pk.outValid ∧ w.getLsbD 7 = false
          ∧ (w.getLsbD 8 = true ↔ s.pk.state = .active) ∧ w.getLsbD 9 = false
          ∧ (w.extractLsb' 10 2 = 0#2 ↔ s.up.state = .idle) ∧ (w.extractLsb' 10 2 = 1#2 ↔ s.up.state = .run)
          ∧ (w.extractLsb' 10 2 = 2#2 ↔ s.up.state = .done) ∧ w.extractLsb' 12 4 = 0#4
          ∧ w.extractLsb' 16 8 = s.seq.errcode.code ∧ w.extractLsb' 24 8 = s.seq.lastop)
    ∧ (ErrCode.ok.code = 0x00#8 ∧ ErrCode.noLeaves.code = 0x01#8 ∧ ErrCode.range.code = 0x02#8
      ∧ ErrCode.dupToken.code = 0x03#8 ∧ ErrCode.codeLen.code = 0x04#8 ∧ ErrCode.notReady.code = 0x05#8
      ∧ ErrCode.unknownToken.code = 0x06#8 ∧ ErrCode.fmtTable.code = 0x07#8 ∧ ErrCode.degenerate.code = 0x08#8
      ∧ ErrCode.fmtTzb.code = 0x09#8 ∧ ErrCode.fmtTrunc.code = 0x0A#8 ∧ ErrCode.fmtExtra.code = 0x0B#8
      ∧ ErrCode.seq.code = 0x0C#8 ∧ ErrCode.illegal.code = 0x0D#8)

/-- R280: irq is CTRL.IE AND STATUS.DONE; it is asserted by every completion while IE = 1, an illegal word's among them, by
setting IE while DONE = 1, until DONE or IE is cleared: a host action that does neither, and does not set IE, leaves it as it
was; and it is 0 after reset. -/
def Obligations.IrqIsEnableAndDone : Prop :=
  (∀ s : State, s.irq = (s.ctrl.ie && s.seq.done))
    ∧ (∀ s t : State, engineStep s = .next t → t.irq = s.ctrl.ie)
    ∧ (∀ (s t : State) (v : Word), s.seq.busy = false → v.getLsbD 31 = false → hostAct s (.write 4 0x8 v) = .next t →
        t.irq = (v.getLsbD 0 && s.seq.done))
    ∧ (∀ (s t : State) (v : Word), s.seq.busy = false → v.getLsbD 1 = true → hostAct s (.write 4 0xC v) = .next t →
        t.irq = false)
    ∧ (∀ (s t : State) (a : HostAct), a.resets s.config = false →
        (s.seq.busy = false → (∀ size v, a = .write size 0xC v → v.getLsbD 1 = false)
          ∧ ∀ size v, a = .write size 0x8 v → v.getLsbD 0 = s.ctrl.ie) →
        hostAct s a = .next t → t.irq = s.irq)
    ∧ State.reset.irq = false

/-! ## Reset (spec/70_reset_and_hazards.md) -/

/-- R301: a write of CTRL with bit 31 = 1 resets every register and the sequencer, abandons a pending command, makes that
command's memory outputs ANY and keeps every other memory. -/
def Obligations.SoftResetResetsRegistersAndKeepsMemories : Prop :=
  ∀ (s : State) (v : Word), v.getLsbD 31 = true → ∃ t : State, hostAct s (.write 4 0x8 v) = .next t
    ∧ t.ctrl = { ie := false, tokw := 1#3 }
    ∧ t.seq = { busy := false, pending := 0#32, done := false, err := false, haz := false, errcode := .ok, lastop := 0#8 }
    ∧ t.regs = { nsym := 0#32, token := 0#32, word := 0#32, upTzb := 0#8 }
    ∧ t.tree = { valid := false, degen := false, root := 0#32, nnodes := 0#32, maxlen := 0#32 }
    ∧ t.pk = { state := .idle, acc := 0#32, free := 32#32, out := 0#32, outValid := false, tzb := 0#32, tokcnt := 0#32,
               wcnt := 0#32 }
    ∧ t.up = { state := .idle, node := 0#32, tcount := 0#32, wcnt := 0#32, tokcnt := 0#32 }
    ∧ t.config = s.config ∧ t.mem.sym = s.mem.sym
    ∧ t.mem.node = (if s.seq.busy = true ∧ (s.seq.pending = 1#32 ∨ s.seq.pending = 6#32) then anyNode s.config s.draws
        else s.mem.node)
    ∧ t.mem.code = (if s.seq.busy = true ∧ s.seq.pending = 2#32 then anyCode s.config s.draws else s.mem.code)
    ∧ t.mem.tbuf = (if s.seq.busy = true ∧ (s.seq.pending = 0x8#32 ∨ s.seq.pending = 0x108#32) then anyTbuf s.draws
        else s.mem.tbuf)

/-- R300: rst gives every register its reset value, irq = 0, and every memory entry a fresh draw; the machine's initial state
is such a state, with the default NSYM_MAX. -/
def Obligations.PowerOnResetValues : Prop :=
  (∀ s : State, ∃ t : State, hostAct s .rst = .next t ∧ t.config = s.config
    ∧ t.ctrl.toWord = 0x00000100#32 ∧ t.statusWord = 0#32 ∧ t.seq.pending = 0#32 ∧ t.seq.busy = false
    ∧ t.regs = { nsym := 0#32, token := 0#32, word := 0#32, upTzb := 0#8 }
    ∧ t.tree = { valid := false, degen := false, root := 0#32, nnodes := 0#32, maxlen := 0#32 }
    ∧ t.pk = { state := .idle, acc := 0#32, free := 32#32, out := 0#32, outValid := false, tzb := 0#32, tokcnt := 0#32,
               wcnt := 0#32 }
    ∧ t.up = { state := .idle, node := 0#32, tcount := 0#32, wcnt := 0#32, tokcnt := 0#32 }
    ∧ t.irq = false
    ∧ t.mem = { sym := anySym s.config s.draws, code := anyCode s.config (s.draws + 1),
                node := anyNode s.config (s.draws + 2), tbuf := anyTbuf (s.draws + 3) })
    ∧ State.reset.statusWord = 0#32 ∧ State.reset.ctrl.toWord = 0x00000100#32 ∧ State.reset.config.nsymMax = 256
    ∧ State.reset.seq = { busy := false, pending := 0#32, done := false, err := false, haz := false, errcode := .ok,
                          lastop := 0#8 }
    ∧ State.reset.regs = { nsym := 0#32, token := 0#32, word := 0#32, upTzb := 0#8 }
    ∧ State.reset.tree = { valid := false, degen := false, root := 0#32, nnodes := 0#32, maxlen := 0#32 }
    ∧ State.reset.pk = { state := .idle, acc := 0#32, free := 32#32, out := 0#32, outValid := false, tzb := 0#32,
                         tokcnt := 0#32, wcnt := 0#32 }
    ∧ State.reset.up = { state := .idle, node := 0#32, tcount := 0#32, wcnt := 0#32, tokcnt := 0#32 }
    ∧ State.reset.mem = Memory.powerOn State.reset.config 0

/-! ## The tree builder (spec/41_tree_builder.md) -/

/-- R166, with BUILD's check order: every BUILD error clears TREE_VALID, sets UP_STATE to IDLE, makes NODE ANY, keeps ROOT, NNODES
and TREE_DEGEN, and changes nothing else but the completion fields. -/
def Obligations.BuildErrorsDropTheTree : Prop :=
  ∀ s : State, StateOk s →
    let fails (e : ErrCode) : Prop := exec .build s = .next
      (State.complete { s with tree := { s.tree with valid := false }, up := { s.up with state := .idle },
                               mem := { s.mem with node := anyNode s.config s.draws }, draws := s.draws + 1 } e)
    (¬ WidthOk s.tokenWidth → fails .range)
      ∧ (WidthOk s.tokenWidth → s.count = 0 → fails .noLeaves)
      ∧ (WidthOk s.tokenWidth → s.config.nsymMax < s.count → fails .range)
      ∧ (WidthOk s.tokenWidth → 0 < s.count → s.count ≤ s.config.nsymMax →
          ¬ DistinctTokens s.tokenWidth ((s.mem.sym.take s.count).map SymEntry.token) → fails .dupToken)

/-- R165: BUILD of one leaf makes it the root; no merge executes. -/
def Obligations.BuildOfOneLeafIsDegenerate : Prop :=
  ∀ (s : State) (e : SymEntry), StateOk s → WidthOk s.tokenWidth → s.count = 1 → s.mem.sym[0]? = some e →
    ∃ node : List NodeRec, exec .build s = .next (State.complete
        { s with mem := { s.mem with node := node },
                 tree := { s.tree with valid := true, degen := true, root := 0#32, nnodes := 1#32 },
                 up := { s.up with state := .idle } } .ok)
      ∧ node.length = s.mem.node.length
      ∧ nodeAt node 0 = { leaf := true, hasPar := false, bit := false, parent := 0#32, c1 := 0#32, c0 := 0#32,
                          weight := e.count.setWidth 64, token := e.token &&& mask (8 * s.tokenWidth) }
      ∧ ∀ k, 1 ≤ k → nodeAt node k = nodeAt s.mem.node k

/-- BUILD of N >= 2 distinct tokens completes with E_OK: leaves 0..N-1 carry SYM's tokens and counts, records N..2N-2 are internal
with their children's weights summed, ROOT = 2N - 2, NNODES = 2N - 1, and nothing else changes (spec/41_tree_builder.md
R161, R162, R164). -/
def Obligations.BuildCompletes : Prop :=
  ∀ s : State, StateOk s → WidthOk s.tokenWidth → 2 ≤ s.count → s.count ≤ s.config.nsymMax →
    DistinctTokens s.tokenWidth ((s.mem.sym.take s.count).map SymEntry.token) →
    ∃ node : List NodeRec, exec .build s = .next (State.complete
        { s with mem := { s.mem with node := node },
                 tree := { s.tree with valid := true, degen := false, root := BitVec.ofNat 32 (2 * s.count - 2),
                                       nnodes := BitVec.ofNat 32 (2 * s.count - 1) },
                 up := { s.up with state := .idle } } .ok)
      ∧ node.length = s.mem.node.length
      ∧ (∀ i < s.count, ∀ e, s.mem.sym[i]? = some e → (nodeAt node i).leaf = true ∧ (nodeAt node i).c1 = 0#32
          ∧ (nodeAt node i).c0 = 0#32 ∧ (nodeAt node i).weight = e.count.setWidth 64
          ∧ (nodeAt node i).token = e.token &&& mask (8 * s.tokenWidth))
      ∧ (∀ k, s.count ≤ k → k < 2 * s.count - 1 → (nodeAt node k).leaf = false ∧ (nodeAt node k).token = 0#32
          ∧ (nodeAt node k).weight
            = (nodeAt node (childOf node k true)).weight + (nodeAt node (childOf node k false)).weight)
      ∧ (∀ k, 2 * s.count - 1 ≤ k → nodeAt node k = nodeAt s.mem.node k)

/-- A successful BUILD with N >= 2 leaves a full binary tree whose parents have higher indices than their children
(spec/41_tree_builder.md R167 (c), (e); spec/10_state.md R53). -/
def Obligations.BuildMakesAFullBinaryTree : Prop :=
  ∀ s t : State, StateOk s → 2 ≤ s.count → exec .build s = .next t → t.seq.errcode = .ok →
    TreeOk t ∧ t.leaves = s.count
      ∧ ∀ k < t.tree.nnodes.toNat, k ≠ t.tree.root.toNat → k < parentOf t.mem.node k

/-- The root's weight is the sum of the counts, with no wrap (spec/41_tree_builder.md R167 (b), spec/00_scope.md R16). -/
def Obligations.BuildRootWeighsAllCounts : Prop :=
  ∀ s t : State, StateOk s → 1 ≤ s.count → exec .build s = .next t → t.seq.errcode = .ok →
    (nodeAt t.mem.node t.tree.root.toNat).weight.toNat
      = ((s.mem.sym.take s.count).map (fun e => e.count.toNat)).sum

/-- When SYM is sorted by count, the weights of the internal records are non-decreasing (spec/41_tree_builder.md R167 (a)). -/
def Obligations.BuildInternalWeightsNeverDecrease : Prop :=
  ∀ s t : State, StateOk s → 2 ≤ s.count → SortedByCount (s.mem.sym.take s.count) → exec .build s = .next t →
    t.seq.errcode = .ok → ∀ k, s.count ≤ k → k + 1 < 2 * s.count - 1 →
      (nodeAt t.mem.node k).weight.toNat ≤ (nodeAt t.mem.node (k + 1)).weight.toNat

/-- pop takes the front of the leaves queue when there is one that is not heavier than the internals' front, else the front of
the internals queue (spec/41_tree_builder.md R163). One merge, of queues that hold at least two records: it pops twice; the
record `next` becomes internal, with the first-popped record as C1, the second-popped as C0 and their weights' sum; the first
is linked to it with branch bit 1, the second with branch bit 0; no other record changes (R164). -/
def Obligations.PopPrefersTheLeafOnEqualWeights : Prop :=
  ∀ (n : Nat) (q : MergeState),
    (q.lh < n ∧ (q.ih = q.next ∨ (nodeAt q.arena q.lh).weight ≤ (nodeAt q.arena q.ih).weight) →
      popIndex n q = q.lh ∧ popRest n q = { q with lh := q.lh + 1 })
      ∧ (¬ (q.lh < n ∧ (q.ih = q.next ∨ (nodeAt q.arena q.lh).weight ≤ (nodeAt q.arena q.ih).weight)) →
        popIndex n q = q.ih ∧ popRest n q = { q with ih := q.ih + 1 })
      ∧ (q.lh ≤ n → n ≤ q.ih → q.ih ≤ q.next → 2 ≤ (n - q.lh) + (q.next - q.ih) → q.next < q.arena.length →
        let a := popIndex n q
        let b := popIndex n (popRest n q)
        let rest := popRest n (popRest n q)
        ∃ arena : List NodeRec, mergeStep n q = { arena := arena, lh := rest.lh, ih := rest.ih, next := q.next + 1 }
          ∧ arena.length = q.arena.length ∧ a ≠ b ∧ a < q.next ∧ b < q.next
          ∧ nodeAt arena q.next = { leaf := false, hasPar := false, bit := false, parent := 0#32, c1 := BitVec.ofNat 32 a,
                                    c0 := BitVec.ofNat 32 b,
                                    weight := (nodeAt q.arena a).weight + (nodeAt q.arena b).weight, token := 0#32 }
          ∧ nodeAt arena a = { nodeAt q.arena a with hasPar := true, parent := BitVec.ofNat 32 q.next, bit := true }
          ∧ nodeAt arena b = { nodeAt q.arena b with hasPar := true, parent := BitVec.ofNat 32 q.next, bit := false }
          ∧ ∀ k, k ≠ q.next → k ≠ a → k ≠ b → nodeAt arena k = nodeAt q.arena k)

/-! ## The codeword table deriver (spec/42_code_deriver.md) -/

/-- DERIVE fails with E_NOTREADY without a valid tree, and with E_CODELEN when some leaf has more than 31 ancestors; CODE, MAXLEN
and everything but the completion fields are then unchanged (spec/42_code_deriver.md R180, R182). -/
def Obligations.DeriveErrorsChangeNothing : Prop :=
  ∀ s : State,
    (s.tree.valid = false → exec .derive s = .next (s.complete .notReady))
      ∧ (s.tree.valid = true →
          (∃ i < s.leaves, ∀ j ≤ 31, (nodeAt s.mem.node ((parentOf s.mem.node)^[j] i)).hasPar = true) →
          exec .derive s = .next (s.complete .codeLen))

/-- DERIVE with every leaf at depth at most 31 completes with E_OK: entry i has leaf i's token, its depth d as LEN, and as CW the
branch bits of the climb from the leaf, least significant first, zero above; MAXLEN is the largest LEN; the entries from N
on and all other state are unchanged (spec/42_code_deriver.md R180, R181). -/
def Obligations.DeriveCompletes : Prop :=
  ∀ s : State, StateOk s → s.tree.valid = true → TreeOk s →
    (∀ i < s.leaves, ∃ d ≤ 31, (nodeAt s.mem.node ((parentOf s.mem.node)^[d] i)).hasPar = false) →
    ∃ (code : List CodeEntry) (m : Word), exec .derive s = .next (State.complete
        { s with mem := { s.mem with code := code }, tree := { s.tree with maxlen := m } } .ok)
      ∧ code.length = s.mem.code.length
      ∧ (∀ i < s.leaves, ∃ d ≤ 31, (nodeAt s.mem.node ((parentOf s.mem.node)^[d] i)).hasPar = false
          ∧ (∀ j < d, (nodeAt s.mem.node ((parentOf s.mem.node)^[j] i)).hasPar = true)
          ∧ (codeAt code i).token = (nodeAt s.mem.node i).token ∧ (codeAt code i).length = d ∧ d ≤ m.toNat
          ∧ ∀ j < 32, (codeAt code i).cw.getLsbD j
              = (decide (j < d) && (nodeAt s.mem.node ((parentOf s.mem.node)^[j] i)).bit))
      ∧ (∃ i < s.leaves, (codeAt code i).length = m.toNat)
      ∧ (∀ i, s.leaves ≤ i → codeAt code i = codeAt s.mem.code i)

/-- R183: on a degenerate tree DERIVE writes the one entry of codeword 0 and length 0, and MAXLEN = 0. -/
def Obligations.DegenerateTreeGetsTheEmptyCode : Prop :=
  ∀ s : State, StateOk s → s.tree.valid = true → TreeOk s → s.tree.degen = true →
    let entry : CodeEntry := { token := (nodeAt s.mem.node 0).token, cw := 0#32, len := 0#8 }
    exec .derive s = .next (State.complete
      { s with mem := { s.mem with code := s.mem.code.set 0 entry },
               tree := { s.tree with maxlen := 0#32 } } .ok)

/-- R184: the codeword DERIVE writes for leaf i is the branch bits from the root down to it: following them from ROOT leads to
leaf i, through internal records only, and CW has no bit above LEN. -/
def Obligations.DerivedCodesAreRootPaths : Prop :=
  ∀ s t : State, StateOk s → s.tree.valid = true → TreeOk s → exec .derive s = .next t → t.seq.errcode = .ok →
    ∀ i < s.leaves, follow s.mem.node s.tree.root.toNat (codeAt t.mem.code i).bits = i
      ∧ (∀ j < (codeAt t.mem.code i).length,
          (nodeAt s.mem.node (follow s.mem.node s.tree.root.toNat ((codeAt t.mem.code i).bits.take j))).leaf = false)
      ∧ (codeAt t.mem.code i).cw.toNat < 2 ^ (codeAt t.mem.code i).length

/-- R185: after a successful DERIVE no entry's codeword is a prefix of another entry's, and with N >= 2 every length is at least
1. -/
def Obligations.DerivedTableIsPrefixFree : Prop :=
  ∀ s t : State, StateOk s → s.tree.valid = true → TreeOk s → exec .derive s = .next t → t.seq.errcode = .ok →
    PrefixFree t.mem.code s.leaves ∧ (2 ≤ s.leaves → ∀ i < s.leaves, 1 ≤ (codeAt t.mem.code i).length)

/-! ## The bit-stream packer (spec/43_bit_packer.md) -/

/-- R195: PACK_BEGIN opens a stream from any state and touches only the packer and the completion fields. -/
def Obligations.PackBeginOpensAStream : Prop :=
  ∀ s : State, exec .packBegin s = .next (State.complete
    { s with pk := { state := .active, acc := 0#32, free := 32#32, out := 0#32, outValid := false, tzb := 0#32,
                     tokcnt := 0#32, wcnt := 0#32 } } .ok)

/-- PACK_TOKEN appends the codeword of the lowest matching entry: it is shifted in when it fits, else its top PK_FREE bits fill
and flush the word and the rest starts the next (spec/43_bit_packer.md R196, R198, R199). -/
def Obligations.PackTokenAppendsTheCodeword : Prop :=
  ∀ (s : State) (i : Nat), s.config.Legal → s.mem.wf s.config → s.pk.state = .active → WidthOk s.tokenWidth →
    s.count ≤ s.config.nsymMax → FoundAt s i → (codeAt s.mem.code i).length ≤ 31 →
    let n := (codeAt s.mem.code i).length
    let v := (codeAt s.mem.code i).cw &&& mask n
    let r := s.pk.free.toNat
    exec .packToken s = .next (State.complete
      { s with pk :=
        if n ≤ r then
          { s.pk with acc := (s.pk.acc <<< n) ||| v, free := s.pk.free - BitVec.ofNat 32 n, outValid := false,
                      tokcnt := s.pk.tokcnt + 1#32 }
        else
          { s.pk with out := (s.pk.acc <<< r) ||| (v >>> (n - r)), outValid := true, acc := v &&& mask (n - r),
                      free := 32#32 - BitVec.ofNat 32 (n - r), wcnt := s.pk.wcnt + 1#32,
                      tokcnt := s.pk.tokcnt + 1#32 } } .ok)

/-- PACK_TOKEN's errors in check order; each leaves everything but the completion fields unchanged (spec/43_bit_packer.md
R196). -/
def Obligations.PackTokenErrorsChangeNothing : Prop :=
  ∀ s : State, s.mem.wf s.config →
    (s.pk.state = .idle → exec .packToken s = .next (s.complete .seq))
      ∧ (s.pk.state = .active → ¬ WidthOk s.tokenWidth ∨ s.config.nsymMax < s.count →
          exec .packToken s = .next (s.complete .range))
      ∧ (s.pk.state = .active → WidthOk s.tokenWidth → s.count ≤ s.config.nsymMax →
          (∀ i < s.count, tokMask s.tokenWidth (codeAt s.mem.code i).token ≠ tokMask s.tokenWidth s.regs.token) →
          exec .packToken s = .next (s.complete .unknownToken))
      ∧ (∀ i, s.pk.state = .active → WidthOk s.tokenWidth → s.count ≤ s.config.nsymMax → FoundAt s i →
          31 < (codeAt s.mem.code i).length → exec .packToken s = .next (s.complete .fmtTable))

/-- PACK_END: E_SEQ outside a stream; with PK_FREE = 32 no word is flushed and PK_TZB = 0; else the last word is flushed
left-shifted and PK_TZB = PK_FREE; the stream is closed, PK_TOKCNT kept (spec/43_bit_packer.md R197, R200). -/
def Obligations.PackEndFlushesAndCloses : Prop :=
  ∀ s : State,
    (s.pk.state = .idle → exec .packEnd s = .next (s.complete .seq))
      ∧ (s.pk.state = .active → s.pk.free = 32#32 → exec .packEnd s = .next (State.complete
          { s with pk := { s.pk with outValid := false, tzb := 0#32, acc := 0#32, free := 32#32, state := .idle } } .ok))
      ∧ (s.pk.state = .active → s.pk.free ≠ 32#32 → exec .packEnd s = .next (State.complete
          { s with pk := { s.pk with out := s.pk.acc <<< s.pk.free.toNat, outValid := true, wcnt := s.pk.wcnt + 1#32,
                                     tzb := s.pk.free, acc := 0#32, free := 32#32, state := .idle } } .ok))

/-- The stream holds the codewords: for entries of length at most 31 packed from a fresh stream, B their bits in order and T
their number, the flushed words and the accumulator hold B; PK_WCNT and PK_FREE are what T says; after PACK_END the words
hold B followed by PK_TZB zero bits, PK_TZB is in 0..31 and PK_WCNT is the number of words (spec/43_bit_packer.md R202 (a)
to (c), R200). -/
def Obligations.StreamHoldsTheCodewordBits : Prop :=
  ∀ es : List CodeEntry, (∀ e ∈ es, e.length ≤ 31) →
    let B := es.flatMap CodeEntry.bits
    let T := B.length
    let p := (packAll .opened es).1
    wordsBits (packAll .opened es).2 ++ msbBits p.acc (32 - p.free.toNat) = B
      ∧ (T = 0 → p.wcnt = 0#32 ∧ p.free = 32#32)
      ∧ (1 ≤ T → p.wcnt = BitVec.ofNat 32 ((T - 1) / 32) ∧ p.free.toNat = 32 * ((T - 1) / 32 + 1) - T)
      ∧ wordsBits (streamWords es) = B ++ List.replicate p.closed.tzb.toNat false
      ∧ p.closed.tzb.toNat = 32 * ((T + 31) / 32) - T
      ∧ p.closed.wcnt = BitVec.ofNat 32 ((T + 31) / 32)
      ∧ (streamWords es).length = (T + 31) / 32
      ∧ p.tokcnt = BitVec.ofNat 32 es.length

/-! ## The decode-tree reconstructor (spec/44_decode_tree.md) -/

/-- R222: every REBUILD error clears TREE_VALID, sets UP_STATE to IDLE, makes NODE ANY, keeps ROOT, NNODES and TREE_DEGEN, and
changes nothing else but the completion fields; with the codes of REBUILD's first four checks, in order. -/
def Obligations.RebuildErrorsDropTheTree : Prop :=
  ∀ s : State, s.mem.wf s.config →
    let fails (e : ErrCode) : Prop := exec .rebuild s = .next
      (State.complete { s with tree := { s.tree with valid := false }, up := { s.up with state := .idle },
                               mem := { s.mem with node := anyNode s.config s.draws }, draws := s.draws + 1 } e)
    (¬ WidthOk s.tokenWidth → fails .range)
      ∧ (WidthOk s.tokenWidth → s.count = 0 → fails .fmtTable)
      ∧ (WidthOk s.tokenWidth → s.config.nsymMax < s.count → fails .range)
      ∧ (WidthOk s.tokenWidth → 0 < s.count → s.count ≤ s.config.nsymMax →
          (∃ i < s.count, 31 < (codeAt s.mem.code i).length) → fails .fmtTable)
      ∧ (∀ t : State, exec .rebuild s = .next t → t.seq.errcode ≠ .ok → fails t.seq.errcode)

/-- R219: REBUILD of a single entry, of any length from 0 to 31 and any CW, makes its leaf the root. -/
def Obligations.RebuildOfOneEntryIsDegenerate : Prop :=
  ∀ s : State, StateOk s → WidthOk s.tokenWidth → s.count = 1 → (codeAt s.mem.code 0).length ≤ 31 →
    let leaf : NodeRec :=
      { leaf := true, hasPar := false, bit := false, parent := 0#32, c1 := 0#32, c0 := 0#32, weight := 0#64,
        token := (codeAt s.mem.code 0).token &&& mask (8 * s.tokenWidth) }
    exec .rebuild s = .next (State.complete
      { s with mem := { s.mem with node := s.mem.node.set 0 leaf },
               tree := { s.tree with valid := true, degen := true, root := 0#32, nnodes := 1#32 },
               up := { s.up with state := .idle } } .ok)

/-- REBUILD of N >= 2 entries completes with E_OK exactly on the complete prefix codes, with ROOT = N and NNODES = 2N - 1; on any
other table with every LEN <= 31 it fails with E_FMT_TABLE (spec/44_decode_tree.md R221 (c), R218). -/
def Obligations.RebuildAcceptsExactlyCompletePrefixCodes : Prop :=
  ∀ s : State, StateOk s → WidthOk s.tokenWidth → 2 ≤ s.count → s.count ≤ s.config.nsymMax →
    (CompletePrefixCode s.mem.code s.count → ∃ node : List NodeRec, exec .rebuild s = .next (State.complete
        { s with mem := { s.mem with node := node },
                 tree := { s.tree with valid := true, degen := false, root := BitVec.ofNat 32 s.count,
                                       nnodes := BitVec.ofNat 32 (2 * s.count - 1) },
                 up := { s.up with state := .idle } } .ok)
        ∧ node.length = s.mem.node.length
        ∧ ∀ k, 2 * s.count - 1 ≤ k → nodeAt node k = nodeAt s.mem.node k)
      ∧ (¬ CompletePrefixCode s.mem.code s.count → exec .rebuild s = .next (State.complete
          { s with tree := { s.tree with valid := false }, up := { s.up with state := .idle },
                   mem := { s.mem with node := anyNode s.config s.draws }, draws := s.draws + 1 } .fmtTable))

/-- The tree of a successful REBUILD with N >= 2 is the binary trie of the codewords: it is full, leaf i carries entry i's token
and weight 0, and entry i's codeword leads from ROOT to leaf i through internal records only (spec/44_decode_tree.md R216,
R221 (a), (b)). -/
def Obligations.RebuiltTreeIsTheTrieOfTheCodes : Prop :=
  ∀ s t : State, StateOk s → 2 ≤ s.count → exec .rebuild s = .next t → t.seq.errcode = .ok →
    TreeOk t ∧ t.leaves = s.count
      ∧ ∀ i < s.count, (nodeAt t.mem.node i).token = (codeAt s.mem.code i).token &&& mask (8 * s.tokenWidth)
        ∧ (nodeAt t.mem.node i).weight = 0#64
        ∧ follow t.mem.node t.tree.root.toNat (codeAt s.mem.code i).bits = i
        ∧ ∀ j < (codeAt s.mem.code i).length,
            (nodeAt t.mem.node (follow t.mem.node t.tree.root.toNat ((codeAt s.mem.code i).bits.take j))).leaf = false

/-- R186: DERIVE after a successful REBUILD from a table with no bit above LEN gives the same table again: tokens in their low
8L bits, codewords and lengths. -/
def Obligations.DeriveAfterRebuildRestoresTheTable : Prop :=
  ∀ s t : State, StateOk s → 2 ≤ s.count → (∀ i < s.count, (codeAt s.mem.code i).cw = (codeAt s.mem.code i).codeword) →
    exec .rebuild s = .next t → t.seq.errcode = .ok →
    ∃ u : State, exec .derive t = .next u ∧ u.seq.errcode = .ok
      ∧ ∀ i < s.count, codeAt u.mem.code i
          = { codeAt s.mem.code i with token := (codeAt s.mem.code i).token &&& mask (8 * s.tokenWidth) }

/-! ## The bit-stream unpacker (spec/45_bit_unpacker.md) -/

/-- UNPACK_BEGIN: E_NOTREADY without a valid tree, E_DEGENERATE on a single leaf, both changing nothing else; else a stream is
open at ROOT with the counters 0 (spec/45_bit_unpacker.md R232). -/
def Obligations.UnpackBeginOpensAStream : Prop :=
  ∀ s : State,
    (s.tree.valid = false → exec .unpackBegin s = .next (s.complete .notReady))
      ∧ (s.tree.valid = true → s.tree.degen = true → exec .unpackBegin s = .next (s.complete .degenerate))
      ∧ (s.tree.valid = true → s.tree.degen = false → exec .unpackBegin s = .next (State.complete
          { s with up := { state := .run, node := s.tree.root, tcount := 0#32, wcnt := 0#32, tokcnt := 0#32 } } .ok))

/-- R231: the descend step. -/
def Obligations.DescendEmitsAtLeaves : Prop :=
  ∀ (node : List NodeRec) (root : Word) (w : Walk) (b : Bool),
    let n := if b = true then (nodeAt node w.node.toNat).c1 else (nodeAt node w.node.toNat).c0
    ((nodeAt node n.toNat).leaf = true →
      descend node root w b = { node := root, tokens := w.tokens ++ [(nodeAt node n.toNat).token] })
      ∧ ((nodeAt node n.toNat).leaf = false → descend node root w b = { node := n, tokens := w.tokens })

/-- UNPACK_WORD in state RUN: it walks the bits 31 down to 0 of WORD (31 down to UP_TZB for the final word) from UP_NODE, puts the
tokens in TBUF[0..t-1] and keeps the others, and updates UP_NODE, UP_TCOUNT and the counters; the final word ends the stream
in DONE at the root and with E_FMT_TRUNC, the outputs kept, elsewhere (spec/45_bit_unpacker.md R230, R233, R235). -/
def Obligations.UnpackWordDecodesTheWord : Prop :=
  ∀ (s : State) (last : Bool), s.mem.wf s.config → s.up.state = .run → (last = true → s.regs.upTzb.toNat ≤ 31) →
    let stop := if last = true then s.regs.upTzb.toNat else 0
    let bits := (List.range (32 - stop)).map (fun j => s.regs.word.getLsbD (31 - j))
    let w := bits.foldl (descend s.mem.node s.tree.root) { node := s.up.node, tokens := [] }
    ∃ tbuf : List Word, exec (.unpackWord last) s = .next (State.complete
        { s with mem := { s.mem with tbuf := tbuf },
                 up := { s.up with
                   state := if last = false then .run else if w.node = s.tree.root then .done else .idle,
                   node := w.node, tcount := BitVec.ofNat 32 w.tokens.length, wcnt := s.up.wcnt + 1#32,
                   tokcnt := s.up.tokcnt + BitVec.ofNat 32 w.tokens.length } }
        (if last = false ∨ w.node = s.tree.root then .ok else .fmtTrunc))
      ∧ w.tokens.length ≤ 32 - stop
      ∧ tbuf.length = s.mem.tbuf.length
      ∧ (∀ j < w.tokens.length, tbuf[j]? = w.tokens[j]?)
      ∧ (∀ j, w.tokens.length ≤ j → tbuf[j]? = s.mem.tbuf[j]?)

/-- UNPACK_WORD's errors before the loop, in check order: E_SEQ changes nothing; E_FMT_EXTRA and E_FMT_TZB end the stream and change
nothing else (spec/45_bit_unpacker.md R233). -/
def Obligations.UnpackWordErrorsBeforeTheLoop : Prop :=
  ∀ (s : State) (last : Bool),
    (s.up.state = .idle → exec (.unpackWord last) s = .next (s.complete .seq))
      ∧ (s.up.state = .done → exec (.unpackWord last) s
          = .next (State.complete { s with up := { s.up with state := .idle } } .fmtExtra))
      ∧ (s.up.state = .run → last = true → 31 < s.regs.upTzb.toNat → exec (.unpackWord last) s
          = .next (State.complete { s with up := { s.up with state := .idle } } .fmtTzb))

/-- R234: UNPACK_END in every state of the stream; it sets UP_STATE to IDLE, and the counters and TBUF are unchanged. -/
def Obligations.UnpackEndClosesTheStream : Prop :=
  ∀ s : State,
    let ends (e : ErrCode) : Prop :=
      exec .unpackEnd s = .next (State.complete { s with up := { s.up with state := .idle } } e)
    (s.up.state = .idle → exec .unpackEnd s = .next (s.complete .seq))
      ∧ (s.up.state = .done → ends .ok)
      ∧ (s.up.state = .run → s.up.wcnt ≠ 0#32 → ends .fmtTrunc)
      ∧ (s.up.state = .run → s.up.wcnt = 0#32 → s.regs.upTzb ≠ 0#8 → ends .fmtTzb)
      ∧ (s.up.state = .run → s.up.wcnt = 0#32 → s.regs.upTzb = 0#8 → ends .ok)

/-- The padding of the final word is never read: two values of WORD that agree in the bits at or above UP_TZB give the same
outcome but for WORD itself (spec/45_bit_unpacker.md R237). -/
def Obligations.PaddingBitsAreNeverRead : Prop :=
  ∀ (s : State) (v v' : Word),
    (∀ j, s.regs.upTzb.toNat ≤ j → j < 32 → v.getLsbD j = v'.getLsbD j) →
    ∃ t : State,
      exec (.unpackWord true) { s with regs := { s.regs with word := v } }
          = .next { t with regs := { t.regs with word := v } }
        ∧ exec (.unpackWord true) { s with regs := { s.regs with word := v' } }
          = .next { t with regs := { t.regs with word := v' } }

/-- A word with LAST = 0 never reads UP_TZB (spec/45_bit_unpacker.md R233, spec/70_reset_and_hazards.md R307). -/
def Obligations.MiddleWordsIgnoreTheTrailingBitCount : Prop :=
  ∀ (s : State) (z : Byte), ∃ t : State, exec (.unpackWord false) s = .next t
    ∧ exec (.unpackWord false) { s with regs := { s.regs with upTzb := z } }
      = .next { t with regs := { t.regs with upTzb := z } }

/-- The round trip (spec/45_bit_unpacker.md R239): on a valid tree with N >= 2 leaves, its derived table in CODE and NSYM = N, m >= 1
tokens of the table pack, and the words unpack with UP_TZB = PK_TZB to those tokens, each masked to 8L bits; UP_TOKCNT = m, and
UNPACK_END succeeds. The host's two loops are packStream and unpackStream (spec/46_host_codec.md R252, R256). -/
def Obligations.UnpackRestoresThePackedTokens : Prop :=
  ∀ (s : State) (xs : List Word), StateOk s → TreeInv s → s.seq.busy = false → s.tree.valid = true →
    s.tree.degen = false → WidthOk s.tokenWidth → s.count = s.leaves →
    (∀ i < s.leaves, (codeOf s.mem.node i).len ≤ 31 ∧ codeAt s.mem.code i = derivedEntry s.mem.node i
      ∧ tokMask s.tokenWidth (codeAt s.mem.code i).token = (codeAt s.mem.code i).token) →
    xs ≠ [] →
    (∀ x ∈ xs, ∃ i < s.leaves, tokMask s.tokenWidth (codeAt s.mem.code i).token = tokMask s.tokenWidth x) →
    ∃ (t u : State) (words : List Word), packStream xs s = .ok (t, words)
      ∧ unpackStream words (hostSet (.reg .upTzb) t.pk.tzb t)
        = { state := u, sink := xs.map (tokMask s.tokenWidth), error := none }
      ∧ u.up.tokcnt = BitVec.ofNat 32 xs.length ∧ u.up.state = .idle ∧ u.seq.errcode = .ok

/-! ## Invariants and whole-machine rules -/

/-- Every step keeps the invariant of registers and memories: sizes, the packer's accumulator (spec/43_bit_packer.md R201), the
ranges of PK_TZB and UP_TCOUNT, and no open stream without a tree. -/
def Obligations.StepKeepsRegistersAndMemoriesInRange : Prop :=
  ∀ s t : State, StateOk s → step s = .next t → StateOk t

/-- Both invariants hold at reset. -/
def Obligations.ResetMeetsTheInvariants : Prop := StateOk State.reset ∧ TreeInv State.reset

/-- Every step keeps the tree's invariant: whenever TREE_VALID = 1, NODE holds a full binary tree under ROOT, and an open walk
stands at an internal record of it (spec/10_state.md R53, spec/45_bit_unpacker.md R231). -/
def Obligations.StepKeepsTheTreeValid : Prop :=
  ∀ s t : State, StateOk s → TreeInv s → step s = .next t → TreeInv t

/-- What each command writes, beside the completion fields (spec/20_memory.md R94): no command writes the configuration, CTRL, the
operand registers or SYM; only BUILD and REBUILD write NODE, ROOT, NNODES, TREE_VALID and TREE_DEGEN, and of the unpacker only
UP_STATE; only DERIVE writes CODE and MAXLEN; only the PACK commands write the packer; only UNPACK_WORD writes TBUF. -/
def Obligations.CommandsWriteOnlyTheirState : Prop :=
  ∀ (i : Instr) (s t : State), exec i s = .next t →
    (t.config = s.config ∧ t.ctrl = s.ctrl ∧ t.regs = s.regs ∧ t.mem.sym = s.mem.sym ∧ t.host = s.host
      ∧ t.seq.pending = s.seq.pending ∧ t.seq.haz = s.seq.haz)
    ∧ (i ≠ .build → i ≠ .rebuild → t.mem.node = s.mem.node ∧ t.tree.root = s.tree.root ∧ t.tree.nnodes = s.tree.nnodes
        ∧ t.tree.valid = s.tree.valid ∧ t.tree.degen = s.tree.degen ∧ t.draws = s.draws)
    ∧ (i = .build ∨ i = .rebuild → t.up = { s.up with state := .idle })
    ∧ (i ≠ .derive → t.mem.code = s.mem.code ∧ t.tree.maxlen = s.tree.maxlen)
    ∧ (i ≠ .packBegin → i ≠ .packToken → i ≠ .packEnd → t.pk = s.pk)
    ∧ (i = .packToken → t.pk.state = s.pk.state ∧ t.pk.tzb = s.pk.tzb)
    ∧ (i = .packEnd → t.pk.tokcnt = s.pk.tokcnt)
    ∧ ((∀ last, i ≠ .unpackWord last) → t.mem.tbuf = s.mem.tbuf)
    ∧ (i = .nop ∨ i = .derive ∨ i = .packBegin ∨ i = .packToken ∨ i = .packEnd → t.up = s.up)
    ∧ (i = .unpackEnd → t.up = { s.up with state := t.up.state })

/-- No command reads DONE, ERR or HAZ (spec/10_state.md R52): with other values of the three, a command ends in the same state but
for ERR and HAZ, which keep their own history. -/
def Obligations.StickyFlagsAreNeverRead : Prop :=
  ∀ (i : Instr) (s t : State) (d e h : Bool), exec i s = .next t →
    exec i { s with seq := { s.seq with done := d, err := e, haz := h } }
      = .next { t with seq := { t.seq with err := e || (t.seq.errcode != .ok), haz := h } }

/-- Who writes the flags (spec/10_state.md R52): TREE_VALID and TREE_DEGEN change only by BUILD, REBUILD or a reset; PK_OUTVALID
only by a PACK command or a reset; HAZ is set only by a write while a command is pending. -/
def Obligations.FlagsHaveOnlyTheirWriters : Prop :=
  ∀ s t : State, step s = .next t →
    let resetNow := ∃ a rest, s.host.script = a :: rest ∧ a.resets s.config = true
    let completes (i : Instr) := s.seq.busy = true ∧ decode s.seq.pending = .ok i
    (t.tree.valid ≠ s.tree.valid ∨ t.tree.degen ≠ s.tree.degen → completes .build ∨ completes .rebuild ∨ resetNow)
      ∧ (t.pk.outValid ≠ s.pk.outValid → completes .packBegin ∨ completes .packToken ∨ completes .packEnd ∨ resetNow)
      ∧ (s.seq.haz = false → t.seq.haz = true → s.seq.busy = true
          ∧ ∃ addr v rest, s.host.script = .write 4 addr v :: rest)

/-- A container reads back: what the host writes for a table of tokens of width L passes the checks of a decode and gives the
table, the trailing bit count and the payload again (spec/30_encoding.md R117, R118, spec/46_host_codec.md R255). -/
def Obligations.ContainerReadsBack : Prop :=
  ∀ (magic : Word) (nsymMax : Nat) (c : Container), WidthOk c.width → 1 ≤ c.table.length → c.table.length ≤ nsymMax →
    nsymMax ≤ 4096 → (∀ e ∈ c.table, tokMask c.width e.token = e.token) →
    parseContainer magic nsymMax (containerBytes magic c) = .ok c

/-- The host's frequency table (spec/46_host_codec.md R251): every token of the source once, with the number of its occurrences,
ascending by count, equal counts in first-seen order. -/
def Obligations.FrequencyTableIsSortedAndStable : Prop :=
  ∀ ts : List Word,
    (freqTable ts).Pairwise (fun a b => a.count ≤ b.count)
      ∧ ((freqTable ts).map Freq.token).Nodup
      ∧ (∀ f ∈ freqTable ts, f.count = ts.count f.token ∧ f.token ∈ ts)
      ∧ (∀ t ∈ ts, ∃ f ∈ freqTable ts, f.token = t)
      ∧ (freqTable ts).Pairwise (fun a b => a.count = b.count → ts.idxOf a.token < ts.idxOf b.token)
end

