-- ==== Sys2Proof/Laws/State.lean ====
section
/-! SUPPORT. One lemma per field per update of State, true by rfl: later proofs never unfold a record update. -/

namespace Sys2Proof.Machine

section

variable (s : State)

/-! ### State.issue (R140 issue) -/

@[simp] theorem State.issue_config (w : Word) : (s.issue w).config = s.config := rfl
@[simp] theorem State.issue_ctrl (w : Word) : (s.issue w).ctrl = s.ctrl := rfl
@[simp] theorem State.issue_seq (w : Word) : (s.issue w).seq = { s.seq with pending := w, busy := true } := rfl
@[simp] theorem State.issue_regs (w : Word) : (s.issue w).regs = s.regs := rfl
@[simp] theorem State.issue_tree (w : Word) : (s.issue w).tree = s.tree := rfl
@[simp] theorem State.issue_pk (w : Word) : (s.issue w).pk = s.pk := rfl
@[simp] theorem State.issue_up (w : Word) : (s.issue w).up = s.up := rfl
@[simp] theorem State.issue_mem (w : Word) : (s.issue w).mem = s.mem := rfl
@[simp] theorem State.issue_host (w : Word) : (s.issue w).host = { s.host with lag := s.host.lags.headD 0, lags := s.host.lags.tail } := rfl
@[simp] theorem State.issue_draws (w : Word) : (s.issue w).draws = s.draws := rfl

/-! ### State.complete (R141 completion) -/

@[simp] theorem State.complete_config (c : ErrCode) : (s.complete c).config = s.config := rfl
@[simp] theorem State.complete_ctrl (c : ErrCode) : (s.complete c).ctrl = s.ctrl := rfl
@[simp] theorem State.complete_seq (c : ErrCode) : (s.complete c).seq = s.seq.complete c := rfl
@[simp] theorem State.complete_regs (c : ErrCode) : (s.complete c).regs = s.regs := rfl
@[simp] theorem State.complete_tree (c : ErrCode) : (s.complete c).tree = s.tree := rfl
@[simp] theorem State.complete_pk (c : ErrCode) : (s.complete c).pk = s.pk := rfl
@[simp] theorem State.complete_up (c : ErrCode) : (s.complete c).up = s.up := rfl
@[simp] theorem State.complete_mem (c : ErrCode) : (s.complete c).mem = s.mem := rfl
@[simp] theorem State.complete_host (c : ErrCode) : (s.complete c).host = s.host := rfl
@[simp] theorem State.complete_draws (c : ErrCode) : (s.complete c).draws = s.draws := rfl

/-! ### State.scrambleNode (NODE becomes ANY) -/

@[simp] theorem State.scrambleNode_config : (s.scrambleNode).config = s.config := rfl
@[simp] theorem State.scrambleNode_ctrl : (s.scrambleNode).ctrl = s.ctrl := rfl
@[simp] theorem State.scrambleNode_seq : (s.scrambleNode).seq = s.seq := rfl
@[simp] theorem State.scrambleNode_regs : (s.scrambleNode).regs = s.regs := rfl
@[simp] theorem State.scrambleNode_tree : (s.scrambleNode).tree = s.tree := rfl
@[simp] theorem State.scrambleNode_pk : (s.scrambleNode).pk = s.pk := rfl
@[simp] theorem State.scrambleNode_up : (s.scrambleNode).up = s.up := rfl
@[simp] theorem State.scrambleNode_mem : (s.scrambleNode).mem = { s.mem with node := anyNode s.config s.draws } := rfl
@[simp] theorem State.scrambleNode_host : (s.scrambleNode).host = s.host := rfl
@[simp] theorem State.scrambleNode_draws : (s.scrambleNode).draws = s.draws + 1 := rfl

/-! ### State.scrambleCode (CODE becomes ANY) -/

@[simp] theorem State.scrambleCode_config : (s.scrambleCode).config = s.config := rfl
@[simp] theorem State.scrambleCode_ctrl : (s.scrambleCode).ctrl = s.ctrl := rfl
@[simp] theorem State.scrambleCode_seq : (s.scrambleCode).seq = s.seq := rfl
@[simp] theorem State.scrambleCode_regs : (s.scrambleCode).regs = s.regs := rfl
@[simp] theorem State.scrambleCode_tree : (s.scrambleCode).tree = s.tree := rfl
@[simp] theorem State.scrambleCode_pk : (s.scrambleCode).pk = s.pk := rfl
@[simp] theorem State.scrambleCode_up : (s.scrambleCode).up = s.up := rfl
@[simp] theorem State.scrambleCode_mem : (s.scrambleCode).mem = { s.mem with code := anyCode s.config s.draws } := rfl
@[simp] theorem State.scrambleCode_host : (s.scrambleCode).host = s.host := rfl
@[simp] theorem State.scrambleCode_draws : (s.scrambleCode).draws = s.draws + 1 := rfl

/-! ### State.scrambleTbuf (TBUF becomes ANY) -/

@[simp] theorem State.scrambleTbuf_config : (s.scrambleTbuf).config = s.config := rfl
@[simp] theorem State.scrambleTbuf_ctrl : (s.scrambleTbuf).ctrl = s.ctrl := rfl
@[simp] theorem State.scrambleTbuf_seq : (s.scrambleTbuf).seq = s.seq := rfl
@[simp] theorem State.scrambleTbuf_regs : (s.scrambleTbuf).regs = s.regs := rfl
@[simp] theorem State.scrambleTbuf_tree : (s.scrambleTbuf).tree = s.tree := rfl
@[simp] theorem State.scrambleTbuf_pk : (s.scrambleTbuf).pk = s.pk := rfl
@[simp] theorem State.scrambleTbuf_up : (s.scrambleTbuf).up = s.up := rfl
@[simp] theorem State.scrambleTbuf_mem : (s.scrambleTbuf).mem = { s.mem with tbuf := anyTbuf s.draws } := rfl
@[simp] theorem State.scrambleTbuf_host : (s.scrambleTbuf).host = s.host := rfl
@[simp] theorem State.scrambleTbuf_draws : (s.scrambleTbuf).draws = s.draws + 1 := rfl

/-! ### State.dropTree (R166, R222) -/

@[simp] theorem State.dropTree_config : (s.dropTree).config = s.config := rfl
@[simp] theorem State.dropTree_ctrl : (s.dropTree).ctrl = s.ctrl := rfl
@[simp] theorem State.dropTree_seq : (s.dropTree).seq = s.seq := rfl
@[simp] theorem State.dropTree_regs : (s.dropTree).regs = s.regs := rfl
@[simp] theorem State.dropTree_tree : (s.dropTree).tree = { s.tree with valid := false } := rfl
@[simp] theorem State.dropTree_pk : (s.dropTree).pk = s.pk := rfl
@[simp] theorem State.dropTree_up : (s.dropTree).up = { s.up with state := .idle } := rfl
@[simp] theorem State.dropTree_mem : (s.dropTree).mem = { s.mem with node := anyNode s.config s.draws } := rfl
@[simp] theorem State.dropTree_host : (s.dropTree).host = s.host := rfl
@[simp] theorem State.dropTree_draws : (s.dropTree).draws = s.draws + 1 := rfl

/-! ### State.setTree (a new tree) -/

@[simp] theorem State.setTree_config (node : List NodeRec) (r m : Nat) (d : Bool) : (s.setTree node r m d).config = s.config := rfl
@[simp] theorem State.setTree_ctrl (node : List NodeRec) (r m : Nat) (d : Bool) : (s.setTree node r m d).ctrl = s.ctrl := rfl
@[simp] theorem State.setTree_seq (node : List NodeRec) (r m : Nat) (d : Bool) : (s.setTree node r m d).seq = s.seq := rfl
@[simp] theorem State.setTree_regs (node : List NodeRec) (r m : Nat) (d : Bool) : (s.setTree node r m d).regs = s.regs := rfl
@[simp] theorem State.setTree_tree (node : List NodeRec) (r m : Nat) (d : Bool) : (s.setTree node r m d).tree = { s.tree with valid := true, degen := d, root := BitVec.ofNat 32 r, nnodes := BitVec.ofNat 32 m } := rfl
@[simp] theorem State.setTree_pk (node : List NodeRec) (r m : Nat) (d : Bool) : (s.setTree node r m d).pk = s.pk := rfl
@[simp] theorem State.setTree_up (node : List NodeRec) (r m : Nat) (d : Bool) : (s.setTree node r m d).up = { s.up with state := .idle } := rfl
@[simp] theorem State.setTree_mem (node : List NodeRec) (r m : Nat) (d : Bool) : (s.setTree node r m d).mem = { s.mem with node := node } := rfl
@[simp] theorem State.setTree_host (node : List NodeRec) (r m : Nat) (d : Bool) : (s.setTree node r m d).host = s.host := rfl
@[simp] theorem State.setTree_draws (node : List NodeRec) (r m : Nat) (d : Bool) : (s.setTree node r m d).draws = s.draws := rfl

/-! ### State.setTable (a new table) -/

@[simp] theorem State.setTable_config : (s.setTable).config = s.config := rfl
@[simp] theorem State.setTable_ctrl : (s.setTable).ctrl = s.ctrl := rfl
@[simp] theorem State.setTable_seq : (s.setTable).seq = s.seq := rfl
@[simp] theorem State.setTable_regs : (s.setTable).regs = s.regs := rfl
@[simp] theorem State.setTable_tree : (s.setTable).tree = { s.tree with maxlen := BitVec.ofNat 32 (maxLength s.mem.node s.leaves) } := rfl
@[simp] theorem State.setTable_pk : (s.setTable).pk = s.pk := rfl
@[simp] theorem State.setTable_up : (s.setTable).up = s.up := rfl
@[simp] theorem State.setTable_mem : (s.setTable).mem = { s.mem with code := writePrefix (derivedTable s.mem.node s.leaves) s.mem.code } := rfl
@[simp] theorem State.setTable_host : (s.setTable).host = s.host := rfl
@[simp] theorem State.setTable_draws : (s.setTable).draws = s.draws := rfl

/-! ### State.emit (what a word's walk leaves) -/

@[simp] theorem State.emit_config (w : Walk) : (s.emit w).config = s.config := rfl
@[simp] theorem State.emit_ctrl (w : Walk) : (s.emit w).ctrl = s.ctrl := rfl
@[simp] theorem State.emit_seq (w : Walk) : (s.emit w).seq = s.seq := rfl
@[simp] theorem State.emit_regs (w : Walk) : (s.emit w).regs = s.regs := rfl
@[simp] theorem State.emit_tree (w : Walk) : (s.emit w).tree = s.tree := rfl
@[simp] theorem State.emit_pk (w : Walk) : (s.emit w).pk = s.pk := rfl
@[simp] theorem State.emit_up (w : Walk) : (s.emit w).up = { s.up with node := w.node, tcount := BitVec.ofNat 32 w.tokens.length, wcnt := s.up.wcnt + 1#32, tokcnt := s.up.tokcnt + BitVec.ofNat 32 w.tokens.length } := rfl
@[simp] theorem State.emit_mem (w : Walk) : (s.emit w).mem = { s.mem with tbuf := writePrefix w.tokens s.mem.tbuf } := rfl
@[simp] theorem State.emit_host (w : Walk) : (s.emit w).host = s.host := rfl
@[simp] theorem State.emit_draws (w : Walk) : (s.emit w).draws = s.draws := rfl

/-! ### State.setUpState (UP_STATE) -/

@[simp] theorem State.setUpState_config (u : UpState) : (s.setUpState u).config = s.config := rfl
@[simp] theorem State.setUpState_ctrl (u : UpState) : (s.setUpState u).ctrl = s.ctrl := rfl
@[simp] theorem State.setUpState_seq (u : UpState) : (s.setUpState u).seq = s.seq := rfl
@[simp] theorem State.setUpState_regs (u : UpState) : (s.setUpState u).regs = s.regs := rfl
@[simp] theorem State.setUpState_tree (u : UpState) : (s.setUpState u).tree = s.tree := rfl
@[simp] theorem State.setUpState_pk (u : UpState) : (s.setUpState u).pk = s.pk := rfl
@[simp] theorem State.setUpState_up (u : UpState) : (s.setUpState u).up = { s.up with state := u } := rfl
@[simp] theorem State.setUpState_mem (u : UpState) : (s.setUpState u).mem = s.mem := rfl
@[simp] theorem State.setUpState_host (u : UpState) : (s.setUpState u).host = s.host := rfl
@[simp] theorem State.setUpState_draws (u : UpState) : (s.setUpState u).draws = s.draws := rfl

/-! ### State.resetRegisters (R55) -/

@[simp] theorem State.resetRegisters_config : (s.resetRegisters).config = s.config := rfl
@[simp] theorem State.resetRegisters_ctrl : (s.resetRegisters).ctrl = .reset := rfl
@[simp] theorem State.resetRegisters_seq : (s.resetRegisters).seq = .reset := rfl
@[simp] theorem State.resetRegisters_regs : (s.resetRegisters).regs = .reset := rfl
@[simp] theorem State.resetRegisters_tree : (s.resetRegisters).tree = .reset := rfl
@[simp] theorem State.resetRegisters_pk : (s.resetRegisters).pk = .reset := rfl
@[simp] theorem State.resetRegisters_up : (s.resetRegisters).up = .reset := rfl
@[simp] theorem State.resetRegisters_mem : (s.resetRegisters).mem = s.mem := rfl
@[simp] theorem State.resetRegisters_host : (s.resetRegisters).host = s.host := rfl
@[simp] theorem State.resetRegisters_draws : (s.resetRegisters).draws = s.draws := rfl

/-! ### State.hardReset (R300) -/

@[simp] theorem State.hardReset_config : (s.hardReset).config = s.config := rfl
@[simp] theorem State.hardReset_ctrl : (s.hardReset).ctrl = .reset := rfl
@[simp] theorem State.hardReset_seq : (s.hardReset).seq = .reset := rfl
@[simp] theorem State.hardReset_regs : (s.hardReset).regs = .reset := rfl
@[simp] theorem State.hardReset_tree : (s.hardReset).tree = .reset := rfl
@[simp] theorem State.hardReset_pk : (s.hardReset).pk = .reset := rfl
@[simp] theorem State.hardReset_up : (s.hardReset).up = .reset := rfl
@[simp] theorem State.hardReset_mem : (s.hardReset).mem = .powerOn s.config s.draws := rfl
@[simp] theorem State.hardReset_host : (s.hardReset).host = s.host := rfl
@[simp] theorem State.hardReset_draws : (s.hardReset).draws = s.draws + 4 := rfl

/-! ### State.dropWrite (R89) -/

@[simp] theorem State.dropWrite_config : (s.dropWrite).config = s.config := rfl
@[simp] theorem State.dropWrite_ctrl : (s.dropWrite).ctrl = s.ctrl := rfl
@[simp] theorem State.dropWrite_seq : (s.dropWrite).seq = { s.seq with haz := true } := rfl
@[simp] theorem State.dropWrite_regs : (s.dropWrite).regs = s.regs := rfl
@[simp] theorem State.dropWrite_tree : (s.dropWrite).tree = s.tree := rfl
@[simp] theorem State.dropWrite_pk : (s.dropWrite).pk = s.pk := rfl
@[simp] theorem State.dropWrite_up : (s.dropWrite).up = s.up := rfl
@[simp] theorem State.dropWrite_mem : (s.dropWrite).mem = s.mem := rfl
@[simp] theorem State.dropWrite_host : (s.dropWrite).host = s.host := rfl
@[simp] theorem State.dropWrite_draws : (s.dropWrite).draws = s.draws := rfl

/-! ### State.deliver (a value read) -/

@[simp] theorem State.deliver_config (v : Word) : (s.deliver v).config = s.config := rfl
@[simp] theorem State.deliver_ctrl (v : Word) : (s.deliver v).ctrl = s.ctrl := rfl
@[simp] theorem State.deliver_seq (v : Word) : (s.deliver v).seq = s.seq := rfl
@[simp] theorem State.deliver_regs (v : Word) : (s.deliver v).regs = s.regs := rfl
@[simp] theorem State.deliver_tree (v : Word) : (s.deliver v).tree = s.tree := rfl
@[simp] theorem State.deliver_pk (v : Word) : (s.deliver v).pk = s.pk := rfl
@[simp] theorem State.deliver_up (v : Word) : (s.deliver v).up = s.up := rfl
@[simp] theorem State.deliver_mem (v : Word) : (s.deliver v).mem = s.mem := rfl
@[simp] theorem State.deliver_host (v : Word) : (s.deliver v).host = { s.host with readData := v :: s.host.readData } := rfl
@[simp] theorem State.deliver_draws (v : Word) : (s.deliver v).draws = s.draws := rfl

/-! ### State.busRead (R80) -/

@[simp] theorem State.busRead_config (off : Nat) : (s.busRead off).config = s.config := rfl
@[simp] theorem State.busRead_ctrl (off : Nat) : (s.busRead off).ctrl = s.ctrl := rfl
@[simp] theorem State.busRead_seq (off : Nat) : (s.busRead off).seq = s.seq := rfl
@[simp] theorem State.busRead_regs (off : Nat) : (s.busRead off).regs = s.regs := rfl
@[simp] theorem State.busRead_tree (off : Nat) : (s.busRead off).tree = s.tree := rfl
@[simp] theorem State.busRead_pk (off : Nat) : (s.busRead off).pk = s.pk := rfl
@[simp] theorem State.busRead_up (off : Nat) : (s.busRead off).up = s.up := rfl
@[simp] theorem State.busRead_mem (off : Nat) : (s.busRead off).mem = s.mem := rfl
@[simp] theorem State.busRead_host (off : Nat) : (s.busRead off).host = { s.host with readData := s.readValue off :: s.host.readData } := rfl
@[simp] theorem State.busRead_draws (off : Nat) : (s.busRead off).draws = s.readDraws off := rfl

/-! ### State.takeAct (the next host action) -/

@[simp] theorem State.takeAct_config (rest : List HostAct) : (s.takeAct rest).config = s.config := rfl
@[simp] theorem State.takeAct_ctrl (rest : List HostAct) : (s.takeAct rest).ctrl = s.ctrl := rfl
@[simp] theorem State.takeAct_seq (rest : List HostAct) : (s.takeAct rest).seq = s.seq := rfl
@[simp] theorem State.takeAct_regs (rest : List HostAct) : (s.takeAct rest).regs = s.regs := rfl
@[simp] theorem State.takeAct_tree (rest : List HostAct) : (s.takeAct rest).tree = s.tree := rfl
@[simp] theorem State.takeAct_pk (rest : List HostAct) : (s.takeAct rest).pk = s.pk := rfl
@[simp] theorem State.takeAct_up (rest : List HostAct) : (s.takeAct rest).up = s.up := rfl
@[simp] theorem State.takeAct_mem (rest : List HostAct) : (s.takeAct rest).mem = s.mem := rfl
@[simp] theorem State.takeAct_host (rest : List HostAct) : (s.takeAct rest).host = { s.host with script := rest, lag := s.host.lag - 1 } := rfl
@[simp] theorem State.takeAct_draws (rest : List HostAct) : (s.takeAct rest).draws = s.draws := rfl

/-! ### State.withPending (a pending word) -/

@[simp] theorem State.withPending_config (w : Word) : (s.withPending w).config = s.config := rfl
@[simp] theorem State.withPending_ctrl (w : Word) : (s.withPending w).ctrl = s.ctrl := rfl
@[simp] theorem State.withPending_seq (w : Word) : (s.withPending w).seq = { s.seq with pending := w, busy := true } := rfl
@[simp] theorem State.withPending_regs (w : Word) : (s.withPending w).regs = s.regs := rfl
@[simp] theorem State.withPending_tree (w : Word) : (s.withPending w).tree = s.tree := rfl
@[simp] theorem State.withPending_pk (w : Word) : (s.withPending w).pk = s.pk := rfl
@[simp] theorem State.withPending_up (w : Word) : (s.withPending w).up = s.up := rfl
@[simp] theorem State.withPending_mem (w : Word) : (s.withPending w).mem = s.mem := rfl
@[simp] theorem State.withPending_host (w : Word) : (s.withPending w).host = { s.host with lag := 0 } := rfl
@[simp] theorem State.withPending_draws (w : Word) : (s.withPending w).draws = s.draws := rfl

end

/-! ### Sequencer.complete (R141) -/

@[simp] theorem Sequencer.complete_busy (q : Sequencer) (c : ErrCode) : (q.complete c).busy = false := rfl
@[simp] theorem Sequencer.complete_pending (q : Sequencer) (c : ErrCode) : (q.complete c).pending = q.pending := rfl
@[simp] theorem Sequencer.complete_done (q : Sequencer) (c : ErrCode) : (q.complete c).done = true := rfl
@[simp] theorem Sequencer.complete_err (q : Sequencer) (c : ErrCode) : (q.complete c).err = (q.err || c != .ok) := rfl
@[simp] theorem Sequencer.complete_haz (q : Sequencer) (c : ErrCode) : (q.complete c).haz = q.haz := rfl
@[simp] theorem Sequencer.complete_errcode (q : Sequencer) (c : ErrCode) : (q.complete c).errcode = c := rfl
@[simp] theorem Sequencer.complete_lastop (q : Sequencer) (c : ErrCode) : (q.complete c).lastop = opcodeOf q.pending := rfl

/-! ### The abandoned command (R301 (b)): only memories and draws change -/

@[simp] theorem State.abandon_config (s : State) : s.abandon.config = s.config := by
  unfold State.abandon; split <;> [split <;> rfl; rfl]
@[simp] theorem State.abandon_ctrl (s : State) : s.abandon.ctrl = s.ctrl := by
  unfold State.abandon; split <;> [split <;> rfl; rfl]
@[simp] theorem State.abandon_seq (s : State) : s.abandon.seq = s.seq := by
  unfold State.abandon; split <;> [split <;> rfl; rfl]
@[simp] theorem State.abandon_regs (s : State) : s.abandon.regs = s.regs := by
  unfold State.abandon; split <;> [split <;> rfl; rfl]
@[simp] theorem State.abandon_tree (s : State) : s.abandon.tree = s.tree := by
  unfold State.abandon; split <;> [split <;> rfl; rfl]
@[simp] theorem State.abandon_pk (s : State) : s.abandon.pk = s.pk := by
  unfold State.abandon; split <;> [split <;> rfl; rfl]
@[simp] theorem State.abandon_up (s : State) : s.abandon.up = s.up := by
  unfold State.abandon; split <;> [split <;> rfl; rfl]
@[simp] theorem State.abandon_host (s : State) : s.abandon.host = s.host := by
  unfold State.abandon; split <;> [split <;> rfl; rfl]

/-! ### Soft reset (R301) -/

@[simp] theorem State.softReset_config (s : State) : s.softReset.config = s.config := by simp [State.softReset]
@[simp] theorem State.softReset_ctrl (s : State) : s.softReset.ctrl = .reset := rfl
@[simp] theorem State.softReset_seq (s : State) : s.softReset.seq = .reset := rfl
@[simp] theorem State.softReset_regs (s : State) : s.softReset.regs = .reset := rfl
@[simp] theorem State.softReset_tree (s : State) : s.softReset.tree = .reset := rfl
@[simp] theorem State.softReset_pk (s : State) : s.softReset.pk = .reset := rfl
@[simp] theorem State.softReset_up (s : State) : s.softReset.up = .reset := rfl
@[simp] theorem State.softReset_mem (s : State) : s.softReset.mem = s.abandon.mem := rfl
@[simp] theorem State.softReset_host (s : State) : s.softReset.host = s.host := by simp [State.softReset]
@[simp] theorem State.softReset_draws (s : State) : s.softReset.draws = s.abandon.draws := rfl

/-! ### Results -/

@[simp] theorem finish_eq (c : ErrCode) (s : State) : finish c s = .next (s.complete c) := rfl

@[simp] theorem raise_eq (c : ErrCode) (s : State) : raise c s = .next (s.complete c) := rfl

@[simp] theorem raiseTree_eq (c : ErrCode) (s : State) : raiseTree c s = .next (s.dropTree.complete c) := rfl

end Sys2Proof.Machine
end

