-- ==== Sys2Proof/Laws/Memory.lean ====
section
/-! SUPPORT. What the memory operations do: lengths, reads after writes, and that every operation of the machine keeps the
memories in their one form (Memory.wf), which reset has. -/

namespace Sys2Proof.Machine

/-! ### Draws -/

@[simp] theorem anySym_length (c : Config) (d : Nat) : (anySym c d).length = c.nsymMax := by simp [anySym]

@[simp] theorem anyCode_length (c : Config) (d : Nat) : (anyCode c d).length = c.nsymMax := by simp [anyCode]

@[simp] theorem anyNode_length (c : Config) (d : Nat) : (anyNode c d).length = c.arenaSize := by simp [anyNode]

@[simp] theorem anyTbuf_length (d : Nat) : (anyTbuf d).length = Config.tbufDepth := by simp [anyTbuf]

theorem Memory.powerOn_wf (c : Config) (d : Nat) : (Memory.powerOn c d).wf c := by
  simp [Memory.powerOn, Memory.wf]

theorem reset_memory_wf : State.reset.mem.wf State.reset.config := Memory.powerOn_wf _ _

/-! ### Writing entries 0, 1, ... -/

variable {α : Type}

@[simp] theorem writePrefix_length (xs m : List α) : (writePrefix xs m).length = m.length := by
  simp [writePrefix]; omega

/-- An entry inside the written part. -/
theorem writePrefix_getElem?_lt (xs m : List α) (i : Nat) (hx : i < xs.length) (hm : i < m.length) :
    (writePrefix xs m)[i]? = xs[i]? := by
  rw [writePrefix, List.getElem?_append_left (by simp; omega), List.getElem?_take_of_lt hm]

/-- An entry beyond the written part keeps its value. -/
theorem writePrefix_getElem?_ge (xs m : List α) (i : Nat) (hx : xs.length ≤ i) :
    (writePrefix xs m)[i]? = m[i]? := by
  by_cases hm : i < m.length
  · rw [writePrefix, List.getElem?_append_right (by simp; omega), List.getElem?_drop]
    congr 1; simp; omega
  · rw [List.getElem?_eq_none (by simp; omega), List.getElem?_eq_none (by omega)]

/-- Reading an entry, through the list's own access. -/
theorem entryAt_eq (d : Nat → α) (m : List α) (i : Nat) : entryAt d m i = (m[i]?).getD (d i) := by
  simp [entryAt, List.getD_eq_getElem?_getD]

theorem entryAt_writePrefix_lt (d : Nat → α) (xs m : List α) (i : Nat) (hx : i < xs.length) (hm : i < m.length) :
    entryAt d (writePrefix xs m) i = entryAt d xs i := by
  simp [entryAt_eq, writePrefix_getElem?_lt xs m i hx hm]

theorem entryAt_writePrefix_ge (d : Nat → α) (xs m : List α) (i : Nat) (hx : xs.length ≤ i) :
    entryAt d (writePrefix xs m) i = entryAt d m i := by
  simp [entryAt_eq, writePrefix_getElem?_ge xs m i hx]

/-- Reading an entry after one entry was changed. -/
theorem entryAt_modify (d : Nat → α) (m : List α) (i j : Nat) (f : α → α) (hi : i < m.length) :
    entryAt d (m.modify i f) j = if j = i then f (entryAt d m i) else entryAt d m j := by
  simp only [entryAt_eq, List.getElem?_modify]
  split
  · subst_vars; simp [hi]
  · rename_i h; simp [Ne.symm h]

/-! ### The tree engines keep the arena's length -/

@[simp] theorem linkChild_length (a : List NodeRec) (c k : Nat) (b : Bool) : (linkChild a c k b).length = a.length := by
  simp [linkChild]

@[simp] theorem makeInternal_length (a : List NodeRec) (k x y : Nat) : (makeInternal a k x y).length = a.length := by
  simp [makeInternal]

@[simp] theorem popRest_arena (n : Nat) (q : MergeState) : (popRest n q).arena = q.arena := by
  unfold popRest; split <;> rfl

@[simp] theorem popRest_next (n : Nat) (q : MergeState) : (popRest n q).next = q.next := by
  unfold popRest; split <;> rfl

@[simp] theorem mergeStep_length (n : Nat) (q : MergeState) : (mergeStep n q).arena.length = q.arena.length := by
  simp [mergeStep]

@[simp] theorem mergeStep_next (n : Nat) (q : MergeState) : (mergeStep n q).next = q.next + 1 := by simp [mergeStep]

@[simp] theorem mergeLoop_length (n k : Nat) (q : MergeState) : (mergeLoop n k q).arena.length = q.arena.length := by
  induction k generalizing q with
  | zero => rfl
  | succ k ih => simp [mergeLoop, ih]

@[simp] theorem buildArena_length (L : Nat) (sym : List SymEntry) (node : List NodeRec) :
    (buildArena L sym node).length = node.length := by simp [buildArena, leafArena]

@[simp] theorem placeChild_length (k d : Nat) (b : Bool) (part : List Nat) (st : SplitState) :
    (placeChild k d b part st).arena.length = st.arena.length := by
  unfold placeChild; split <;> simp

@[simp] theorem splitRecord_length (code : List CodeEntry) (it : SplitItem) (st : SplitState) :
    (splitRecord code it st).arena.length = st.arena.length := by simp [splitRecord]

theorem splitLoop_length (code : List CodeEntry) (fuel : Nat) (st st' : SplitState)
    (h : splitLoop code fuel st = some st') : st'.arena.length = st.arena.length := by
  induction fuel generalizing st with
  | zero =>
    simp only [splitLoop] at h
    split at h
    · cases h; rfl
    · cases h
  | succ fuel ih =>
    simp only [splitLoop] at h
    split at h
    · cases h; rfl
    · split at h
      · cases h
      · rw [ih _ h]; simp

theorem rebuildArena_length (L : Nat) (code : List CodeEntry) (node : List NodeRec) (st : SplitState)
    (h : rebuildArena L code node = some st) : st.arena.length = node.length := by
  rw [splitLoop_length _ _ _ _ h]; simp

end Sys2Proof.Machine
end

