-- ==== Sys2Proof/Laws/Exec.lean ====
section
/-! SUPPORT. What each command can do, said once: one case lemma per meaning, and what follows for all commands (they complete;
they keep the memories' form; they leave the configuration, CTRL, the operand registers and the host agent alone). -/

namespace Sys2Proof.Machine

variable {s t : State}

/-- BUILD: a failed check drops the tree; one leaf is the degenerate tree; else the merged tree. -/
theorem execBuild_cases (h : execBuild s = .next t) :
    (∃ e, buildError s = some e ∧ t = s.dropTree.complete e)
    ∨ (buildError s = none ∧ s.count = 1
        ∧ t = (s.setTree (buildArena s.tokenWidth (s.mem.sym.take s.count) s.mem.node) 0 1 true).complete .ok)
    ∨ (buildError s = none ∧ s.count ≠ 1
        ∧ t = (s.setTree (buildArena s.tokenWidth (s.mem.sym.take s.count) s.mem.node)
          (2 * s.count - 2) (2 * s.count - 1) false).complete .ok) := by
  unfold execBuild at h
  split at h
  · rename_i e he
    exact .inl ⟨e, he, by simpa using h.symm⟩
  · rename_i he
    by_cases hn : s.count = 1
    · exact .inr (.inl ⟨he, hn, by simpa [hn] using h.symm⟩)
    · exact .inr (.inr ⟨he, hn, by simpa [hn] using h.symm⟩)

/-- DERIVE: a failed check changes nothing else; else the table and MAXLEN. -/
theorem execDerive_cases (h : execDerive s = .next t) :
    (∃ e, deriveError s = some e ∧ t = s.complete e) ∨ (deriveError s = none ∧ t = s.setTable.complete .ok) := by
  unfold execDerive at h
  split at h
  · rename_i e he
    exact .inl ⟨e, he, by simpa using h.symm⟩
  · rename_i he
    exact .inr ⟨he, by simpa using h.symm⟩

/-- PACK_TOKEN: a failed check changes nothing else; else the entry found is appended. -/
theorem execPackToken_cases (h : execPackToken s = .next t) :
    (∃ e, packLookup s = .error e ∧ t = s.complete e)
    ∨ (∃ e, packLookup s = .ok e ∧ t = { s with pk := s.pk.pushCode e.codeword e.length }.complete .ok) := by
  unfold execPackToken at h
  split at h
  · rename_i e he
    exact .inl ⟨e, he, by simpa using h.symm⟩
  · rename_i e he
    exact .inr ⟨e, he, by simpa using h.symm⟩

/-- PACK_END: E_SEQ outside a stream, else the stream is closed. -/
theorem execPackEnd_cases (h : execPackEnd s = .next t) :
    (s.pk.state ≠ .active ∧ t = s.complete .seq)
    ∨ (s.pk.state = .active ∧ t = { s with pk := s.pk.closed }.complete .ok) := by
  unfold execPackEnd at h
  split at h
  · rename_i hs
    exact .inl ⟨hs, by simpa using h.symm⟩
  · rename_i hs
    exact .inr ⟨by simpa using hs, by simpa using h.symm⟩

/-- REBUILD: a failed check or a table that is no complete prefix code drops the tree; else the rebuilt tree. -/
theorem execRebuild_cases (h : execRebuild s = .next t) :
    (∃ e, rebuildError s = some e ∧ t = s.dropTree.complete e)
    ∨ (rebuildError s = none ∧ s.count = 1
        ∧ t = (s.setTree (writePrefix ((s.mem.code.take s.count).map (leafOfCode s.tokenWidth)) s.mem.node)
          0 1 true).complete .ok)
    ∨ (rebuildError s = none ∧ s.count ≠ 1
        ∧ rebuildArena s.tokenWidth (s.mem.code.take s.count) s.mem.node = none ∧ t = s.dropTree.complete .fmtTable)
    ∨ (∃ st, rebuildError s = none ∧ s.count ≠ 1
        ∧ rebuildArena s.tokenWidth (s.mem.code.take s.count) s.mem.node = some st
        ∧ t = (s.setTree st.arena s.count st.next false).complete .ok) := by
  unfold execRebuild at h
  split at h
  · rename_i e he
    exact .inl ⟨e, he, by simpa using h.symm⟩
  · rename_i he
    by_cases hn : s.count = 1
    · exact .inr (.inl ⟨he, hn, by simpa [hn] using h.symm⟩)
    · simp only [hn, if_false] at h
      split at h
      · rename_i hr
        exact .inr (.inr (.inl ⟨he, hn, hr, by simpa using h.symm⟩))
      · rename_i st hr
        exact .inr (.inr (.inr ⟨st, he, hn, hr, by simpa using h.symm⟩))

/-- UNPACK_BEGIN: a failed check changes nothing else; else a stream is open at the root. -/
theorem execUnpackBegin_cases (h : execUnpackBegin s = .next t) :
    (∃ e, unpackBeginError s = some e ∧ t = s.complete e)
    ∨ (s.tree.valid = true ∧ s.tree.degen = false
        ∧ t = { s with up := { state := .run, node := s.tree.root, tcount := 0#32, wcnt := 0#32, tokcnt := 0#32 } }.complete
          .ok) := by
  unfold execUnpackBegin at h
  split at h
  · rename_i e he
    exact .inl ⟨e, he, by simpa using h.symm⟩
  · rename_i he
    refine .inr ⟨?_, ?_, by simpa using h.symm⟩ <;>
      (unfold unpackBeginError at he; revert he; cases s.tree.valid <;> cases s.tree.degen <;> simp)

/-- UNPACK_WORD: E_SEQ, E_FMT_EXTRA and E_FMT_TZB before the loop; else the word's walk, kept whatever the code. -/
theorem execUnpackWord_cases {last : Bool} (h : execUnpackWord last s = .next t) :
    (s.up.state = .idle ∧ t = s.complete .seq)
    ∨ (s.up.state = .done ∧ t = (s.setUpState .idle).complete .fmtExtra)
    ∨ (s.up.state = .run ∧ last = true ∧ 31 < s.regs.upTzb.toNat ∧ t = (s.setUpState .idle).complete .fmtTzb)
    ∨ (s.up.state = .run ∧ last = false ∧ t = (s.emit (s.wordWalk last)).complete .ok)
    ∨ (s.up.state = .run ∧ last = true ∧ s.regs.upTzb.toNat ≤ 31 ∧ (s.wordWalk last).node ≠ s.tree.root
        ∧ t = ((s.emit (s.wordWalk last)).setUpState .idle).complete .fmtTrunc)
    ∨ (s.up.state = .run ∧ last = true ∧ s.regs.upTzb.toNat ≤ 31 ∧ (s.wordWalk last).node = s.tree.root
        ∧ t = ((s.emit (s.wordWalk last)).setUpState .done).complete .ok) := by
  unfold execUnpackWord at h
  split at h
  · rename_i hs
    exact .inl ⟨hs, by simpa using h.symm⟩
  · rename_i hs
    exact .inr (.inl ⟨hs, by simpa using h.symm⟩)
  · rename_i hs
    split at h
    · rename_i hl
      exact .inr (.inr (.inl ⟨hs, hl.1, hl.2, by simpa using h.symm⟩))
    · rename_i hl
      unfold unpackRun at h
      cases last with
      | false => exact .inr (.inr (.inr (.inl ⟨hs, rfl, by simpa using h.symm⟩)))
      | true =>
        have htz : s.regs.upTzb.toNat ≤ 31 := by
          by_contra hc
          exact hl ⟨rfl, by omega⟩
        by_cases hr : (s.wordWalk true).node = s.tree.root
        · exact .inr (.inr (.inr (.inr (.inr ⟨hs, rfl, htz, hr, by simpa [hr] using h.symm⟩))))
        · exact .inr (.inr (.inr (.inr (.inl ⟨hs, rfl, htz, hr, by simpa [hr] using h.symm⟩))))

/-- UNPACK_END: E_SEQ outside a stream; else UP_STATE <- IDLE with the code of the stream's end. -/
theorem execUnpackEnd_cases (h : execUnpackEnd s = .next t) :
    (s.up.state = .idle ∧ t = s.complete .seq)
    ∨ (s.up.state ≠ .idle ∧ ∃ c, t = (s.setUpState .idle).complete c
        ∧ c = (if s.up.state = .done then ErrCode.ok
               else if s.up.wcnt ≠ 0#32 then .fmtTrunc else if s.regs.upTzb ≠ 0#8 then .fmtTzb else .ok)) := by
  unfold execUnpackEnd at h
  split at h
  · rename_i hs
    exact .inl ⟨hs, by simpa using h.symm⟩
  · rename_i hs
    exact .inr ⟨by simp [hs], .ok, by simpa using h.symm, by simp [hs]⟩
  · rename_i hs
    refine .inr ⟨by simp [hs], ?_⟩
    simp only [hs, reduceCtorEq, if_false]
    by_cases hw : s.up.wcnt = 0#32 <;> by_cases hz : s.regs.upTzb = 0#8 <;>
      exact ⟨_, by simpa [hw, hz] using h.symm, by simp [hw, hz]⟩

/-- Every command completes: it ends with `finish` of some state and code, and nothing else (spec/40_commands_common.md R141).
The state before completion differs from `s` only in the parts commands write. -/
theorem exec_completes (i : Instr) (s : State) :
    ∃ (u : State) (c : ErrCode), exec i s = .next (u.complete c) ∧ u.config = s.config ∧ u.ctrl = s.ctrl ∧ u.seq = s.seq ∧ u.regs = s.regs
      ∧ u.host = s.host ∧ u.mem.sym = s.mem.sym := by
  cases i with
  | nop => exact ⟨s, .ok, rfl, rfl, rfl, rfl, rfl, rfl, rfl⟩
  | build =>
    simp only [exec, execBuild]
    split
    · exact ⟨s.dropTree, _, rfl, rfl, rfl, rfl, rfl, rfl, rfl⟩
    · split <;> exact ⟨s.setTree _ _ _ _, _, rfl, rfl, rfl, rfl, rfl, rfl, rfl⟩
  | derive =>
    simp only [exec, execDerive]
    split
    · exact ⟨s, _, rfl, rfl, rfl, rfl, rfl, rfl, rfl⟩
    · exact ⟨s.setTable, _, rfl, rfl, rfl, rfl, rfl, rfl, rfl⟩
  | packBegin => exact ⟨{ s with pk := .opened }, .ok, rfl, rfl, rfl, rfl, rfl, rfl, rfl⟩
  | packToken =>
    simp only [exec, execPackToken]
    split
    · exact ⟨s, _, rfl, rfl, rfl, rfl, rfl, rfl, rfl⟩
    · exact ⟨{ s with pk := _ }, _, rfl, rfl, rfl, rfl, rfl, rfl, rfl⟩
  | packEnd =>
    simp only [exec, execPackEnd]
    split
    · exact ⟨s, _, rfl, rfl, rfl, rfl, rfl, rfl, rfl⟩
    · exact ⟨{ s with pk := s.pk.closed }, _, rfl, rfl, rfl, rfl, rfl, rfl, rfl⟩
  | rebuild =>
    simp only [exec, execRebuild]
    split
    · exact ⟨s.dropTree, _, rfl, rfl, rfl, rfl, rfl, rfl, rfl⟩
    · split
      · exact ⟨s.setTree _ _ _ _, _, rfl, rfl, rfl, rfl, rfl, rfl, rfl⟩
      · split
        · exact ⟨s.dropTree, _, rfl, rfl, rfl, rfl, rfl, rfl, rfl⟩
        · exact ⟨s.setTree _ _ _ _, _, rfl, rfl, rfl, rfl, rfl, rfl, rfl⟩
  | unpackBegin =>
    simp only [exec, execUnpackBegin]
    split
    · exact ⟨s, _, rfl, rfl, rfl, rfl, rfl, rfl, rfl⟩
    · exact ⟨{ s with up := _ }, _, rfl, rfl, rfl, rfl, rfl, rfl, rfl⟩
  | unpackWord last =>
    simp only [exec, execUnpackWord]
    split
    · exact ⟨s, _, rfl, rfl, rfl, rfl, rfl, rfl, rfl⟩
    · exact ⟨s.setUpState _, _, rfl, rfl, rfl, rfl, rfl, rfl, rfl⟩
    · split
      · exact ⟨s.setUpState _, _, rfl, rfl, rfl, rfl, rfl, rfl, rfl⟩
      · simp only [unpackRun]
        split
        · exact ⟨s.emit _, _, rfl, rfl, rfl, rfl, rfl, rfl, rfl⟩
        · split <;> exact ⟨(s.emit _).setUpState _, _, rfl, rfl, rfl, rfl, rfl, rfl, rfl⟩
  | unpackEnd =>
    simp only [exec, execUnpackEnd]
    split
    · exact ⟨s, _, rfl, rfl, rfl, rfl, rfl, rfl, rfl⟩
    · exact ⟨s.setUpState _, _, rfl, rfl, rfl, rfl, rfl, rfl, rfl⟩
    · split
      · exact ⟨s.setUpState _, _, rfl, rfl, rfl, rfl, rfl, rfl, rfl⟩
      · split <;> exact ⟨s.setUpState _, _, rfl, rfl, rfl, rfl, rfl, rfl, rfl⟩

/-- Every command keeps the memories in their form. -/
theorem exec_keeps_memory_wf (i : Instr) (h : exec i s = .next t) (hw : s.mem.wf s.config) : t.mem.wf t.config := by
  obtain ⟨h1, h2, h3, h4⟩ := hw
  cases i with
  | nop => simp only [exec, execNop, finish_eq, Host.Outcome.next.injEq] at h; subst h; exact ⟨h1, h2, h3, h4⟩
  | build =>
    rcases execBuild_cases h with ⟨e, -, rfl⟩ | ⟨-, -, rfl⟩ | ⟨-, -, rfl⟩ <;> simp [Memory.wf, h1, h2, h3, h4]
  | derive =>
    rcases execDerive_cases h with ⟨e, -, rfl⟩ | ⟨-, rfl⟩ <;> simp [Memory.wf, h1, h2, h3, h4]
  | packBegin => simp only [exec, execPackBegin, finish_eq, Host.Outcome.next.injEq] at h; subst h; exact ⟨h1, h2, h3, h4⟩
  | packToken =>
    rcases execPackToken_cases h with ⟨e, -, rfl⟩ | ⟨e, -, rfl⟩ <;> simp [Memory.wf, h1, h2, h3, h4]
  | packEnd =>
    rcases execPackEnd_cases h with ⟨-, rfl⟩ | ⟨-, rfl⟩ <;> simp [Memory.wf, h1, h2, h3, h4]
  | rebuild =>
    rcases execRebuild_cases h with ⟨e, -, rfl⟩ | ⟨-, -, rfl⟩ | ⟨-, -, -, rfl⟩ | ⟨st, -, -, hr, rfl⟩
    · simp [Memory.wf, h1, h2, h4]
    · simp [Memory.wf, h1, h2, h3, h4]
    · simp [Memory.wf, h1, h2, h4]
    · simp [Memory.wf, rebuildArena_length _ _ _ _ hr, h1, h2, h3, h4]
  | unpackBegin =>
    rcases execUnpackBegin_cases h with ⟨e, -, rfl⟩ | ⟨-, -, rfl⟩ <;> simp [Memory.wf, h1, h2, h3, h4]
  | unpackWord last =>
    rcases execUnpackWord_cases h with ⟨-, rfl⟩ | ⟨-, rfl⟩ | ⟨-, -, -, rfl⟩ | ⟨-, -, rfl⟩ | ⟨-, -, -, -, rfl⟩ | ⟨-, -, -, -, rfl⟩ <;>
      simp [Memory.wf, h1, h2, h3, h4]
  | unpackEnd =>
    rcases execUnpackEnd_cases h with ⟨-, rfl⟩ | ⟨-, c, rfl, -⟩ <;> simp [Memory.wf, h1, h2, h3, h4]

/-- The engine's step completes whatever word is pending. -/
theorem engineStep_completes (s : State) : ∃ (u : State) (c : ErrCode), engineStep s = .next (u.complete c) := by
  unfold engineStep
  split
  · obtain ⟨u, c, h, -⟩ := exec_completes ‹_› s
    exact ⟨u, c, h⟩
  · exact ⟨s, .illegal, rfl⟩

end Sys2Proof.Machine
end

