-- ==== Sys2Proof/Laws/Bus.lean ====
section
/-! SUPPORT. What the host's side can do: reads leave the block alone, writes and resets keep the memories' form, and so does
every step. -/

namespace Sys2Proof.Machine

variable {s t : State}

@[simp] theorem State.writeReg_mem (s : State) (r : Reg) (v : Word) : (s.writeReg r v).mem = s.mem := by
  cases r <;> rfl

@[simp] theorem State.writeReg_config (s : State) (r : Reg) (v : Word) : (s.writeReg r v).config = s.config := by
  cases r <;> rfl

@[simp] theorem State.writeTarget_config (s : State) (g : Target) (v : Word) : (s.writeTarget g v).config = s.config := by
  cases g <;> simp [State.writeTarget]

theorem State.writeTarget_wf (s : State) (g : Target) (v : Word) (hw : s.mem.wf s.config) :
    (s.writeTarget g v).mem.wf s.config := by
  obtain ⟨h1, h2, h3, h4⟩ := hw
  cases g <;> simp [State.writeTarget, Memory.wf, h1, h2, h3, h4]

theorem State.abandon_wf (s : State) (hw : s.mem.wf s.config) : s.abandon.mem.wf s.config := by
  obtain ⟨h1, h2, h3, h4⟩ := hw
  unfold State.abandon
  split
  · split <;> simp [Memory.wf, h1, h2, h3, h4]
  · exact ⟨h1, h2, h3, h4⟩

@[simp] theorem State.busWrite_config (s : State) (off : Nat) (v : Word) : (s.busWrite off v).config = s.config := by
  unfold State.busWrite
  split
  · simp
  · split <;> simp

theorem State.busWrite_wf (s : State) (off : Nat) (v : Word) (hw : s.mem.wf s.config) :
    (s.busWrite off v).mem.wf s.config := by
  unfold State.busWrite
  split
  · exact s.abandon_wf hw
  · split
    · exact hw
    · exact s.writeTarget_wf _ v hw

/-- What one action of the host can do. -/
theorem hostAct_cases {a : HostAct} (h : hostAct s a = .next t) :
    (∃ addr, a = .read 4 addr ∧ AccessOk 4 addr ∧ t = s.busRead addr)
    ∨ (∃ addr v, a = .write 4 addr v ∧ AccessOk 4 addr ∧ t = s.busWrite addr v)
    ∨ (a = .rst ∧ t = s.hardReset) := by
  cases a with
  | read size addr =>
    simp only [hostAct] at h
    split at h
    · rename_i hok
      obtain ⟨rfl, h2, h3⟩ := hok
      exact .inl ⟨addr, rfl, ⟨rfl, h2, h3⟩, by simpa using h.symm⟩
    · cases h
  | write size addr v =>
    simp only [hostAct] at h
    split at h
    · rename_i hok
      obtain ⟨rfl, h2, h3⟩ := hok
      exact .inr (.inl ⟨addr, v, rfl, ⟨rfl, h2, h3⟩, by simpa using h.symm⟩)
    · cases h
  | rst => exact .inr (.inr ⟨rfl, by simpa [hostAct] using h.symm⟩)

/-- What one step can do: the engine completes the pending command, the host acts, or the run is at its end. -/
theorem step_cases (h : step s = .next t) :
    (s.seq.busy = true ∧ engineStep s = .next t)
    ∨ (∃ a rest, s.host.script = a :: rest ∧ (s.seq.busy = true → s.host.lag ≠ 0)
        ∧ hostAct (s.takeAct rest) a = .next t)
    ∨ (s.seq.busy = false ∧ s.host.script = [] ∧ t = s) := by
  unfold step State.turn at h
  cases hs : s.host.script with
  | nil =>
    cases hb : s.seq.busy with
    | true => exact .inl ⟨rfl, by simpa [hs, hb] using h⟩
    | false => exact .inr (.inr ⟨rfl, rfl, by simpa [hs, hb] using h.symm⟩)
  | cons a rest =>
    by_cases hl : (s.seq.busy && s.host.lag == 0) = true
    · have hb := hl
      simp only [Bool.and_eq_true] at hb
      exact .inl ⟨hb.1, by simpa [hs, hl] using h⟩
    · refine .inr (.inl ⟨a, rest, rfl, ?_, by simpa [hs, hl, hostStep] using h⟩)
      intro hb' h0
      simp [hb', h0] at hl

theorem hostAct_keeps_memory_wf {a : HostAct} (h : hostAct s a = .next t) (hw : s.mem.wf s.config) :
    t.mem.wf t.config := by
  rcases hostAct_cases h with ⟨addr, -, -, rfl⟩ | ⟨addr, v, -, -, rfl⟩ | ⟨-, rfl⟩
  · exact hw
  · simpa using s.busWrite_wf addr v hw
  · exact Memory.powerOn_wf _ _

/-- Every step keeps the memories in their form. -/
theorem step_keeps_memory_wf (h : step s = .next t) (hw : s.mem.wf s.config) : t.mem.wf t.config := by
  rcases step_cases h with ⟨-, h⟩ | ⟨a, rest, -, -, h⟩ | ⟨-, -, rfl⟩
  · unfold engineStep at h
    split at h
    · exact exec_keeps_memory_wf _ h hw
    · simp only [execIllegal, raise_eq, Host.Outcome.next.injEq] at h
      subst h
      exact hw
  · exact hostAct_keeps_memory_wf h hw
  · exact hw

/-- The word a host reads while no command is pending. -/
theorem State.readValue_idle (s : State) (off : Nat) (hb : s.seq.busy = false) :
    s.readValue off = s.readTarget (decodeOffset s.config off) := by simp [State.readValue, hb]

end Sys2Proof.Machine
end

