-- ==== Sys2Proof/Laws/HostCodec.lean ====
section
/-! SUPPORT. The host-side reader of containers: what it loads does not change what it reads. -/

namespace Sys2Proof.Machine

/-- The container loadContainer gives, or its error, is that of the checks alone. -/
theorem loadContainer_snd (magic : Word) (bs : List Byte) (s : State) :
    (loadContainer magic bs s).2 = parseContainer magic s.config.nsymMax bs := by
  unfold loadContainer parseContainer
  cases parseHead magic s.config.nsymMax bs with
  | error e => rfl
  | ok h => cases ht : h.tail <;> simp [ht]

/-- A container that fails a check of R255 steps 1 to 3 loads nothing. -/
theorem loadContainer_of_head_error {magic : Word} {bs : List Byte} {s : State} {e : HostError}
    (h : parseHead magic s.config.nsymMax bs = .error e) : loadContainer magic bs s = (s, .error e) := by
  simp [loadContainer, h]

/-- Steps 1 to 3 leave a table of legal width with at least one and at most NSYM_MAX records. -/
theorem parseHead_ok {magic : Word} {nsymMax : Nat} {bs : List Byte} {h : ContainerHead}
    (ho : parseHead magic nsymMax bs = .ok h) :
    WidthOk h.width ∧ 1 ≤ h.count ∧ h.count ≤ nsymMax ∧ h.body = bs.drop 9 := by
  simp only [parseHead] at ho
  split at ho
  · cases ho
  · split at ho
    · cases ho
    · rename_i hw
      split at ho
      · cases ho
      · rename_i hl
        cases ho
        simp only [not_or, Nat.not_lt, Decidable.not_not] at hl hw ⊢
        obtain ⟨-, h0, hm, -, hn⟩ := hl
        refine ⟨hw.2, ?_, hn, trivial⟩
        rcases Nat.eq_zero_or_pos ((wordOfBytes ((bs.drop 5).take 4)).toNat / ((bs.getD 4 0#8).toNat + 5)) with hz | hp
        · have := Nat.div_add_mod (wordOfBytes ((bs.drop 5).take 4)).toNat ((bs.getD 4 0#8).toNat + 5)
          rw [hz, hm] at this
          simp only [Nat.mul_zero, Nat.add_zero] at this
          exact absurd this.symm h0
        · exact hp

/-- The table of a head has as many entries as the head says. -/
@[simp] theorem ContainerHead.table_length (h : ContainerHead) : h.table.length = h.count := by
  simp [ContainerHead.table, pieces]

end Sys2Proof.Machine
end

