-- ==== Sys2Proof/Laws/PerInstr.lean ====
section
/-! SUPPORT. Statements about every command, made per command: the family Encoding. -/

namespace Sys2Proof.Laws.Encoding

/-- The command is well formed, its word is legal, and the word decodes back to it (spec/30_encoding.md R110 to R112). -/
def Statement (i : Instr) : Prop := i.wellFormed = true ∧ illegal (encode i) = false ∧ decode (encode i) = .ok i

theorem nop : Statement .nop := ⟨rfl, rfl, rfl⟩
theorem build : Statement .build := ⟨rfl, rfl, rfl⟩
theorem derive : Statement .derive := ⟨rfl, rfl, rfl⟩
theorem packBegin : Statement .packBegin := ⟨rfl, rfl, rfl⟩
theorem packToken : Statement .packToken := ⟨rfl, rfl, rfl⟩
theorem packEnd : Statement .packEnd := ⟨rfl, rfl, rfl⟩
theorem rebuild : Statement .rebuild := ⟨rfl, rfl, rfl⟩
theorem unpackBegin : Statement .unpackBegin := ⟨rfl, rfl, rfl⟩
theorem unpackWord (last : Bool) : Statement (.unpackWord last) := by cases last <;> exact ⟨rfl, rfl, rfl⟩
theorem unpackEnd : Statement .unpackEnd := ⟨rfl, rfl, rfl⟩

end Sys2Proof.Laws.Encoding
end

