-- ==== Sys2Proof/Tests/Slice0.lean ====
section
/-! SUPPORT. Tests: ill-formed words and accesses refused, each command's word decoded bit by bit, one step of each command
against the vectors of spec/95_test_vectors.md, and a witness of the hypotheses of each statement that has any. -/

namespace Sys2Proof.Tests

set_option Elab.async false -- one theorem at a time: each waiting one holds a thread

open Sys2Proof Sys2Proof.Machine

/-! ## A small block to test on -/

/-- The state a command leaves. -/
def ran (i : Instr) (s : State) : State :=
  match exec i s with
  | .next t => t
  | .fault _ => s
  | .refused _ => s

theorem exec_ran (i : Instr) (s : State) : exec i s = .next (ran i s) := by
  obtain ⟨t, c, h, -⟩ := exec_completes i s
  rw [ran, h]

/-- The state a host action leaves. -/
def acted (s : State) (a : HostAct) : State :=
  match hostAct s a with
  | .next t => t
  | .fault _ => s
  | .refused _ => s

theorem write_acted (s : State) (off : Nat) (v : Word) (h : AccessOk 4 off) :
    hostAct s (.write 4 off v) = .next (acted s (.write 4 off v)) := by
  simp only [acted, hostAct, if_pos h]

theorem read_acted (s : State) (off : Nat) (h : AccessOk 4 off) :
    hostAct s (.read 4 off) = .next (acted s (.read 4 off)) := by
  simp only [acted, hostAct, if_pos h]

/-- A property of each element of a list, by evaluation. -/
theorem all_mem {α : Type} {p : α → Prop} [DecidablePred p] (l : List α) (h : l.all (fun x => decide (p x)) = true) :
    ∀ x ∈ l, p x := by
  simpa using h

/-- The same of a whole step. -/
def stepped (s : State) : State :=
  match step s with
  | .next t => t
  | .fault _ => s
  | .refused _ => s

def sy (tok cnt : Word) : SymEntry := { token := tok, count := cnt }

def cd (tok cw : Word) (len : Byte) : CodeEntry := { token := tok, cw := cw, len := len }

def leafRec (hasPar bit : Bool) (parent : Word) (weight : Weight) (tok : Word) : NodeRec :=
  { leaf := true, hasPar := hasPar, bit := bit, parent := parent, c1 := 0#32, c0 := 0#32, weight := weight, token := tok }

def innerRec (hasPar bit : Bool) (parent c1 c0 : Word) (weight : Weight) : NodeRec :=
  { leaf := false, hasPar := hasPar, bit := bit, parent := parent, c1 := c1, c0 := c0, weight := weight, token := 0#32 }

/-- A reset block with `n` entries of SYM and CODE, all memories zero but for the table entries given, NSYM their number. -/
def block (n : Nat) (sym : List SymEntry) (code : List CodeEntry) : State :=
  { config := { nsymMax := n }, ctrl := .reset, seq := .reset,
    regs := { OperandRegs.reset with nsym := BitVec.ofNat 32 (max sym.length code.length) },
    tree := .reset, pk := .reset, up := .reset,
    mem := { sym := writePrefix sym (List.replicate n (sy 0#32 0#32)),
             code := writePrefix code (List.replicate n (cd 0#32 0#32 0#8)),
             node := List.replicate (2 * n - 1) (leafRec false false 0#32 0#64 0#32), tbuf := List.replicate 32 0#32 },
    host := .idle, draws := 4 }

/-- SYM of V1.1, abracadabra. -/
def symAbra : List SymEntry := [sy 0x63#32 1#32, sy 0x64#32 1#32, sy 0x62#32 2#32, sy 0x72#32 2#32, sy 0x61#32 5#32]

/-- CODE of V1.1. -/
def codeAbra : List CodeEntry :=
  [cd 0x63#32 3#32 3#8, cd 0x64#32 2#32 3#8, cd 0x62#32 1#32 3#8, cd 0x72#32 0#32 3#8, cd 0x61#32 1#32 1#8]

/-- NODE of V1.1, as the table of the vector gives it. -/
def nodeAbra : List NodeRec :=
  [leafRec true true 5#32 1#64 0x63#32, leafRec true false 5#32 1#64 0x64#32, leafRec true true 6#32 2#64 0x62#32,
    leafRec true false 6#32 2#64 0x72#32, leafRec true true 8#32 5#64 0x61#32]
  ++ [innerRec true true 7#32 0#32 1#32 2#64, innerRec true false 7#32 2#32 3#32 4#64,
    innerRec true false 8#32 5#32 6#32 6#64, innerRec false false 0#32 4#32 7#32 11#64]

/-- V1.1 before BUILD. -/
def lab : State := block 5 symAbra []

/-- V1.1 after BUILD, and after DERIVE: the tree and the table of the vector. -/
def built : State :=
  { block 5 symAbra codeAbra with
    tree := { valid := true, degen := false, root := 8#32, nnodes := 9#32, maxlen := 3#32 },
    mem := { (block 5 symAbra codeAbra).mem with node := nodeAbra } }

/-- V2: a stream is open, the next token is 'a'. -/
def packing : State := { built with pk := .opened, regs := { built.regs with token := 0x61#32 } }

/-- V4: a stream is open at the root, WORD and UP_TZB of V4.1 in place. -/
def unpacking : State :=
  { built with up := { state := .run, node := 8#32, tcount := 0#32, wcnt := 0#32, tokcnt := 0#32 },
               regs := { built.regs with word := 0x91752200#32, upTzb := 9#8 } }

/-- V1.5: the degenerate tree of one leaf. -/
def single : State :=
  { block 5 [sy 0x61#32 4#32] [cd 0x61#32 0#32 0#8] with
    tree := { valid := true, degen := true, root := 0#32, nnodes := 1#32, maxlen := 0#32 },
    mem := { (block 5 [sy 0x61#32 4#32] [cd 0x61#32 0#32 0#8]).mem with
             node := (block 5 [] []).mem.node.set 0 (leafRec false false 0#32 4#64 0x61#32) } }

/-- A command word pending, the engine next. -/
def pend (w : Word) (s : State) : State := { s with seq := { s.seq with pending := w, busy := true } }

def withWidth (n : BitVec 3) (s : State) : State := { s with ctrl := { s.ctrl with tokw := n } }

def withCount (n : Word) (s : State) : State := { s with regs := { s.regs with nsym := n } }

def withUp (u : UpState) (s : State) : State := { s with up := { s.up with state := u } }

/-! ## Ill-formed terms are refused (the smoke test of WellFormed) -/

theorem test_unknown_opcode_refused : decode 0x0000000A#32 = .error .unknownOpcode := by rfl

theorem test_reserved_bits_refused : decode 0x80000001#32 = .error .reservedBits := by rfl

theorem test_last_on_other_command_refused : decode 0x00000104#32 = .error .lastNotAllowed := by rfl

theorem test_last_on_nop_refused : decodeTableWord 32 0x100 = none := by rfl

theorem test_every_command_is_well_formed : ∀ i : Instr, i.wellFormed = true := by intro i; cases i <;> rfl

theorem test_narrow_access_refused : ¬ AccessOk 2 0x14 := by decide

theorem test_misaligned_access_refused : ¬ AccessOk 4 0x16 := by decide

theorem test_access_past_the_window_refused : ¬ AccessOk 4 0x100000 ∧ AccessOk 4 0xFFFFC := by decide

theorem test_illegal_configurations : ¬ Config.Legal { nsymMax := 1 } ∧ ¬ Config.Legal { nsymMax := 4097 } := by decide

theorem test_short_memory_is_ill_formed : ¬ Memory.wf { nsymMax := 6 } lab.mem ∧ Memory.wf { nsymMax := 5 } lab.mem := by
  decide

/-! ## Decoding: words written out from spec/30_encoding.md R110 (23 zero bits, LAST, OPCODE) and R111 -/

theorem test_decode_nop : decode 0b00000000000000000000000_0_00000000#32 = .ok .nop := by rfl

theorem test_decode_build : decode 0b00000000000000000000000_0_00000001#32 = .ok .build := by rfl

theorem test_decode_derive : decode 0b00000000000000000000000_0_00000010#32 = .ok .derive := by rfl

theorem test_decode_pack_begin : decode 0b00000000000000000000000_0_00000011#32 = .ok .packBegin := by rfl

theorem test_decode_pack_token : decode 0b00000000000000000000000_0_00000100#32 = .ok .packToken := by rfl

theorem test_decode_pack_end : decode 0b00000000000000000000000_0_00000101#32 = .ok .packEnd := by rfl

theorem test_decode_rebuild : decode 0b00000000000000000000000_0_00000110#32 = .ok .rebuild := by rfl

theorem test_decode_unpack_begin : decode 0b00000000000000000000000_0_00000111#32 = .ok .unpackBegin := by rfl

theorem test_decode_unpack_word : decode 0b00000000000000000000000_0_00001000#32 = .ok (.unpackWord false) := by rfl

theorem test_decode_unpack_word_last : decode 0b00000000000000000000000_1_00001000#32 = .ok (.unpackWord true) := by rfl

theorem test_decode_unpack_end : decode 0b00000000000000000000000_0_00001001#32 = .ok .unpackEnd := by rfl

/-! ## One step of each command, from the vectors -/

/-- V5.4: ERR stays. -/
theorem test_nop_keeps_err :
    (ran .nop { lab with seq := { lab.seq with err := true } }).statusWord = 0x00000006#32 := by decide +kernel

/-- V1.1: the tree. -/
theorem test_build_abracadabra :
    (ran .build (pend 1#32 lab)).mem.node = nodeAbra ∧ (ran .build (pend 1#32 lab)).statusWord = 0x01000012#32 := by
  decide +kernel

/-- V1.7: two tokens equal in their low 8 bits. -/
theorem test_build_duplicate_tokens :
    (ran .build (pend 1#32 (block 5 [sy 0x61#32 1#32, sy 0x161#32 2#32] []))).statusWord = 0x01030006#32 := by decide +kernel

/-- V1.1: the table. -/
theorem test_derive_abracadabra :
    (ran .derive (pend 2#32 { built with mem := { built.mem with code := lab.mem.code } })).mem.code = codeAbra
      ∧ (ran .derive (pend 2#32 built)).tree.maxlen = 3#32 := by decide +kernel

/-- V1.8: no tree. -/
theorem test_derive_without_a_tree : (ran .derive (pend 2#32 lab)).statusWord = 0x02050006#32 := by decide +kernel

/-- V2.1, V2.11. -/
theorem test_pack_begin :
    (ran .packBegin (pend 3#32 built)).statusWord = 0x03000112#32
      ∧ (ran .packBegin { packing with pk := { packing.pk with acc := 1#32, free := 29#32 } }).pk.free = 32#32 := by
  decide +kernel

/-- V2.1: token 2, 'b', appends 001. -/
theorem test_pack_token_b :
    let p := (ran .packToken { packing with regs := { packing.regs with token := 0x62#32 },
                                            pk := { packing.pk with acc := 1#32, free := 31#32 } }).pk
    p.acc = 9#32 ∧ p.free = 28#32 ∧ p.outValid = false := by decide +kernel

/-- V2.5: the second 31-bit codeword flushes a word. -/
theorem test_pack_token_flushes :
    let s := block 5 [] [cd 0x41#32 0x7FFFFFFF#32 31#8]
    let p := (ran .packToken { s with regs := { s.regs with token := 0x41#32 },
                                      pk := { Packer.opened with acc := 0x7FFFFFFF#32, free := 1#32 } }).pk
    p.out = 0xFFFFFFFF#32 ∧ p.outValid = true ∧ p.acc = 0x3FFFFFFF#32 ∧ p.free = 2#32 := by decide +kernel

/-- V2.1: the end of the stream. -/
theorem test_pack_end :
    let p := (ran .packEnd { packing with pk := { packing.pk with acc := 0x0048BA91#32, free := 9#32 } }).pk
    p.out = 0x91752200#32 ∧ p.tzb = 9#32 ∧ p.wcnt = 1#32 ∧ p.state = .idle := by decide +kernel

/-- V2.8: nothing packed, nothing flushed. -/
theorem test_pack_end_of_an_empty_stream : (ran .packEnd (pend 5#32 packing)).statusWord = 0x05000012#32 := by
  decide +kernel

/-- V3.1: the records of the tree. -/
theorem test_rebuild_abracadabra :
    let t := ran .rebuild (pend 6#32 built)
    t.mem.node.drop 5 = [innerRec false false 0#32 4#32 6#32 0#64, innerRec true false 5#32 7#32 8#32 0#64,
        innerRec true true 6#32 0#32 1#32 0#64, innerRec true false 6#32 2#32 3#32 0#64]
      ∧ t.tree.root = 5#32 := by decide +kernel

/-- V3.2: an incomplete code. -/
theorem test_rebuild_refuses_an_incomplete_code :
    (ran .rebuild (pend 6#32 (block 5 [] [cd 1#32 1#32 1#8, cd 2#32 0#32 2#8]))).statusWord = 0x06070006#32 := by
  decide +kernel

/-- V4, the start state. -/
theorem test_unpack_begin :
    (ran .unpackBegin (pend 7#32 built)).statusWord = 0x07000412#32 ∧ (ran .unpackBegin built).up.node = 8#32 := by
  decide +kernel

/-- V4.1: the eleven tokens of abracadabra. -/
theorem test_unpack_word_last :
    let t := ran (.unpackWord true) (pend 0x108#32 unpacking)
    t.mem.tbuf.take 11 = [0x61#32, 0x62#32, 0x72#32, 0x61#32, 0x63#32, 0x61#32, 0x64#32, 0x61#32, 0x62#32, 0x72#32, 0x61#32]
      ∧ t.up.tcount = 11#32 ∧ t.statusWord = 0x08000812#32 := by decide +kernel

/-- V4.2: one bit more ends inside a codeword. -/
theorem test_unpack_word_truncated :
    let t := ran (.unpackWord true) (pend 0x108#32 { unpacking with regs := { unpacking.regs with upTzb := 8#8 } })
    t.up.node = 7#32 ∧ t.up.tcount = 11#32 ∧ t.statusWord = 0x080A0016#32 := by decide +kernel

/-- V4.6: an empty payload. -/
theorem test_unpack_end_of_an_empty_payload :
    (ran .unpackEnd (pend 9#32 { unpacking with regs := { unpacking.regs with upTzb := 0#8 } })).statusWord
      = 0x09000012#32 := by decide +kernel

/-- V4.6: the same with UP_TZB 5. -/
theorem test_unpack_end_with_trailing_bits :
    (ran .unpackEnd (pend 9#32 { unpacking with regs := { unpacking.regs with upTzb := 5#8 } })).statusWord
      = 0x09090016#32 := by decide +kernel

/-- V5.5: an illegal word. -/
theorem test_illegal_word : (stepped (pend 0xFF#32 lab)).statusWord = 0xFF0D0006#32 := by decide +kernel

/-! ## The bus -/

/-- V5.1: ID, PARAM, CTRL, STATUS, PK_FREE after reset. -/
theorem test_reset_reads :
    State.reset.readValue 0x0 = 0x48554631#32 ∧ State.reset.readValue 0x4 = 0x1F040100#32
      ∧ State.reset.readValue 0x8 = 0x00000100#32 ∧ State.reset.readValue 0xC = 0#32 ∧ State.reset.readValue 0x34 = 32#32 := by
  decide +kernel

/-- V5.10 and V5.17: the bits CTRL and LEN have. -/
theorem test_written_bits :
    (acted lab (.write 4 0x8 0x7FFFFFFF#32)).readValue 0x8 = 0x00000701#32
      ∧ (acted lab (.write 4 0x20008 0x1FF#32)).readValue 0x20008 = 0xFF#32 := by decide +kernel

/-- V5.18 and V1.1: NODE is read-only; FLAGS of record 0. -/
theorem test_node_window :
    (acted built (.write 4 0x40018 0#32)).readValue 0x40018 = 0x63#32 ∧ built.readValue 0x40000 = 7#32 := by decide +kernel

/-- V5.19 (b): a write while BUSY is dropped, with HAZ. -/
theorem test_write_while_busy :
    let t := acted (pend 1#32 (withCount 0#32 lab)) (.write 4 0x14 7#32)
    t.regs.nsym = 0#32 ∧ (stepped t).statusWord = 0x0101000E#32 := by decide +kernel

/-- V5.14, V5.15: irq. -/
theorem test_irq :
    (acted (ran .nop lab) (.write 4 0x8 0x101#32)).irq = true
      ∧ (acted (acted (ran .nop lab) (.write 4 0x8 0x101#32)) (.write 4 0xC 2#32)).irq = false := by decide +kernel

/-- V5.20: a soft reset keeps SYM and CODE. -/
theorem test_soft_reset :
    let t := acted built (.write 4 0x8 0x80000000#32)
    t.statusWord = 0#32 ∧ t.tree.root = 0#32 ∧ t.mem.sym = symAbra ∧ t.mem.code = codeAbra := by decide +kernel

/-! ## The host's reader of containers (spec/46_host_codec.md R255) -/

/-- V8's container for the tag 0x4D304D31, with trailingZeroBits 7 and its last byte cut off: it fails at step 6, when the table
and UP_TZB are loaded. -/
theorem test_truncated_payload_loads_the_table :
    let bytes := [0x4D#8, 0x30#8, 0x4D#8, 0x31#8, 1#8, 0#8, 0#8, 0#8, 6#8] ++ [0x61#8, 0#8, 0#8, 0#8, 0#8, 0#8, 7#8, 0#8, 0#8, 0#8]
    let r := loadContainer 0x4D304D31#32 bytes lab
    r.1.regs.nsym = 1#32 ∧ r.1.regs.upTzb = 7#8 ∧ r.1.mem.code[0]? = some (cd 0x61#32 0#32 0#8)
      ∧ (decodeSource 0x4D304D31#32 bytes lab).error = some .format := by decide +kernel

/-! ## Witnesses: states and operands that meet the hypotheses of the statements, clause by clause -/

/-- A chain of 33 leaves, NNODES 65, ROOT 64: leaf 0 has 32 ancestors, leaf i the record 32 + i as parent. -/
def deep : State :=
  { block 33 [] [] with
    tree := { valid := true, degen := false, root := 64#32, nnodes := 65#32, maxlen := 0#32 },
    mem := { (block 33 [] []).mem with
      node := leafRec true true 33#32 1#64 0#32
          :: (List.range 32).map (fun i => leafRec true false (BitVec.ofNat 32 (33 + i)) 1#64 (BitVec.ofNat 32 (i + 1)))
        ++ innerRec true true 34#32 0#32 1#32 2#64
          :: (List.range 31).map (fun j => innerRec (decide (j < 30)) (decide (j < 30))
              (if j < 30 then BitVec.ofNat 32 (35 + j) else 0#32) (BitVec.ofNat 32 (33 + j)) (BitVec.ofNat 32 (j + 2))
              (BitVec.ofNat 64 (j + 3))) } }

/-- The full tree of V1.1, as data. -/
theorem built_tree_ok : TreeOk built := by
  refine ⟨by decide +kernel, by decide +kernel, by decide +kernel, by decide +kernel, ?_⟩
  refine ⟨by decide +kernel, by decide +kernel, by decide +kernel, by decide +kernel, by decide +kernel, by decide +kernel⟩

theorem single_tree_ok : TreeOk single := by
  refine ⟨by decide +kernel, by decide +kernel, by decide +kernel, by decide +kernel, ?_⟩
  refine ⟨by decide +kernel, by decide +kernel, by decide +kernel, by decide +kernel, by decide +kernel, by decide +kernel⟩

theorem built_ok : StateOk built := by decide +kernel

theorem lab_ok : StateOk lab := by decide +kernel

theorem single_ok : StateOk single := by decide +kernel

theorem built_inv : TreeInv built := ⟨fun _ => built_tree_ok, by decide +kernel⟩

theorem unpacking_inv : StateOk unpacking ∧ TreeInv unpacking :=
  ⟨by decide +kernel, fun _ => built_tree_ok, fun _ => by decide +kernel⟩

theorem witness_IllegalWordsAreExactlyTheUnmapped :
    illegal 0xFF#32 = true ∧ illegal 0x0A#32 = true ∧ illegal 0x09#32 = false ∧ illegal 0x200#32 = true
      ∧ illegal 0x108#32 = false ∧ illegal 0x109#32 = true ∧ lab.seq.busy = false
      ∧ (pend 0xFF#32 lab).seq.pending = 0xFF#32 := by decide +kernel

theorem witness_IllegalWordCompletesWithEIllegal :
    let s := pend 0x80000001#32 lab
    s.seq.busy = true ∧ (s.host.lag = 0 ∨ s.host.script = []) ∧ illegal s.seq.pending = true := by decide +kernel

theorem witness_EngineStepRunsTheDecodedCommand :
    (pend 0x108#32 unpacking).seq.busy = true
      ∧ ((pend 0x108#32 unpacking).host.lag = 0 ∨ (pend 0x108#32 unpacking).host.script = [])
      ∧ decode (pend 0x108#32 unpacking).seq.pending = .ok (.unpackWord true)
      ∧ decodeTableWord 32 0x108 = some (.unpackWord true) := ⟨rfl, .inl rfl, rfl, rfl⟩

theorem witness_CmdWriteIssuesWhileIdle : lab.seq.busy = false ∧ (pend 1#32 lab).seq.busy = true := by decide +kernel

theorem witness_CompletionWritesTheStatusFields :
    (pend 1#32 lab).seq.busy = true ∧ (pend 1#32 lab).host.lag = 0 ∧ lab.seq.busy = false := by decide +kernel

/-- A host that reads STATUS and writes NSYM before the command completes, and would reset after it. -/
def lagging : State :=
  { pend 1#32 lab with
    host := { script := [.read 4 0xC, .write 4 0x14 7#32, .rst], lag := 2, lags := [], readData := [] } }

theorem witness_PendingCommandCompletesWithinItsLag :
    lagging.seq.busy = true
      ∧ ∀ a ∈ lagging.host.script.take lagging.host.lag, a.ok = true ∧ a.resets lagging.config = false := by decide +kernel

theorem witness_NopOnlyCompletes :
    (0x100#32 : Word).setWidth 8 = 0x00#8 ∧ (0x100#32 : Word) ≠ 0#32
      ∧ (0x80000000#32 : Word).setWidth 8 = 0x00#8 ∧ (0x80000000#32 : Word) ≠ 0#32 := by decide

theorem witness_AccessesOutsideTheBusAreRefused :
    ¬ (2 = 4 ∧ 0x14 % 4 = 0 ∧ 0x14 < 0x100000) ∧ ¬ (4 = 4 ∧ 0x16 % 4 = 0 ∧ 0x16 < 0x100000)
      ∧ ¬ (4 = 4 ∧ 0x100000 % 4 = 0 ∧ 0x100000 < 0x100000) ∧ (4 = 4 ∧ 0xFFFFC % 4 = 0 ∧ 0xFFFFC < 0x100000) := by decide

/-- The last word of the window, and the last entry of each memory. -/
theorem witness_ReadsHaveNoSideEffect :
    0xFFFFC % 4 = 0 ∧ 0xFFFFC < 0x100000 ∧ built.config.Legal ∧ built.seq.busy = false
      ∧ 31 < 32 ∧ built.mem.tbuf[31]? = some 0#32
      ∧ 4 < built.config.nsymMax ∧ built.mem.sym[4]? = some (sy 0x61#32 5#32) ∧ built.mem.code[4]? = some (cd 0x61#32 1#32 1#8)
      ∧ 8 < 2 * built.config.nsymMax - 1
      ∧ built.mem.node[8]? = some (innerRec false false 0#32 4#32 7#32 11#64) := by decide +kernel

/-- At each of the five registers, at the first offset past them, and at the last word of the window. -/
theorem witness_ReadsWhileBusy :
    (pend 1#32 lab).seq.busy = true
      ∧ ∀ off ∈ [0x0, 0x4, 0x8, 0xC, 0x10, 0x14, 0xFFFFC], off % 4 = 0 ∧ off < 0x100000 := by decide +kernel

theorem witness_WritesWhileBusyAreDropped :
    (pend 1#32 lab).seq.busy = true ∧ (0x80000000#32 : Word).getLsbD 31 = true
      ∧ ¬ (0x8 = 0x8 ∧ (0x7FFFFFFF#32 : Word).getLsbD 31 = true) ∧ ¬ (0x14 = 0x8 ∧ (0x80000000#32 : Word).getLsbD 31 = true)
      ∧ ∀ off ∈ [0x8, 0x14, 0xFFFFC], off % 4 = 0 ∧ off < 0x100000 := by decide +kernel

/-- The smallest and the largest configuration, with the last index of each window and an offset past them. -/
theorem witness_AddressMapIsOneToOne :
    Config.Legal { nsymMax := 2 } ∧ Config.Legal { nsymMax := 4096 } ∧ 31 < 32 ∧ 4095 < 4096
      ∧ 8190 < Config.arenaSize { nsymMax := 4096 }
      ∧ decodeOffset { nsymMax := 4096 } 0x7FFDC = .node 8190 .pad ∧ decodeOffset { nsymMax := 2 } 0x40060 = .reserved := by
  decide +kernel

/-- The first and the last word of each of the five ranges, for NSYM_MAX = 5. -/
theorem witness_ReservedWordsReadZeroAndIgnoreWrites :
    lab.config.Legal ∧ lab.seq.busy = false
      ∧ ∀ off ∈ [0x58, 0xFFC, 0x1080, 0xFFFC, 0x10028, 0x1FFFC, 0x20050, 0x3FFFC, 0x40120, 0xFFFFC],
          off % 4 = 0 ∧ off < 0x100000
            ∧ (0x58 ≤ off ∧ off < 0x1000 ∨ 0x1080 ≤ off ∧ off < 0x10000
              ∨ 0x10000 + 8 * lab.config.nsymMax ≤ off ∧ off < 0x20000
              ∨ 0x20000 + 16 * lab.config.nsymMax ≤ off ∧ off < 0x40000
              ∨ 0x40000 + 32 * (2 * lab.config.nsymMax - 1) ≤ off) := by decide +kernel

/-- Each kind of writable word, at the first and the last of the windows. -/
theorem witness_WritableWordsReadBack :
    StateOk lab ∧ lab.seq.busy = false ∧ (0x7FFFFFFF#32 : Word).getLsbD 31 = false
      ∧ (∀ off ∈ [0x8, 0x14, 0x18, 0x1C, 0x20, 0x10000, 0x10024, 0x20000, 0x20008, 0x2000C, 0x2004C, 0x2FFFC], AccessOk 4 off)
      ∧ 0x10000 ≤ 0x10024 ∧ 0x10024 < 0x10000 + 8 * lab.config.nsymMax
      ∧ 0x20000 ≤ 0x2004C ∧ 0x2004C < 0x20000 + 16 * lab.config.nsymMax ∧ AccessOk 4 0x24 ∧ 0x24 ≠ 0x20
      ∧ 4 < lab.config.nsymMax ∧ lab.mem.sym[4]? = some (sy 0x61#32 5#32) ∧ lab.mem.code[4]? = some (cd 0#32 0#32 0#8) := by
  decide +kernel

/-- The first and the last word of each range. -/
theorem witness_ReadOnlyWordsIgnoreWrites :
    built.seq.busy = false
      ∧ ∀ off ∈ [0x0, 0x4, 0x24, 0x54, 0x1000, 0x107C, 0x40000, 0xFFFFC], AccessOk 4 off
        ∧ (off ≤ 0x4 ∨ 0x24 ≤ off ∧ off ≤ 0x54 ∨ 0x1000 ≤ off ∧ off < 0x1080 ∨ 0x40000 ≤ off) := by decide +kernel

theorem witness_StatusWriteClearsWrittenOnes : (ran .derive lab).seq.busy = false ∧ (ran .derive lab).seq.err = true := by
  decide +kernel

/-- IE = 1 and DONE = 1. -/
def irqOn : State := acted (ran .nop lab) (.write 4 0x8 0x101#32)

/-- The completion of a command and of an illegal word, the writes that set and clear, and a write of CTRL that keeps IE. -/
theorem witness_IrqIsEnableAndDone :
    engineStep (pend 0#32 lab) = .next (ran .nop (pend 0#32 lab))
      ∧ engineStep (pend 0xFF#32 lab) = .next ((pend 0xFF#32 lab).complete .illegal)
      ∧ (ran .nop lab).seq.busy = false ∧ (0x101#32 : Word).getLsbD 31 = false
      ∧ hostAct (ran .nop lab) (.write 4 0x8 0x101#32) = .next irqOn
      ∧ irqOn.seq.busy = false ∧ (2#32 : Word).getLsbD 1 = true
      ∧ hostAct irqOn (.write 4 0xC 2#32) = .next (acted irqOn (.write 4 0xC 2#32))
      ∧ irqOn.irq = true ∧ (HostAct.write 4 0x8 0x401#32).resets irqOn.config = false
      ∧ (∀ size v, HostAct.write 4 0x8 0x401#32 = .write size 0xC v → v.getLsbD 1 = false)
      ∧ (∀ size v, HostAct.write 4 0x8 0x401#32 = .write size 0x8 v → v.getLsbD 0 = irqOn.ctrl.ie)
      ∧ hostAct irqOn (.write 4 0x8 0x401#32) = .next (acted irqOn (.write 4 0x8 0x401#32)) :=
  ⟨exec_ran .nop _, rfl, by decide +kernel, by decide, write_acted _ _ _ (by decide), by decide +kernel, by decide,
    write_acted _ _ _ (by decide), by decide +kernel, by decide +kernel, fun _ _ h => by simp at h,
    fun _ v h => by obtain ⟨-, rfl⟩ : 4 = _ ∧ 0x401#32 = v := by simpa using h
                    decide +kernel,
    write_acted _ _ _ (by decide)⟩

/-- With a BUILD, a DERIVE and a final UNPACK_WORD pending, and with none. -/
theorem witness_SoftResetResetsRegistersAndKeepsMemories :
    (0xFFFFFFFF#32 : Word).getLsbD 31 = true ∧ lab.seq.busy = false
      ∧ (pend 1#32 lab).seq.busy = true ∧ (pend 1#32 lab).seq.pending = 1#32
      ∧ (pend 2#32 built).seq.busy = true ∧ (pend 2#32 built).seq.pending = 2#32
      ∧ (pend 0x108#32 unpacking).seq.busy = true ∧ (pend 0x108#32 unpacking).seq.pending = 0x108#32 := by decide +kernel

/-- TOKW 0 and 7; NSYM 0; NSYM one past NSYM_MAX; two tokens equal in their low 8 bits. -/
theorem witness_BuildErrorsDropTheTree :
    StateOk (withWidth 0#3 lab) ∧ ¬ WidthOk (withWidth 0#3 lab).tokenWidth ∧ ¬ WidthOk (withWidth 7#3 lab).tokenWidth
      ∧ WidthOk (withCount 0#32 lab).tokenWidth ∧ (withCount 0#32 lab).count = 0
      ∧ (withCount 6#32 lab).config.nsymMax < (withCount 6#32 lab).count
      ∧ (let s := block 5 [sy 0x61#32 1#32, sy 0x161#32 2#32] []
         StateOk s ∧ WidthOk s.tokenWidth ∧ 0 < s.count ∧ s.count ≤ s.config.nsymMax
           ∧ ¬ DistinctTokens s.tokenWidth ((s.mem.sym.take s.count).map SymEntry.token)) := by decide +kernel

theorem witness_BuildOfOneLeafIsDegenerate :
    StateOk single ∧ WidthOk single.tokenWidth ∧ single.count = 1 ∧ single.mem.sym[0]? = some (sy 0x61#32 4#32) := by
  decide +kernel

/-- NSYM = NSYM_MAX = 5, and NSYM = 2. -/
theorem witness_BuildCompletes :
    StateOk lab ∧ WidthOk lab.tokenWidth ∧ 2 ≤ lab.count ∧ lab.count ≤ lab.config.nsymMax
      ∧ DistinctTokens lab.tokenWidth ((lab.mem.sym.take lab.count).map SymEntry.token)
      ∧ StateOk (withCount 2#32 lab) ∧ (withCount 2#32 lab).count = 2
      ∧ DistinctTokens 1 (((withCount 2#32 lab).mem.sym.take 2).map SymEntry.token) := by decide +kernel

theorem witness_BuildMakesAFullBinaryTree :
    StateOk lab ∧ 2 ≤ lab.count ∧ exec .build lab = .next (ran .build lab) ∧ (ran .build lab).seq.errcode = .ok :=
  ⟨lab_ok, by decide +kernel, exec_ran _ _, by decide +kernel⟩

theorem witness_BuildRootWeighsAllCounts :
    StateOk single ∧ 1 ≤ single.count ∧ exec .build single = .next (ran .build single)
      ∧ (ran .build single).seq.errcode = .ok := ⟨single_ok, by decide +kernel, exec_ran _ _, by decide +kernel⟩

theorem witness_BuildInternalWeightsNeverDecrease :
    StateOk lab ∧ 2 ≤ lab.count ∧ SortedByCount (lab.mem.sym.take lab.count) ∧ exec .build lab = .next (ran .build lab)
      ∧ (ran .build lab).seq.errcode = .ok ∧ lab.count ≤ 7 ∧ 7 + 1 < 2 * lab.count - 1 :=
  ⟨lab_ok, by decide, by decide +kernel, exec_ran _ _, by decide +kernel, by decide, by decide⟩

/-- V1.1's tie: leaf 'b' against record 5, both of weight 2; and the internals queue with no leaf left and two records, the
fewest a merge can have. -/
theorem witness_PopPrefersTheLeafOnEqualWeights :
    (let q : MergeState := { arena := nodeAbra, lh := 2, ih := 5, next := 6 }
     (q.lh < 5 ∧ (q.ih = q.next ∨ (nodeAt q.arena q.lh).weight ≤ (nodeAt q.arena q.ih).weight))
       ∧ q.lh ≤ 5 ∧ 5 ≤ q.ih ∧ q.ih ≤ q.next ∧ 2 ≤ (5 - q.lh) + (q.next - q.ih) ∧ q.next < q.arena.length)
      ∧ (let q : MergeState := { arena := nodeAbra, lh := 5, ih := 6, next := 8 }
         ¬ (q.lh < 5 ∧ (q.ih = q.next ∨ (nodeAt q.arena q.lh).weight ≤ (nodeAt q.arena q.ih).weight))
           ∧ q.lh ≤ 5 ∧ 5 ≤ q.ih ∧ q.ih ≤ q.next ∧ 2 ≤ (5 - q.lh) + (q.next - q.ih) ∧ q.next < q.arena.length) := by
  decide +kernel

theorem witness_DeriveErrorsChangeNothing :
    lab.tree.valid = false ∧ deep.tree.valid = true
      ∧ ∃ i < deep.leaves, ∀ j ≤ 31, (nodeAt deep.mem.node ((parentOf deep.mem.node)^[j] i)).hasPar = true :=
  ⟨rfl, rfl, 0, by decide +kernel, by decide +kernel⟩

theorem built_depths :
    ∀ i < built.leaves, ∃ d ≤ 31, (nodeAt built.mem.node ((parentOf built.mem.node)^[d] i)).hasPar = false := by
  have h : ∀ i < built.leaves, ∃ d < 4, (nodeAt built.mem.node ((parentOf built.mem.node)^[d] i)).hasPar = false := by
    decide +kernel
  intro i hi
  obtain ⟨d, hd, hp⟩ := h i hi
  exact ⟨d, by omega, hp⟩

theorem witness_DeriveCompletes :
    StateOk built ∧ built.tree.valid = true ∧ TreeOk built
      ∧ ∀ i < built.leaves, ∃ d ≤ 31, (nodeAt built.mem.node ((parentOf built.mem.node)^[d] i)).hasPar = false :=
  ⟨built_ok, rfl, built_tree_ok, built_depths⟩

theorem witness_DegenerateTreeGetsTheEmptyCode :
    StateOk single ∧ single.tree.valid = true ∧ TreeOk single ∧ single.tree.degen = true :=
  ⟨single_ok, rfl, single_tree_ok, rfl⟩

theorem witness_DerivedCodesAreRootPaths :
    StateOk built ∧ built.tree.valid = true ∧ TreeOk built ∧ exec .derive built = .next (ran .derive built)
      ∧ (ran .derive built).seq.errcode = .ok := ⟨built_ok, rfl, built_tree_ok, exec_ran _ _, by decide +kernel⟩

theorem witness_DerivedTableIsPrefixFree :
    StateOk built ∧ built.tree.valid = true ∧ TreeOk built ∧ exec .derive built = .next (ran .derive built)
      ∧ (ran .derive built).seq.errcode = .ok ∧ 2 ≤ built.leaves :=
  ⟨built_ok, rfl, built_tree_ok, exec_ran _ _, by decide +kernel, by decide⟩

/-- The codeword fits exactly (n = r), and it does not (n = r + 1). -/
theorem witness_PackTokenAppendsTheCodeword :
    packing.config.Legal ∧ packing.mem.wf packing.config ∧ packing.pk.state = .active ∧ WidthOk packing.tokenWidth
      ∧ packing.count ≤ packing.config.nsymMax ∧ FoundAt packing 4 ∧ (codeAt packing.mem.code 4).length ≤ 31
      ∧ (let s := { packing with regs := { packing.regs with token := 0x62#32 } }
         FoundAt s 2 ∧ (codeAt s.mem.code 2).length ≤ { s.pk with free := 3#32 }.free.toNat
           ∧ ¬ (codeAt s.mem.code 2).length ≤ { s.pk with free := 2#32 }.free.toNat) := by decide +kernel

/-- An entry of LEN 32, one past the limit. -/
def longEntry : State :=
  { block 5 [] [cd 0x61#32 0#32 32#8] with
    pk := .opened, regs := { (block 5 [] [cd 0x61#32 0#32 32#8]).regs with token := 0x61#32 } }

theorem witness_PackTokenErrorsChangeNothing :
    lab.mem.wf lab.config ∧ lab.pk.state = .idle
      ∧ packing.mem.wf packing.config ∧ (withWidth 5#3 packing).pk.state = .active ∧ ¬ WidthOk (withWidth 5#3 packing).tokenWidth
      ∧ (withCount 6#32 packing).config.nsymMax < (withCount 6#32 packing).count
      ∧ (∀ i < (withCount 4#32 packing).count, tokMask (withCount 4#32 packing).tokenWidth
          (codeAt (withCount 4#32 packing).mem.code i).token
            ≠ tokMask (withCount 4#32 packing).tokenWidth (withCount 4#32 packing).regs.token)
      ∧ longEntry.mem.wf longEntry.config ∧ longEntry.pk.state = .active ∧ WidthOk longEntry.tokenWidth
      ∧ longEntry.count ≤ longEntry.config.nsymMax ∧ FoundAt longEntry 0
      ∧ 31 < (codeAt longEntry.mem.code 0).length := by decide +kernel

theorem witness_PackEndFlushesAndCloses :
    lab.pk.state = .idle ∧ packing.pk.state = .active ∧ packing.pk.free = 32#32
      ∧ (ran .packToken packing).pk.state = .active ∧ (ran .packToken packing).pk.free ≠ 32#32 := by decide +kernel

/-- Codewords of 31, 31 and 0 bits, and no codeword at all. -/
theorem witness_StreamHoldsTheCodewordBits :
    (∀ e ∈ [cd 1#32 0x7FFFFFFF#32 31#8, cd 2#32 5#32 31#8, cd 3#32 1#32 0#8], e.length ≤ 31)
      ∧ (∀ e ∈ ([] : List CodeEntry), e.length ≤ 31) := by decide

/-- V3.2: the single entry (7, 0, 5), and one of the largest length. -/
theorem witness_RebuildOfOneEntryIsDegenerate :
    ∀ len ∈ [0#8, 5#8, 31#8], let s := block 5 [] [cd 7#32 0#32 len]
      StateOk s ∧ WidthOk s.tokenWidth ∧ s.count = 1 ∧ (codeAt s.mem.code 0).length ≤ 31 := by decide +kernel

/-- V3.2: an incomplete code. -/
def incomplete : State := block 5 [] [cd 1#32 1#32 1#8, cd 2#32 0#32 2#8]

theorem witness_RebuildErrorsDropTheTree :
    built.mem.wf built.config ∧ ¬ WidthOk (withWidth 7#3 built).tokenWidth ∧ WidthOk built.tokenWidth
      ∧ (withCount 0#32 built).count = 0 ∧ (withCount 6#32 built).config.nsymMax < (withCount 6#32 built).count
      ∧ 0 < longEntry.count ∧ longEntry.count ≤ longEntry.config.nsymMax
      ∧ (∃ i < longEntry.count, 31 < (codeAt longEntry.mem.code i).length)
      ∧ incomplete.mem.wf incomplete.config ∧ exec .rebuild incomplete = .next (ran .rebuild incomplete)
      ∧ (ran .rebuild incomplete).seq.errcode ≠ .ok :=
  ⟨by decide, by decide, by decide, by decide, by decide, by decide, by decide, by decide +kernel, by decide, exec_ran _ _,
    by decide +kernel⟩

/-- The code of V1.1, which is complete, and the incomplete one. -/
theorem witness_RebuildAcceptsExactlyCompletePrefixCodes :
    (StateOk built ∧ WidthOk built.tokenWidth ∧ 2 ≤ built.count ∧ built.count ≤ built.config.nsymMax
      ∧ CompletePrefixCode built.mem.code built.count)
      ∧ (StateOk incomplete ∧ WidthOk incomplete.tokenWidth ∧ incomplete.count = 2
        ∧ ¬ CompletePrefixCode incomplete.mem.code incomplete.count) :=
  ⟨⟨built_ok, by decide, by decide +kernel, by decide +kernel, by decide +kernel, by decide +kernel, by decide +kernel⟩,
    by decide +kernel, by decide, by decide +kernel,
    fun h => absurd h.2.2 (by decide +kernel : kraftSum incomplete.mem.code incomplete.count ≠ 2 ^ 31)⟩

theorem witness_RebuiltTreeIsTheTrieOfTheCodes :
    StateOk built ∧ 2 ≤ built.count ∧ exec .rebuild built = .next (ran .rebuild built)
      ∧ (ran .rebuild built).seq.errcode = .ok := ⟨built_ok, by decide +kernel, exec_ran _ _, by decide +kernel⟩

theorem witness_DeriveAfterRebuildRestoresTheTable :
    StateOk built ∧ 2 ≤ built.count
      ∧ (∀ i < built.count, (codeAt built.mem.code i).cw = (codeAt built.mem.code i).codeword)
      ∧ exec .rebuild built = .next (ran .rebuild built) ∧ (ran .rebuild built).seq.errcode = .ok :=
  ⟨built_ok, by decide, by decide +kernel, exec_ran _ _, by decide +kernel⟩

theorem witness_UnpackBeginOpensAStream :
    lab.tree.valid = false ∧ single.tree.valid = true ∧ single.tree.degen = true ∧ built.tree.valid = true
      ∧ built.tree.degen = false := by decide

/-- From the root, bit 1 leads to the leaf 'a' and bit 0 to the internal record 7. -/
theorem witness_DescendEmitsAtLeaves :
    (nodeAt nodeAbra (nodeAt nodeAbra 8).c1.toNat).leaf = true ∧ (nodeAt nodeAbra (nodeAt nodeAbra 8).c0.toNat).leaf = false := by
  decide +kernel

/-- UP_TZB at both ends of its range. -/
theorem witness_UnpackWordDecodesTheWord :
    ∀ z ∈ [0#8, 9#8, 31#8], let s := { unpacking with regs := { unpacking.regs with upTzb := z } }
      s.mem.wf s.config ∧ s.up.state = .run ∧ s.regs.upTzb.toNat ≤ 31 := by decide +kernel

/-- UP_TZB one past its range. -/
theorem witness_UnpackWordErrorsBeforeTheLoop :
    built.up.state = .idle ∧ (withUp .done unpacking).up.state = .done
      ∧ (let s := { unpacking with regs := { unpacking.regs with upTzb := 32#8 } }
         s.up.state = .run ∧ 31 < s.regs.upTzb.toNat) := by decide +kernel

theorem witness_UnpackEndClosesTheStream :
    built.up.state = .idle ∧ (withUp .done unpacking).up.state = .done ∧ unpacking.up.state = .run
      ∧ (ran (.unpackWord false) unpacking).up.state = .run ∧ (ran (.unpackWord false) unpacking).up.wcnt ≠ 0#32
      ∧ unpacking.up.wcnt = 0#32 ∧ unpacking.regs.upTzb ≠ 0#8 := by decide +kernel

/-- The 9 padding bits of V4.1's word, all set. -/
theorem witness_PaddingBitsAreNeverRead :
    ∀ j < 32, unpacking.regs.upTzb.toNat ≤ j →
      (0x91752200#32 : Word).getLsbD j = (0x917523FF#32 : Word).getLsbD j := by decide +kernel

/-- The eleven tokens of abracadabra, the last with a bit set above its low 8. -/
def tokensAbra : List Word :=
  [0x61#32, 0x62#32, 0x72#32, 0x61#32, 0x63#32, 0x61#32, 0x64#32, 0x61#32, 0x62#32, 0x72#32, 0x161#32]

theorem witness_UnpackRestoresThePackedTokens :
    StateOk built ∧ TreeInv built ∧ built.seq.busy = false ∧ built.tree.valid = true ∧ built.tree.degen = false
      ∧ WidthOk built.tokenWidth ∧ built.count = built.leaves
      ∧ (∀ i < built.leaves, (codeOf built.mem.node i).len ≤ 31 ∧ codeAt built.mem.code i = derivedEntry built.mem.node i
        ∧ tokMask built.tokenWidth (codeAt built.mem.code i).token = (codeAt built.mem.code i).token)
      ∧ tokensAbra ≠ []
      ∧ (∀ x ∈ tokensAbra, ∃ i < built.leaves,
          tokMask built.tokenWidth (codeAt built.mem.code i).token = tokMask built.tokenWidth x) :=
  ⟨built_ok, built_inv, rfl, rfl, rfl, by decide +kernel, by decide +kernel, by decide +kernel, by decide,
    all_mem _ (by decide +kernel)⟩

theorem step_pending_next (i : Instr) (s : State) (h : s.seq.busy = true) (hl : s.host.lag = 0)
    (hd : decode s.seq.pending = .ok i) : step s = .next (ran i s) := by
  have ht : s.turn = .engine := by
    unfold State.turn
    split <;> simp [h, hl]
  simp only [step, ht, engineStep, hd]
  exact exec_ran i s

/-- A command, a host write and a reset. -/
theorem witness_StepKeepsRegistersAndMemoriesInRange :
    StateOk (pend 1#32 lab) ∧ step (pend 1#32 lab) = .next (ran .build (pend 1#32 lab)) ∧ StateOk lagging
      ∧ step lagging = .next (acted (lagging.takeAct [.write 4 0x14 7#32, .rst]) (.read 4 0xC)) :=
  ⟨by decide +kernel, step_pending_next .build _ rfl rfl rfl, by decide +kernel,
    (show step lagging = hostAct (lagging.takeAct [.write 4 0x14 7#32, .rst]) (.read 4 0xC) from rfl).trans
      (read_acted _ _ (by decide))⟩

/-- An open stream and its next word. -/
theorem witness_StepKeepsTheTreeValid :
    StateOk (pend 8#32 unpacking) ∧ TreeInv (pend 8#32 unpacking)
      ∧ step (pend 8#32 unpacking) = .next (ran (.unpackWord false) (pend 8#32 unpacking)) :=
  ⟨by decide +kernel, unpacking_inv.2, step_pending_next (.unpackWord false) _ rfl rfl rfl⟩

/-- For every command a state it completes from. -/
theorem witness_CommandsWriteOnlyTheirState : ∀ i : Instr, exec i unpacking = .next (ran i unpacking) := fun i => exec_ran i _

theorem witness_StickyFlagsAreNeverRead : exec .build lab = .next (ran .build lab) := exec_ran _ _

/-- BUILD makes the tree valid; a PACK_TOKEN that flushes sets PK_OUTVALID; a write while BUSY sets HAZ. -/
theorem witness_FlagsHaveOnlyTheirWriters :
    step (pend 1#32 lab) = .next (ran .build (pend 1#32 lab)) ∧ (ran .build (pend 1#32 lab)).tree.valid ≠ lab.tree.valid
      ∧ (let s := pend 4#32 { packing with pk := { packing.pk with acc := 1#32, free := 0#32 } }
         (ran .packToken s).pk.outValid ≠ s.pk.outValid)
      ∧ (let s := { lagging with host := { lagging.host with script := lagging.host.script.tail } }
         s.seq.haz = false ∧ (stepped s).seq.haz = true) :=
  ⟨step_pending_next .build _ rfl rfl rfl, by decide +kernel, by decide +kernel, by decide +kernel⟩

/-- A container of two-byte tokens for the smallest block, and a one-record one. -/
theorem witness_ContainerReadsBack :
    ∀ c ∈ [({ width := 2, table := [cd 0x6364#32 1#32 1#8, cd 0x6162#32 0#32 1#8], tzb := 27#8,
              payload := [0x10000000#32] } : Container),
           { width := 4, table := [cd 0xFFFFFFFF#32 0#32 0#8], tzb := 0#8, payload := [4#32] }],
      WidthOk c.width ∧ 1 ≤ c.table.length ∧ c.table.length ≤ 2 ∧ 2 ≤ 4096
        ∧ ∀ e ∈ c.table, tokMask c.width e.token = e.token := by decide +kernel

end Sys2Proof.Tests
end

/-! PROOFS. spec/00_scope.md: which agent a step belongs to, what the host's actions leave of a pending command, and from these
the statements about stops (R22) and about the engine's fairness (R8). -/

namespace Sys2Proof.Machine

/-! ## Whose step it is (State.turn) -/

/-- A pending command whose lag has run out, or whose host has nothing left to do, is the engine's to complete. -/
theorem step_eq_engineStep {s : State} (hb : s.seq.busy = true) (hdue : s.host.lag = 0 ∨ s.host.script = []) :
    step s = engineStep s := by
  have ht : s.turn = .engine := by
    unfold State.turn
    cases hs : s.host.script with
    | nil => simp [hb]
    | cons a rest =>
      have hl : s.host.lag = 0 := by simpa [hs] using hdue
      simp [hb, hl]
  rw [step, ht]

/-- The host acts while the block is idle, and while a pending command still has lag. -/
theorem step_eq_hostAct {s : State} {a : HostAct} {rest : List HostAct} (hs : s.host.script = a :: rest)
    (hdue : s.seq.busy = false ∨ s.host.lag ≠ 0) : step s = hostAct (s.takeAct rest) a := by
  have ht : s.turn = .host a rest := by
    unfold State.turn
    rcases hdue with hb | hl
    · simp [hs, hb]
    · simp [hs, hl]
  simp only [step, ht, hostStep]

/-- An idle block at the end of its host's script rests (log entry 7). -/
theorem step_eq_self {s : State} (hb : s.seq.busy = false) (hs : s.host.script = []) : step s = .next s := by
  have ht : s.turn = .rest := by simp [State.turn, hs, hb]
  rw [step, ht]

/-- The first step of a run. -/
theorem run_succ_of_step {s t : State} (h : step s = .next t) (k : Nat) :
    Host.Core.run Sys2Proof.core (k + 1) s = Host.Core.run Sys2Proof.core k t := by
  have hc : Sys2Proof.core.step s = .next t := h
  simp only [Host.Core.run, hc]

/-! ## The engine's step and the sequencer -/

/-- Whatever word is pending, the engine's step is its completion, of the sequencer as it was (R141). -/
theorem engineStep_seq (s : State) : ∃ (t : State) (c : ErrCode), engineStep s = .next t ∧ t.seq = s.seq.complete c := by
  unfold engineStep
  split
  next i _ =>
    obtain ⟨u, c, h, -, -, hseq, -⟩ := exec_completes i s
    exact ⟨u.complete c, c, h, by rw [State.complete_seq, hseq]⟩
  next => exact ⟨s.complete .illegal, .illegal, rfl, rfl⟩

/-! ## The host's actions -/

/-- An action within R86 is performed, in every state. -/
theorem hostAct_of_ok (s : State) {a : HostAct} (h : a.ok = true) : ∃ t, hostAct s a = .next t := by
  cases a with
  | read size addr => exact ⟨_, if_pos (of_decide_eq_true h)⟩
  | write size addr v => exact ⟨_, if_pos (of_decide_eq_true h)⟩
  | rst => exact ⟨_, rfl⟩

/-- An action outside R86 is refused, in every state. -/
theorem hostAct_of_not_ok (s : State) {a : HostAct} (h : a.ok = false) : hostAct s a = .refused .badAccess := by
  cases a with
  | read size addr => exact if_neg (of_decide_eq_false h)
  | write size addr v => exact if_neg (of_decide_eq_false h)
  | rst => cases h

/-- While a command is pending, a write that is no soft reset is dropped (R89). -/
theorem State.busWrite_busy {s : State} (hb : s.seq.busy = true) {off : Nat} {v : Word}
    (hr : isSoftReset (decodeOffset s.config off) v = false) : s.busWrite off v = s.dropWrite := by
  simp [State.busWrite, hr, hb]

/-- An action of the host that resets nothing leaves a pending command pending, and the host's schedule as it was. -/
theorem hostAct_keeps_pending {s t : State} {a : HostAct} (h : hostAct s a = .next t) (hb : s.seq.busy = true)
    (hr : a.resets s.config = false) :
    t.config = s.config ∧ t.seq.busy = true ∧ t.seq.pending = s.seq.pending
      ∧ t.host.script = s.host.script ∧ t.host.lag = s.host.lag := by
  rcases hostAct_cases h with ⟨addr, -, -, rfl⟩ | ⟨addr, v, rfl, -, rfl⟩ | ⟨rfl, -⟩
  · exact ⟨rfl, hb, rfl, rfl, rfl⟩
  · rw [State.busWrite_busy hb hr]
    exact ⟨rfl, hb, rfl, rfl, rfl⟩
  · cases hr

/-! ## Stops (R22) -/

/-- A step that is the host's is performed or refused, as its access is within R86 or not. -/
theorem step_of_host_turn {s : State} {a : HostAct} {rest : List HostAct} (hs : s.host.script = a :: rest)
    (hdue : s.seq.busy = false ∨ s.host.lag ≠ 0) :
    (∃ t, step s = .next t) ∨ (step s = .refused .badAccess ∧ a.ok = false) := by
  rw [step_eq_hostAct hs hdue]
  cases hok : a.ok with
  | true => exact .inl (hostAct_of_ok _ hok)
  | false => exact .inr ⟨hostAct_of_not_ok _ hok, rfl⟩

/-- Settles O8: by whose step it is. The engine always completes, the idle block rests, and the host's action is refused only
outside R86. -/
theorem onlyBadAccessesAreRefused : Obligations.OnlyBadAccessesAreRefused := by
  intro s
  by_cases hengine : s.seq.busy = true ∧ (s.host.lag = 0 ∨ s.host.script = [])
  · obtain ⟨t, -, h, -⟩ := engineStep_seq s
    exact .inl ⟨t, (step_eq_engineStep hengine.1 hengine.2).trans h⟩
  · cases hs : s.host.script with
    | nil =>
      have hb : s.seq.busy = false := by simpa [hs] using hengine
      exact .inl ⟨s, step_eq_self hb hs⟩
    | cons a rest =>
      have hdue : s.seq.busy = false ∨ s.host.lag ≠ 0 := by
        cases hb : s.seq.busy with
        | false => exact .inl rfl
        | true => exact .inr fun hl => hengine ⟨hb, .inl hl⟩
      exact (step_of_host_turn hs hdue).imp_right fun ⟨h, hok⟩ => ⟨h, a, rest, rfl, hok⟩

/-! ## The engine's fairness (R8) -/

/-- The pending command of `s` completes within `n` steps. -/
def CompletesWithin (n : Nat) (s : State) : Prop :=
  ∃ k ≤ n, ∃ t : State, Host.Core.run Sys2Proof.core k s = .next t
    ∧ t.seq.busy = false ∧ t.seq.done = true ∧ t.seq.lastop = opcodeOf s.seq.pending

/-- When the engine is next, one step completes the command. -/
theorem completesWithin_of_engine_due {s : State} (hb : s.seq.busy = true)
    (hdue : s.host.lag = 0 ∨ s.host.script = []) (n : Nat) : CompletesWithin (n + 1) s := by
  obtain ⟨t, c, h, hseq⟩ := engineStep_seq s
  refine ⟨1, by omega, t, run_succ_of_step ((step_eq_engineStep hb hdue).trans h) 0, ?_⟩
  simp [hseq]

/-- A step that keeps the pending word adds one to the bound. -/
theorem CompletesWithin.of_step {s t : State} {n : Nat} (h : CompletesWithin n t) (hstep : step s = .next t)
    (hp : t.seq.pending = s.seq.pending) : CompletesWithin (n + 1) s := by
  obtain ⟨k, hk, u, hrun, hbusy, hdone, hlast⟩ := h
  exact ⟨k + 1, by omega, u, (run_succ_of_step hstep k).trans hrun, hbusy, hdone, hp ▸ hlast⟩

/-- By induction on the lag: each action of the host takes one off it and leaves the command pending. -/
theorem completesWithin_of_lag (n : Nat) {s : State} (hb : s.seq.busy = true) (hl : s.host.lag = n)
    (hacts : ∀ a ∈ s.host.script.take n, a.ok = true ∧ a.resets s.config = false) : CompletesWithin (n + 1) s := by
  induction n generalizing s with
  | zero => exact completesWithin_of_engine_due hb (.inl hl) 0
  | succ n ih =>
    cases hs : s.host.script with
    | nil => exact completesWithin_of_engine_due hb (.inr hs) _
    | cons a rest =>
      rw [hs, List.take_succ_cons, List.forall_mem_cons] at hacts
      obtain ⟨⟨hok, hreset⟩, hrest⟩ := hacts
      obtain ⟨t, hact⟩ := hostAct_of_ok (s.takeAct rest) hok
      obtain ⟨hconfig, htb, hpending, hscript, hlag⟩ := hostAct_keeps_pending hact hb hreset
      have htl : t.host.lag = n := by simp [hlag, hl]
      have htacts : ∀ a ∈ t.host.script.take n, a.ok = true ∧ a.resets t.config = false := by
        rw [hscript, hconfig]
        exact hrest
      have hstep : step s = .next t := (step_eq_hostAct hs (.inr (by omega))).trans hact
      exact (ih htb htl htacts).of_step hstep hpending

/-- Settles O9: the host's actions within the lag leave the command pending, and the engine's step after them completes it. -/
theorem pendingCommandCompletesWithinItsLag : Obligations.PendingCommandCompletesWithinItsLag :=
  fun _ hb hacts => completesWithin_of_lag _ hb rfl hacts

end Sys2Proof.Machine

/-! PROOFS. spec/10_state.md, the flags: STATUS's layout and its write-1-to-clear (R34), who writes the flags and that no
command reads the sticky ones (R52), and the invariants at reset (R55). -/

namespace Sys2Proof.Machine

variable {s t : State}

/-! ## Reset (R55) -/

/-- Settles O54: after reset there is neither a tree nor an open stream. -/
theorem resetMeetsTheInvariants : Obligations.ResetMeetsTheInvariants := by
  have hstate : StateOk State.reset :=
    ⟨by decide, reset_memory_wf, by decide, by decide, fun hopen => absurd rfl hopen⟩
  exact ⟨hstate, fun hvalid => absurd hvalid (by decide), fun hopen => absurd rfl hopen⟩

/-! ## The layout of STATUS and the writes to it (R34) -/

/-- A host write of STATUS while idle clears flags and does nothing else (R276). -/
theorem hostAct_write_status (v : Word) (hb : s.seq.busy = false) :
    hostAct s (.write 4 0xC v) = .next { s with seq := s.seq.clearFlags v } := by
  have hreg : decodeOffset s.config 0xC = .reg .status := rfl
  simp [hostAct, State.busWrite, hreg, isSoftReset, hb, State.writeTarget, State.writeReg]

/-- STATUS at the width its fields add up to, where the library's laws of `++` apply. -/
def State.statusFields (s : State) : BitVec (8 + 8 + 4 + 2 + 1 + 1 + 1 + 1 + 1 + 1 + 1 + 1 + 1 + 1) :=
  s.seq.lastop ++ s.seq.errcode.code ++ 0#4 ++ s.up.state.code ++ 0#1 ++ BitVec.ofBool s.pk.active ++ 0#1
    ++ BitVec.ofBool s.pk.outValid ++ BitVec.ofBool s.tree.degen ++ BitVec.ofBool s.tree.valid
    ++ BitVec.ofBool s.seq.haz ++ BitVec.ofBool s.seq.err ++ BitVec.ofBool s.seq.done ++ BitVec.ofBool s.seq.busy

theorem State.statusWord_eq_statusFields (s : State) : s.statusWord = s.statusFields := rfl

/-- The ten low bits of STATUS. -/
theorem State.statusWord_flags (s : State) :
    s.statusWord.getLsbD 0 = s.seq.busy ∧ s.statusWord.getLsbD 1 = s.seq.done ∧ s.statusWord.getLsbD 2 = s.seq.err
      ∧ s.statusWord.getLsbD 3 = s.seq.haz ∧ s.statusWord.getLsbD 4 = s.tree.valid ∧ s.statusWord.getLsbD 5 = s.tree.degen
      ∧ s.statusWord.getLsbD 6 = s.pk.outValid ∧ s.statusWord.getLsbD 7 = false ∧ s.statusWord.getLsbD 8 = s.pk.active
      ∧ s.statusWord.getLsbD 9 = false := by
  simp only [statusWord_eq_statusFields, statusFields, BitVec.getLsbD_append]
  simp

/-- The four fields above them: each is what stands before the fields below it, and ends where the next begins. -/
theorem State.statusWord_fields (s : State) :
    s.statusWord.extractLsb' 10 2 = s.up.state.code ∧ s.statusWord.extractLsb' 12 4 = 0#4
      ∧ s.statusWord.extractLsb' 16 8 = s.seq.errcode.code ∧ s.statusWord.extractLsb' 24 8 = s.seq.lastop := by
  rw [statusWord_eq_statusFields, statusFields]
  refine ⟨?_, ?_, ?_, ?_⟩
  · iterate 10 rw [BitVec.extractLsb'_append_eq_of_le (by decide)]
    rw [BitVec.extractLsb'_append_eq_of_add_le (by decide), BitVec.extractLsb'_eq_self]
  · iterate 11 rw [BitVec.extractLsb'_append_eq_of_le (by decide)]
    rw [BitVec.extractLsb'_append_eq_of_add_le (by decide), BitVec.extractLsb'_eq_self]
  · iterate 12 rw [BitVec.extractLsb'_append_eq_of_le (by decide)]
    rw [BitVec.extractLsb'_append_eq_of_add_le (by decide), BitVec.extractLsb'_eq_self]
  · iterate 13 rw [BitVec.extractLsb'_append_eq_of_le (by decide)]
    rw [BitVec.extractLsb'_eq_self]

theorem Packer.active_iff (p : Packer) : p.active = true ↔ p.state = .active := by
  rw [Packer.active, beq_iff_eq]

/-- The three values of UP_STATE are told apart by their codes. -/
theorem UpState.code_injective : Function.Injective UpState.code := by
  intro u v
  cases u <;> cases v <;> decide

/-- Settles O19: by the write's one case and the layout's two parts. -/
theorem statusWriteClearsWrittenOnes : Obligations.StatusWriteClearsWrittenOnes := by
  refine ⟨fun s v hb => hostAct_write_status v hb, fun s => ?_, by decide⟩
  obtain ⟨hbusy, hdone, herr, hhaz, hvalid, hdegen, hout, h7, hactive, h9⟩ := s.statusWord_flags
  obtain ⟨hup, hreserved, herrcode, hlastop⟩ := s.statusWord_fields
  have hstate (u : UpState) : s.statusWord.extractLsb' 10 2 = u.code ↔ s.up.state = u := by
    rw [hup, UpState.code_injective.eq_iff]
  exact ⟨hbusy, hdone, herr, hhaz, hvalid, hdegen, hout, h7, by rw [hactive, Packer.active_iff], h9,
    hstate .idle, hstate .run, hstate .done, hreserved, herrcode, hlastop⟩

/-! ## What a command reads of the sequencer (R52) -/

section

variable (q : Sequencer)

theorem execBuild_with_seq (h : execBuild s = .next t) :
    execBuild { s with seq := q } = .next { t with seq := q.complete t.seq.errcode } := by
  have hcheck : buildError { s with seq := q } = buildError s := rfl
  have hcount : State.count { s with seq := q } = s.count := rfl
  rcases execBuild_cases h with ⟨e, he, rfl⟩ | ⟨he, hn, rfl⟩ | ⟨he, hn, rfl⟩
  · simp only [execBuild, hcheck, he]; rfl
  · simp only [execBuild, hcheck, hcount, he, hn, if_true]; rfl
  · simp only [execBuild, hcheck, hcount, he, hn, if_false]; rfl

theorem execRebuild_with_seq (h : execRebuild s = .next t) :
    execRebuild { s with seq := q } = .next { t with seq := q.complete t.seq.errcode } := by
  have hcheck : rebuildError { s with seq := q } = rebuildError s := rfl
  have hcount : State.count { s with seq := q } = s.count := rfl
  have hwidth : State.tokenWidth { s with seq := q } = s.tokenWidth := rfl
  rcases execRebuild_cases h with ⟨e, he, rfl⟩ | ⟨he, hn, rfl⟩ | ⟨he, hn, hr, rfl⟩ | ⟨st, he, hn, hr, rfl⟩
  · simp only [execRebuild, hcheck, he]; rfl
  · simp only [execRebuild, hcheck, hcount, he, hn, if_true]; rfl
  · simp only [execRebuild, hcheck, hcount, hwidth, he, hn, hr, if_false]; rfl
  · simp only [execRebuild, hcheck, hcount, hwidth, he, hn, hr, if_false]; rfl

theorem execUnpackWord_with_seq {last : Bool} (h : execUnpackWord last s = .next t) :
    execUnpackWord last { s with seq := q } = .next { t with seq := q.complete t.seq.errcode } := by
  have hwalk : State.wordWalk { s with seq := q } last = s.wordWalk last := rfl
  rcases execUnpackWord_cases h with ⟨hu, rfl⟩ | ⟨hu, rfl⟩ | ⟨hu, hl, hz, rfl⟩ | ⟨hu, rfl, rfl⟩ | ⟨hu, rfl, hz, hn, rfl⟩
    | ⟨hu, rfl, hz, hn, rfl⟩
  · simp only [execUnpackWord, hu]; rfl
  · simp only [execUnpackWord, hu]; rfl
  · simp only [execUnpackWord, hu, hl, hz, and_self, if_true]; rfl
  · simp only [execUnpackWord, unpackRun, hu]; rfl
  · simp only [execUnpackWord, unpackRun, hu, hwalk, hn, Nat.not_lt.mpr hz, and_false, if_false, ne_eq, not_false_eq_true,
      if_true]; rfl
  · simp only [execUnpackWord, unpackRun, hu, hwalk, hn, Nat.not_lt.mpr hz, and_false, if_false, ne_eq,
      not_true_eq_false]; rfl

theorem execUnpackEnd_with_seq (h : execUnpackEnd s = .next t) :
    execUnpackEnd { s with seq := q } = .next { t with seq := q.complete t.seq.errcode } := by
  unfold execUnpackEnd at h ⊢
  cases hu : s.up.state with
  | idle => rw [hu] at h; cases h; rfl
  | done => rw [hu] at h; cases h; rfl
  | run =>
    simp only [hu] at h ⊢
    split at h
    next hw => cases h; rw [if_pos hw]; rfl
    next hw =>
      rw [if_neg hw]
      split at h
      next hz => cases h; rw [if_pos hz]; rfl
      next hz => cases h; rw [if_neg hz]; rfl

/-- A command reads nothing of the sequencer: from another one it ends in the same state, with that one's completion. -/
theorem exec_with_seq (i : Instr) (h : exec i s = .next t) :
    exec i { s with seq := q } = .next { t with seq := q.complete t.seq.errcode } := by
  cases i with
  | nop => cases h; rfl
  | build => exact execBuild_with_seq q h
  | derive =>
    have hcheck : deriveError { s with seq := q } = deriveError s := rfl
    rcases execDerive_cases h with ⟨e, he, rfl⟩ | ⟨he, rfl⟩ <;> simp only [exec, execDerive, hcheck, he] <;> rfl
  | packBegin => cases h; rfl
  | packToken =>
    have hcheck : packLookup { s with seq := q } = packLookup s := rfl
    rcases execPackToken_cases h with ⟨e, he, rfl⟩ | ⟨e, he, rfl⟩ <;> simp only [exec, execPackToken, hcheck, he] <;> rfl
  | packEnd =>
    rcases execPackEnd_cases h with ⟨hs, rfl⟩ | ⟨hs, rfl⟩ <;> simp [exec, execPackEnd, hs] <;> rfl
  | rebuild => exact execRebuild_with_seq q h
  | unpackBegin =>
    have hcheck : unpackBeginError { s with seq := q } = unpackBeginError s := rfl
    simp only [exec, execUnpackBegin, hcheck] at h ⊢
    cases he : unpackBeginError s <;> rw [he] at h <;> cases h <;> rfl
  | unpackWord last => exact execUnpackWord_with_seq q h
  | unpackEnd => exact execUnpackEnd_with_seq q h

end

/-- What a command leaves of the sequencer is its completion (R141). -/
theorem exec_seq (i : Instr) (h : exec i s = .next t) : t.seq = s.seq.complete t.seq.errcode := by
  obtain ⟨u, c, hu, -, -, hseq, -⟩ := exec_completes i s
  rw [hu] at h
  cases h
  simp [hseq]

/-- Settles O57: the other sequencer's completion differs from this one's in ERR and HAZ only. -/
theorem stickyFlagsAreNeverRead : Obligations.StickyFlagsAreNeverRead := by
  intro i s t d e hz h
  rw [exec_with_seq _ i h]
  have hseq := exec_seq i h
  congr 2
  rw [hseq]
  rfl

/-! ## Who writes the flags (R52) -/

/-- Only BUILD and REBUILD write NODE and the registers of the tree; DERIVE writes MAXLEN beside them. -/
theorem exec_keeps_tree {i : Instr} (h : exec i s = .next t) (hb : i ≠ .build) (hr : i ≠ .rebuild) :
    t.mem.node = s.mem.node ∧ t.tree = { s.tree with maxlen := t.tree.maxlen } := by
  cases i with
  | nop => cases h; exact ⟨rfl, rfl⟩
  | build => exact absurd rfl hb
  | derive => rcases execDerive_cases h with ⟨e, -, rfl⟩ | ⟨-, rfl⟩ <;> exact ⟨rfl, rfl⟩
  | packBegin => cases h; exact ⟨rfl, rfl⟩
  | packToken => rcases execPackToken_cases h with ⟨e, -, rfl⟩ | ⟨e, -, rfl⟩ <;> exact ⟨rfl, rfl⟩
  | packEnd => rcases execPackEnd_cases h with ⟨-, rfl⟩ | ⟨-, rfl⟩ <;> exact ⟨rfl, rfl⟩
  | rebuild => exact absurd rfl hr
  | unpackBegin => rcases execUnpackBegin_cases h with ⟨e, -, rfl⟩ | ⟨-, -, rfl⟩ <;> exact ⟨rfl, rfl⟩
  | unpackWord last =>
    rcases execUnpackWord_cases h with ⟨-, rfl⟩ | ⟨-, rfl⟩ | ⟨-, -, -, rfl⟩ | ⟨-, -, rfl⟩ | ⟨-, -, -, -, rfl⟩
      | ⟨-, -, -, -, rfl⟩ <;> exact ⟨rfl, rfl⟩
  | unpackEnd => rcases execUnpackEnd_cases h with ⟨-, rfl⟩ | ⟨-, c, rfl, -⟩ <;> exact ⟨rfl, rfl⟩

/-- Only the PACK commands write the packer. -/
theorem exec_keeps_packer {i : Instr} (h : exec i s = .next t) (hb : i ≠ .packBegin) (ht : i ≠ .packToken)
    (he : i ≠ .packEnd) : t.pk = s.pk := by
  cases i with
  | nop => cases h; rfl
  | build => rcases execBuild_cases h with ⟨e, -, rfl⟩ | ⟨-, -, rfl⟩ | ⟨-, -, rfl⟩ <;> rfl
  | derive => rcases execDerive_cases h with ⟨e, -, rfl⟩ | ⟨-, rfl⟩ <;> rfl
  | packBegin => exact absurd rfl hb
  | packToken => exact absurd rfl ht
  | packEnd => exact absurd rfl he
  | rebuild =>
    rcases execRebuild_cases h with ⟨e, -, rfl⟩ | ⟨-, -, rfl⟩ | ⟨-, -, -, rfl⟩ | ⟨st, -, -, -, rfl⟩ <;> rfl
  | unpackBegin => rcases execUnpackBegin_cases h with ⟨e, -, rfl⟩ | ⟨-, -, rfl⟩ <;> rfl
  | unpackWord last =>
    rcases execUnpackWord_cases h with ⟨-, rfl⟩ | ⟨-, rfl⟩ | ⟨-, -, -, rfl⟩ | ⟨-, -, rfl⟩ | ⟨-, -, -, -, rfl⟩
      | ⟨-, -, -, -, rfl⟩ <;> rfl
  | unpackEnd => rcases execUnpackEnd_cases h with ⟨-, rfl⟩ | ⟨-, c, rfl, -⟩ <;> rfl

/-- The engine's step is the decoded command's, or an illegal word's completion. -/
theorem engineStep_cases (h : engineStep s = .next t) :
    (∃ i, decode s.seq.pending = .ok i ∧ exec i s = .next t)
    ∨ (∃ e, decode s.seq.pending = .error e ∧ t = s.complete .illegal) := by
  unfold engineStep at h
  split at h
  next i hi => exact .inl ⟨i, hi, h⟩
  next e he => exact .inr ⟨e, he, by simpa [execIllegal] using h.symm⟩

/-- A write to a register is none to the tree, the packer or the unpacker, and sets no HAZ. -/
theorem State.writeReg_keeps (s : State) (r : Reg) (v : Word) :
    (s.writeReg r v).tree = s.tree ∧ (s.writeReg r v).pk = s.pk ∧ (s.writeReg r v).up = s.up
      ∧ ((s.writeReg r v).seq.haz = true → s.seq.haz = true) := by
  cases r with
  | status => exact ⟨rfl, rfl, rfl, fun hz => (Bool.and_eq_true_iff.mp hz).1⟩
  | _ => exact ⟨rfl, rfl, rfl, id⟩

/-- Nor is a write to any word of the map, and NODE is read-only. -/
theorem State.writeTarget_keeps (s : State) (g : Target) (v : Word) :
    (s.writeTarget g v).tree = s.tree ∧ (s.writeTarget g v).pk = s.pk ∧ (s.writeTarget g v).up = s.up
      ∧ (s.writeTarget g v).mem.node = s.mem.node ∧ ((s.writeTarget g v).seq.haz = true → s.seq.haz = true) := by
  cases g with
  | reg r =>
    obtain ⟨htree, hpk, hup, hhaz⟩ := s.writeReg_keeps r v
    exact ⟨htree, hpk, hup, congrArg Memory.node (s.writeReg_mem r v), hhaz⟩
  | _ => exact ⟨rfl, rfl, rfl, rfl, id⟩

/-- An action of the host that resets nothing leaves the tree, the packer and the unpacker alone; HAZ is set only by a write
while a command is pending (R89). -/
theorem hostAct_keeps_flags {a : HostAct} (h : hostAct s a = .next t) (hr : a.resets s.config = false) :
    t.config = s.config ∧ t.tree = s.tree ∧ t.pk = s.pk ∧ t.up = s.up ∧ t.mem.node = s.mem.node
      ∧ (t.seq.haz = true → s.seq.haz = true ∨ (s.seq.busy = true ∧ ∃ addr v, a = .write 4 addr v)) := by
  rcases hostAct_cases h with ⟨addr, rfl, -, rfl⟩ | ⟨addr, v, rfl, -, rfl⟩ | ⟨rfl, -⟩
  · exact ⟨rfl, rfl, rfl, rfl, rfl, .inl⟩
  · cases hb : s.seq.busy with
    | true =>
      rw [State.busWrite_busy hb hr]
      exact ⟨rfl, rfl, rfl, rfl, rfl, fun _ => .inr ⟨rfl, addr, v, rfl⟩⟩
    | false =>
      have hw : s.busWrite addr v = s.writeTarget (decodeOffset s.config addr) v := by
        have hsoft : isSoftReset (decodeOffset s.config addr) v = false := hr
        simp [State.busWrite, hsoft, hb]
      obtain ⟨htree, hpk, hup, hnode, hhaz⟩ := s.writeTarget_keeps (decodeOffset s.config addr) v
      rw [hw]
      exact ⟨s.writeTarget_config _ v, htree, hpk, hup, hnode, fun hz => .inl (hhaz hz)⟩
  · cases hr

/-- An action that resets leaves every register at its reset value (R300, R301). -/
theorem hostAct_resets {a : HostAct} (h : hostAct s a = .next t) (hr : a.resets s.config = true) :
    t.tree = .reset ∧ t.up = .reset ∧ t.seq = .reset := by
  rcases hostAct_cases h with ⟨addr, rfl, -, -⟩ | ⟨addr, v, rfl, -, rfl⟩ | ⟨-, rfl⟩
  · cases hr
  · have hsoft : isSoftReset (decodeOffset s.config addr) v = true := hr
    rw [State.busWrite, if_pos hsoft]
    exact ⟨rfl, rfl, rfl⟩
  · exact ⟨rfl, rfl, rfl⟩

/-- Settles O58: by whose step it is, with the command's frame for the engine's step. -/
theorem flagsHaveOnlyTheirWriters : Obligations.FlagsHaveOnlyTheirWriters := by
  intro s t h resetNow completes
  rcases step_cases h with ⟨hb, he⟩ | ⟨a, rest, hs, -, ha⟩ | ⟨-, -, rfl⟩
  · rcases engineStep_cases he with ⟨i, hi, hx⟩ | ⟨e, -, rfl⟩
    · have hdone (j : Instr) (hj : ¬ completes j) : i ≠ j := fun hij => hj ⟨hb, hij ▸ hi⟩
      refine ⟨fun hne => ?_, fun hne => ?_, fun h0 h1 => ?_⟩
      · by_contra hno
        obtain ⟨hbuild, hrebuild, -⟩ : _ ∧ _ ∧ _ := by simpa only [not_or] using hno
        obtain ⟨-, htree⟩ := exec_keeps_tree hx (hdone _ hbuild) (hdone _ hrebuild)
        rw [htree] at hne
        simp at hne
      · by_contra hno
        obtain ⟨hbegin, htoken, hend, -⟩ : _ ∧ _ ∧ _ ∧ _ := by simpa only [not_or] using hno
        exact hne (congrArg Packer.outValid (exec_keeps_packer hx (hdone _ hbegin) (hdone _ htoken) (hdone _ hend)))
      · rw [exec_seq i hx] at h1
        exact absurd h1 (by simp [h0])
    · exact ⟨fun hne => by simp at hne, fun hne => absurd rfl hne, fun h0 h1 => absurd h1 (by simp [h0])⟩
  · cases hr : a.resets s.config with
    | true =>
      have hnow : resetNow := ⟨a, rest, hs, hr⟩
      obtain ⟨-, -, hseq⟩ := hostAct_resets ha hr
      exact ⟨fun _ => .inr (.inr hnow), fun _ => .inr (.inr (.inr hnow)),
        fun _ h1 => absurd h1 (by simp [hseq, Sequencer.reset])⟩
    | false =>
      obtain ⟨-, htree, hpk, -, -, hhaz⟩ := hostAct_keeps_flags ha hr
      refine ⟨fun hne => by simp [htree] at hne, fun hne => by simp [hpk] at hne, fun h0 h1 => ?_⟩
      rcases hhaz h1 with hz | ⟨hb, addr, v, rfl⟩
      · exact absurd hz (by simp [h0])
      · exact ⟨hb, addr, v, rest, hs⟩
  · exact ⟨fun hne => by simp at hne, fun hne => absurd rfl hne, fun h0 h1 => absurd h1 (by simp [h0])⟩

end Sys2Proof.Machine

/-! PROOFS. spec/10_state.md R53: a tree under construction (a forest of joined records), what BUILD's merge and REBUILD's
splits keep of it, the decode walk inside a valid tree, and from these the tree's invariant. -/

namespace Sys2Proof.Machine

/-! ## Records of an arena after a write -/

theorem nodeAt_set (a : List NodeRec) {i : Nat} (r : NodeRec) (hi : i < a.length) (k : Nat) :
    nodeAt (a.set i r) k = if k = i then r else nodeAt a k := by
  by_cases hk : k = i
  · subst hk
    rw [if_pos rfl, nodeAt, entryAt_eq, List.getElem?_set_self hi, Option.getD_some]
  · rw [if_neg hk, nodeAt, nodeAt, entryAt_eq, entryAt_eq, List.getElem?_set_ne (Ne.symm hk)]

theorem nodeAt_writePrefix (xs node : List NodeRec) {i : Nat} (hi : i < xs.length) (hlen : xs.length ≤ node.length) :
    nodeAt (writePrefix xs node) i = xs[i] := by
  rw [nodeAt, entryAt_writePrefix_lt _ _ _ _ hi (by omega), entryAt_eq, List.getElem?_eq_getElem hi, Option.getD_some]

theorem nodeAt_linkChild (a : List NodeRec) {c : Nat} (p : Nat) (b : Bool) (hc : c < a.length) (k : Nat) :
    nodeAt (linkChild a c p b) k
      = if k = c then { nodeAt a c with hasPar := true, parent := BitVec.ofNat 32 p, bit := b } else nodeAt a k :=
  entryAt_modify absentNode a c k _ hc

theorem nodeAt_makeInternal (a : List NodeRec) {p : Nat} (x y : Nat) (hp : p < a.length) (k : Nat) :
    nodeAt (makeInternal a p x y) k
      = if k = p then { nodeAt a p with leaf := false, c1 := BitVec.ofNat 32 x, c0 := BitVec.ofNat 32 y, weight := 0#64,
                                        token := 0#32 }
        else nodeAt a k :=
  entryAt_modify absentNode a p k _ hp

/-! ## Joining two records under a third -/

/-- The arena `a'` is `a` with record p made the parent of x on branch bit 1 and of y on branch bit 0: what a merge of BUILD
(R164) and a split of REBUILD (R215) have in common. -/
structure Joins (a a' : List NodeRec) (p x y : Nat) : Prop where
  other : ∀ k, k ≠ p → k ≠ x → k ≠ y → nodeAt a' k = nodeAt a k
  leaf : (nodeAt a' p).leaf = false
  c1 : (nodeAt a' p).c1 = BitVec.ofNat 32 x
  c0 : (nodeAt a' p).c0 = BitVec.ofNat 32 y
  one : nodeAt a' x = { nodeAt a x with hasPar := true, parent := BitVec.ofNat 32 p, bit := true }
  zero : nodeAt a' y = { nodeAt a y with hasPar := true, parent := BitVec.ofNat 32 p, bit := false }

/-- Two records with the same link to a parent. -/
def SameLink (r r' : NodeRec) : Prop := r'.hasPar = r.hasPar ∧ r'.parent = r.parent ∧ r'.bit = r.bit

namespace Joins

variable {a a' : List NodeRec} {p x y : Nat}

/-- Only p's own kind and children change. -/
theorem below (h : Joins a a' p x y) {k : Nat} (hk : k ≠ p) :
    (nodeAt a' k).leaf = (nodeAt a k).leaf ∧ (nodeAt a' k).c1 = (nodeAt a k).c1 ∧ (nodeAt a' k).c0 = (nodeAt a k).c0 := by
  by_cases hx : k = x
  · subst hx; rw [h.one]; exact ⟨rfl, rfl, rfl⟩
  by_cases hy : k = y
  · subst hy; rw [h.zero]; exact ⟨rfl, rfl, rfl⟩
  rw [h.other k hk hx hy]; exact ⟨rfl, rfl, rfl⟩

theorem childOf_eq (h : Joins a a' p x y) {k : Nat} (hk : k ≠ p) (b : Bool) : childOf a' k b = childOf a k b := by
  obtain ⟨-, h1, h0⟩ := h.below hk
  simp only [childOf, h1, h0]

theorem childOf_top (h : Joins a a' p x y) (hx : x < 2 ^ 32) (hy : y < 2 ^ 32) (b : Bool) :
    childOf a' p b = if b then x else y := by
  simp only [childOf, h.c1, h.c0, BitVec.toNat_ofNat, Nat.mod_eq_of_lt hx, Nat.mod_eq_of_lt hy]

/-- Only the links of x and y change, if p's do not. -/
theorem sameLink (h : Joins a a' p x y) {k : Nat} (hp : k = p → SameLink (nodeAt a p) (nodeAt a' p)) (hx : k ≠ x)
    (hy : k ≠ y) : SameLink (nodeAt a k) (nodeAt a' k) := by
  by_cases hk : k = p
  · subst hk; exact hp rfl
  · rw [h.other k hk hx hy]; exact ⟨rfl, rfl, rfl⟩

theorem linkedChild_one (h : Joins a a' p x y) : LinkedChild a' p x true := by
  rw [LinkedChild, h.one]
  exact ⟨rfl, rfl, rfl⟩

theorem linkedChild_zero (h : Joins a a' p x y) : LinkedChild a' p y false := by
  rw [LinkedChild, h.zero]
  exact ⟨rfl, rfl, rfl⟩

end Joins

/-- A merge joins the two popped records under a new one. -/
theorem joins_merge {a : List NodeRec} {p x y : Nat} (hp : p < a.length) (hx : x < p) (hy : y < p) (hxy : x ≠ y) :
    Joins a (linkChild (linkChild (a.set p (mergedRec a x y)) x p true) y p false) p x y
      ∧ (nodeAt (linkChild (linkChild (a.set p (mergedRec a x y)) x p true) y p false) p).hasPar = false := by
  have hrec (k : Nat) : nodeAt (linkChild (linkChild (a.set p (mergedRec a x y)) x p true) y p false) k
      = if k = y then { nodeAt a y with hasPar := true, parent := BitVec.ofNat 32 p, bit := false }
        else if k = x then { nodeAt a x with hasPar := true, parent := BitVec.ofNat 32 p, bit := true }
        else if k = p then mergedRec a x y else nodeAt a k := by
    rw [nodeAt_linkChild _ _ _ (by simp; omega), nodeAt_linkChild _ _ _ (by simp; omega),
      nodeAt_linkChild _ _ _ (by simp; omega)]
    simp only [nodeAt_set _ _ hp, hxy.symm, hx.ne, hy.ne, if_false]
  have htop : nodeAt (linkChild (linkChild (a.set p (mergedRec a x y)) x p true) y p false) p = mergedRec a x y := by
    rw [hrec, if_neg hy.ne', if_neg hx.ne', if_pos rfl]
  refine ⟨⟨fun k hkp hkx hky => ?_, ?_, ?_, ?_, ?_, ?_⟩, ?_⟩
  · rw [hrec, if_neg hky, if_neg hkx, if_neg hkp]
  · rw [htop]; rfl
  · rw [htop]; rfl
  · rw [htop]; rfl
  · rw [hrec, if_neg hxy, if_pos rfl]
  · rw [hrec, if_pos rfl]
  · rw [htop]; rfl

/-- A split joins the records of its two parts under the record split, whose own link is kept. -/
theorem joins_split {a : List NodeRec} {p x y : Nat} (hp : p < a.length) (hx : x < a.length) (hy : y < a.length)
    (hxy : x ≠ y) (hpx : p ≠ x) (hpy : p ≠ y) :
    Joins a (makeInternal (linkChild (linkChild a x p true) y p false) p x y) p x y
      ∧ SameLink (nodeAt a p) (nodeAt (makeInternal (linkChild (linkChild a x p true) y p false) p x y) p) := by
  have hrec (k : Nat) : nodeAt (makeInternal (linkChild (linkChild a x p true) y p false) p x y) k
      = if k = p then { nodeAt a p with leaf := false, c1 := BitVec.ofNat 32 x, c0 := BitVec.ofNat 32 y, weight := 0#64,
                                        token := 0#32 }
        else if k = y then { nodeAt a y with hasPar := true, parent := BitVec.ofNat 32 p, bit := false }
        else if k = x then { nodeAt a x with hasPar := true, parent := BitVec.ofNat 32 p, bit := true }
        else nodeAt a k := by
    rw [nodeAt_makeInternal _ _ _ (by simpa using hp)]
    simp only [nodeAt_linkChild (linkChild a x p true) _ _ (show y < (linkChild a x p true).length by simpa using hy),
      nodeAt_linkChild a _ _ hx, hxy.symm, hpx, hpy, if_false]
  have htop := hrec p
  rw [if_pos rfl] at htop
  refine ⟨⟨fun k hkp hkx hky => ?_, ?_, ?_, ?_, ?_, ?_⟩, ?_⟩
  · rw [hrec, if_neg hkp, if_neg hky, if_neg hkx]
  · rw [htop]
  · rw [htop]
  · rw [htop]
  · rw [hrec, if_neg hpx.symm, if_neg hxy, if_pos rfl]
  · rw [hrec, if_neg hpy.symm, if_pos rfl]
  · rw [htop]; exact ⟨rfl, rfl, rfl⟩

/-! ## A tree under construction -/

/-- The first m records of an arena on the way to a full binary tree: those of `inner` are internal, with two linked
children each; those of `loose` have no parent yet; every other one is linked as a child of its parent, whose rank is lower. -/
structure Forest (a : List NodeRec) (m : Nat) (rank : Nat → Nat) (inner loose : Set Nat) : Prop where
  lt : ∀ p ∈ inner, p < m
  leaf : ∀ p ∈ inner, (nodeAt a p).leaf = false
  child : ∀ p ∈ inner, ∀ b, childOf a p b < m ∧ childOf a p b ∉ loose ∧ LinkedChild a p (childOf a p b) b
  parent : ∀ k < m, k ∉ loose → (nodeAt a k).hasPar = true ∧ parentOf a k ∈ inner
    ∧ childOf a (parentOf a k) (nodeAt a k).bit = k ∧ rank (parentOf a k) < rank k

namespace Forest

variable {a a' : List NodeRec} {m : Nat} {rank : Nat → Nat} {inner loose : Set Nat}

/-- A forest before any join. -/
theorem empty (a : List NodeRec) {m : Nat} (rank : Nat → Nat) {loose : Set Nat} (h : ∀ k < m, k ∈ loose) :
    Forest a m rank ∅ loose :=
  ⟨fun _ hp => hp.elim, fun _ hp => hp.elim, fun _ hp => hp.elim, fun k hk hl => absurd (h k hk) hl⟩

/-- A join of two loose records under a new internal one, above them in rank, keeps the forest. -/
theorem join (hf : Forest a m rank inner loose) (hm : m ≤ 2 ^ 32) {p x y : Nat} (hj : Joins a a' p x y) (hp : p < m)
    (hpi : p ∉ inner) (hx : x < m) (hy : y < m) (hxl : x ∈ loose) (hyl : y ∈ loose) (hxy : x ≠ y)
    (hlink : p ∉ loose → SameLink (nodeAt a p) (nodeAt a' p)) (hrx : rank p < rank x) (hry : rank p < rank y) :
    Forest a' m rank (insert p inner) (loose \ {x, y}) := by
  have hpn : (BitVec.ofNat 32 p).toNat = p := by simp; omega
  have hne {q : Nat} (hq : q ∈ inner) : q ≠ p := fun h => hpi (h ▸ hq)
  have hsame {k : Nat} (hk : k ∉ loose) : SameLink (nodeAt a k) (nodeAt a' k) :=
    hj.sameLink (fun h => hlink (h ▸ hk)) (fun h => hk (h ▸ hxl)) (fun h => hk (h ▸ hyl))
  have htop (b : Bool) : childOf a' p b = if b then x else y := hj.childOf_top (by omega) (by omega) b
  refine ⟨?_, ?_, ?_, ?_⟩
  · rintro q (rfl | hq)
    · exact hp
    · exact hf.lt q hq
  · rintro q (rfl | hq)
    · exact hj.leaf
    · rw [(hj.below (hne hq)).1]; exact hf.leaf q hq
  · rintro q (rfl | hq) b
    · rw [htop]
      cases b with
      | false => exact ⟨hy, fun h => h.2 (.inr rfl), hj.linkedChild_zero⟩
      | true => exact ⟨hx, fun h => h.2 (.inl rfl), hj.linkedChild_one⟩
    · rw [hj.childOf_eq (hne hq)]
      obtain ⟨hlt, hl, hpar, hparent, hbit⟩ := hf.child q hq b
      obtain ⟨h1, h2, h3⟩ := hsame hl
      exact ⟨hlt, fun h => hl h.1, h1.trans hpar, h2.trans hparent, h3.trans hbit⟩
  · intro k hk hkl
    by_cases hkx : k = x
    · subst hkx
      have hpk : parentOf a' k = p := by simp only [parentOf, hj.one, hpn]
      rw [hpk, htop, hj.one]
      exact ⟨rfl, .inl rfl, rfl, hrx⟩
    by_cases hky : k = y
    · subst hky
      have hpk : parentOf a' k = p := by simp only [parentOf, hj.zero, hpn]
      rw [hpk, htop, hj.zero]
      exact ⟨rfl, .inl rfl, rfl, hry⟩
    have hkl' : k ∉ loose := fun h => hkl ⟨h, by simp [hkx, hky]⟩
    obtain ⟨hpar, hpi', hchild, hrank⟩ := hf.parent k hk hkl'
    obtain ⟨h1, h2, h3⟩ := hsame hkl'
    have hpk : parentOf a' k = parentOf a k := congrArg BitVec.toNat h2
    rw [hpk, h1, h3, hj.childOf_eq (hne hpi')]
    exact ⟨hpar, .inr hpi', hchild, hrank⟩

end Forest

/-- Following a map that lowers the rank of every element but the root leads to the root. -/
theorem exists_iterate_eq_root {f rank : Nat → Nat} {m root : Nat}
    (hf : ∀ k < m, k ≠ root → f k < m ∧ rank (f k) < rank k) {k : Nat} (hk : k < m) : ∃ j ≤ rank k, f^[j] k = root := by
  induction h : rank k using Nat.strong_induction_on generalizing k with
  | _ r ih =>
    by_cases hkr : k = root
    · exact ⟨0, by omega, hkr⟩
    · obtain ⟨hlt, hrank⟩ := hf k hk hkr
      obtain ⟨j, hj, hroot⟩ := ih _ (by omega) hlt rfl
      exact ⟨j + 1, by omega, hroot⟩

/-- A forest whose one loose record is the root is a full binary tree. -/
theorem Forest.fullTree {a : List NodeRec} {n m root : Nat} {rank : Nat → Nat} {inner loose : Set Nat}
    (hf : Forest a m rank inner loose) (hinner : ∀ k < m, k ∈ inner ↔ n ≤ k) (hloose : ∀ k < m, k ∈ loose ↔ k = root)
    (hroot : root < m) (hpar : (nodeAt a root).hasPar = false) (hleaf : ∀ k < n, (nodeAt a k).leaf = true)
    (hrank : ∀ k < m, rank k < m) : FullTree a n m root := by
  have hkind (k : Nat) (hk : k < m) : (nodeAt a k).leaf = true ↔ k < n := by
    refine ⟨fun h => ?_, hleaf k⟩
    by_contra hkn
    rw [hf.leaf k ((hinner k hk).mpr (by omega))] at h
    cases h
  have hup (k : Nat) (hk : k < m) (hkr : k ≠ root) := hf.parent k hk (fun h => hkr ((hloose k hk).mp h))
  refine ⟨hroot, hpar, hkind, fun p hp hpl => ?_, fun k hk hkr => ?_, fun k hk => ?_⟩
  · have hpi : p ∈ inner := (hinner p hp).mpr (by have := (hkind p hp).mpr.mt (by simp [hpl]); omega)
    obtain ⟨hlt1, -, hlink1⟩ := hf.child p hpi true
    obtain ⟨hlt0, -, hlink0⟩ := hf.child p hpi false
    refine ⟨hlt1, hlt0, fun heq => ?_, hlink1, hlink0⟩
    have hbit := hlink1.2.2
    rw [heq, hlink0.2.2] at hbit
    cases hbit
  · obtain ⟨hkpar, hpi, hchild, -⟩ := hup k hk hkr
    exact ⟨hkpar, hf.lt _ hpi, hf.leaf _ hpi, hchild⟩
  · obtain ⟨j, hj, hroot⟩ := exists_iterate_eq_root (f := parentOf a) (rank := rank)
      (fun k hk hkr => ⟨hf.lt _ (hup k hk hkr).2.1, (hup k hk hkr).2.2.2⟩) hk
    exact ⟨j, by have := hrank k hk; omega, hroot⟩

/-! ## BUILD's merge (R163) -/

/-- Record k stands in one of the two queues. -/
def MergeState.Waiting (n : Nat) (q : MergeState) (k : Nat) : Prop := (q.lh ≤ k ∧ k < n) ∨ (q.ih ≤ k ∧ k < q.next)

/-- `pop` takes the front of one of the queues, which is not empty. -/
theorem pop_cases {n : Nat} {q : MergeState} (hih : q.ih ≤ q.next) (hne : q.lh < n ∨ q.ih < q.next) :
    (q.lh < n ∧ popIndex n q = q.lh ∧ popRest n q = { q with lh := q.lh + 1 })
    ∨ (q.ih < q.next ∧ popIndex n q = q.ih ∧ popRest n q = { q with ih := q.ih + 1 }) := by
  cases hp : popsLeaf n q with
  | true =>
    have hlt : q.lh < n := by simp [popsLeaf] at hp; exact hp.1
    exact .inl ⟨hlt, by simp [popIndex, hp], by simp [popRest, hp]⟩
  | false =>
    have hlt : q.ih < q.next := by
      rcases hne with hn | hi
      · have hih' : q.ih ≠ q.next := by simp [popsLeaf, hn] at hp; exact hp.1
        omega
      · exact hi
    exact .inr ⟨hlt, by simp [popIndex, hp], by simp [popRest, hp]⟩

/-- `pop` takes one waiting record and leaves the others waiting. -/
theorem pop_waiting {n : Nat} {q : MergeState} (hlh : q.lh ≤ n) (hni : n ≤ q.ih) (hih : q.ih ≤ q.next)
    (hne : q.lh < n ∨ q.ih < q.next) :
    (∀ k, (popRest n q).Waiting n k ↔ q.Waiting n k ∧ k ≠ popIndex n q) ∧ q.Waiting n (popIndex n q)
      ∧ (popRest n q).lh ≤ n ∧ q.ih ≤ (popRest n q).ih ∧ (popRest n q).ih ≤ q.next
      ∧ (popRest n q).lh + (popRest n q).ih = q.lh + q.ih + 1 := by
  unfold MergeState.Waiting
  rcases pop_cases hih hne with ⟨hlt, hi, hr⟩ | ⟨hlt, hi, hr⟩
  · rw [hi, hr]
    exact ⟨fun k => by simp only; omega, by omega, hlt, le_rfl, hih, Nat.add_right_comm ..⟩
  · rw [hi, hr]
    exact ⟨fun k => by simp only; omega, by omega, hlh, Nat.le_succ _, hlt, (Nat.add_assoc ..).symm⟩

/-- The two queues of a merge of n leaves. -/
structure QueuesOk (n : Nat) (q : MergeState) : Prop where
  lh_le : q.lh ≤ n
  le_ih : n ≤ q.ih
  ih_le : q.ih ≤ q.next
  /-- each merge pops two records and makes one -/
  heads : q.lh + q.ih + n = 2 * q.next
  /-- the record made last is never popped before another is made -/
  last : q.next = n ∨ q.ih < q.next

/-- One merge pops two waiting records and joins them under the new one, which waits next. -/
theorem mergeStep_joins {n : Nat} {q : MergeState} (h : QueuesOk n q) (hnext : q.next < 2 * n - 1)
    (hsize : q.next < q.arena.length) :
    QueuesOk n (mergeStep n q) ∧ ∃ x y, q.Waiting n x ∧ q.Waiting n y ∧ x ≠ y ∧ x < q.next ∧ y < q.next
      ∧ (∀ k, (mergeStep n q).Waiting n k ↔ (q.Waiting n k ∧ k ≠ x ∧ k ≠ y) ∨ k = q.next)
      ∧ Joins q.arena (mergeStep n q).arena q.next x y ∧ (nodeAt (mergeStep n q).arena q.next).hasPar = false := by
  obtain ⟨hlh, hni, hih, hheads, hlast⟩ := h
  obtain ⟨hw1, hx, hlh1, hni1, hih1, hsum1⟩ := pop_waiting hlh hni hih (by omega)
  obtain ⟨hw2, hy, hlh2, hni2, hih2, hsum2⟩ :=
    pop_waiting (q := popRest n q) hlh1 (by omega) (by simpa using hih1) (by simp only [popRest_next]; omega)
  obtain ⟨hy, hyx⟩ := (hw1 _).mp hy
  have hxn : popIndex n q < q.next := by unfold MergeState.Waiting at hx; omega
  have hyn : popIndex n (popRest n q) < q.next := by unfold MergeState.Waiting at hy; omega
  obtain ⟨hj, htop⟩ := joins_merge hsize hxn hyn hyx.symm
  have hrest : (popRest n (popRest n q)).next = q.next := by simp
  rw [popRest_next] at hih2
  have hq : mergeStep n q = { popRest n (popRest n q) with
      arena := linkChild (linkChild (q.arena.set q.next (mergedRec q.arena (popIndex n q) (popIndex n (popRest n q))))
        (popIndex n q) q.next true) (popIndex n (popRest n q)) q.next false, next := q.next + 1 } := by
    simp [mergeStep]
  rw [hq]
  refine ⟨⟨hlh2, ?_, ?_, ?_, ?_⟩, _, _, hx, hy, hyx.symm, hxn, hyn, fun k => ?_, hj, htop⟩
  · show n ≤ (popRest n (popRest n q)).ih
    omega
  · show (popRest n (popRest n q)).ih ≤ q.next + 1
    omega
  · show (popRest n (popRest n q)).lh + (popRest n (popRest n q)).ih + n = 2 * (q.next + 1)
    omega
  · exact .inr (Nat.lt_succ_of_le hih2)
  · have hk := hw2 k
    rw [hw1 k] at hk
    simp only [MergeState.Waiting, hrest] at hk ⊢
    omega

/-- What the merge keeps, with n leaves: the records with no parent yet are those that wait, and the records made so far
are a forest in which parents have the higher indices. -/
structure MergeInv (n : Nat) (q : MergeState) : Prop where
  queues : QueuesOk n q
  size : 2 * n - 1 ≤ q.arena.length
  leaf : ∀ k < n, (nodeAt q.arena k).leaf = true
  noParent : ∀ k, q.Waiting n k → (nodeAt q.arena k).hasPar = false
  forest : Forest q.arena (2 * n - 1) (fun k => 2 * n - 2 - k) {k | n ≤ k ∧ k < q.next} {k | q.Waiting n k ∨ q.next ≤ k}

/-- One merge keeps it while two records wait. -/
theorem MergeInv.step {n : Nat} {q : MergeState} (h : MergeInv n q) (hn : n ≤ 2 ^ 31) (hnext : q.next < 2 * n - 1) :
    MergeInv n (mergeStep n q) := by
  obtain ⟨hqueues, hsize, hleaf, hpar, hforest⟩ := h
  obtain ⟨hqueues', x, y, hx, hy, hxy, hxn, hyn, hw, hj, htop⟩ := mergeStep_joins hqueues hnext (by omega)
  have hni : n ≤ q.next := hqueues.le_ih.trans hqueues.ih_le
  refine ⟨hqueues', by simpa using hsize, fun k hk => ?_, fun k hk => ?_, ?_⟩
  · rw [(hj.below (by omega)).1]
    exact hleaf k hk
  · rcases (hw k).mp hk with ⟨hk, hkx, hky⟩ | rfl
    · have hkn : k < q.next := by unfold MergeState.Waiting at hk; omega
      rw [hj.other k hkn.ne hkx hky]
      exact hpar k hk
    · exact htop
  · have hinner : {k | n ≤ k ∧ k < (mergeStep n q).next} = insert q.next {k | n ≤ k ∧ k < q.next} := by
      ext k
      simp only [mergeStep_next, Set.mem_ofPred_eq, Set.mem_insert_iff]
      omega
    have hloose : {k | (mergeStep n q).Waiting n k ∨ (mergeStep n q).next ≤ k}
        = {k | q.Waiting n k ∨ q.next ≤ k} \ {x, y} := by
      ext k
      simp only [mergeStep_next, Set.mem_ofPred_eq, Set.mem_sdiff, Set.mem_insert_iff, Set.mem_singleton_iff, hw]
      simp only [MergeState.Waiting]
      omega
    rw [hinner, hloose]
    exact hforest.join (by omega) hj (by omega) (fun h => lt_irrefl _ h.2) (by omega) (by omega) (.inl hx) (.inl hy) hxy
      (fun h => absurd (.inr le_rfl) h) (by omega) (by omega)

/-- So do k merges, while enough records wait. -/
theorem MergeInv.loop {n : Nat} (k : Nat) {q : MergeState} (h : MergeInv n q) (hn : n ≤ 2 ^ 31)
    (hk : q.next + k ≤ 2 * n - 1) : MergeInv n (mergeLoop n k q) ∧ (mergeLoop n k q).next = q.next + k := by
  induction k generalizing q with
  | zero => exact ⟨h, rfl⟩
  | succ k ih =>
    obtain ⟨hinv, hnext⟩ := ih (h.step hn (by omega)) (by rw [mergeStep_next]; omega)
    exact ⟨hinv, hnext.trans (by rw [mergeStep_next]; omega)⟩

/-- When one record waits it is the root of a full binary tree whose parents have the higher indices. -/
theorem MergeInv.fullTree {n : Nat} {q : MergeState} (h : MergeInv n q) (hn : 1 ≤ n) (hnext : q.next = 2 * n - 1) :
    FullTree q.arena n (2 * n - 1) (2 * n - 2)
      ∧ ∀ k < 2 * n - 1, k ≠ 2 * n - 2 → k < parentOf q.arena k := by
  obtain ⟨⟨hlh, hni, hih, hheads, hlast⟩, -, hleaf, hpar, hforest⟩ := h
  have hwaiting (k : Nat) : q.Waiting n k ↔ k = 2 * n - 2 := by
    simp only [MergeState.Waiting]
    omega
  have hloose (k : Nat) (hk : k < 2 * n - 1) : k ∈ {k | q.Waiting n k ∨ q.next ≤ k} ↔ k = 2 * n - 2 := by
    rw [Set.mem_ofPred_eq, hwaiting]
    omega
  refine ⟨hforest.fullTree (fun k hk => ?_) hloose (by omega) (hpar _ ((hwaiting _).mpr rfl)) hleaf
    (fun k _ => by omega), fun k hk hkr => ?_⟩
  · rw [Set.mem_ofPred_eq]
    omega
  · obtain ⟨-, -, -, hrank⟩ := hforest.parent k hk ((hloose k hk).not.mpr hkr)
    omega

/-- A leaf of the arena a BUILD starts from. -/
theorem nodeAt_leafArena (L : Nat) (sym : List SymEntry) (node : List NodeRec) {i : Nat} (hi : i < sym.length)
    (hlen : sym.length ≤ node.length) : nodeAt (leafArena L sym node) i = leafOfSym L sym[i] := by
  rw [leafArena, nodeAt_writePrefix _ _ (by simpa using hi) (by simpa using hlen), List.getElem_map]

/-- It holds before the first merge: every leaf waits. -/
theorem mergeInv_start (L : Nat) (sym : List SymEntry) (node : List NodeRec) (hlen : 2 * sym.length - 1 ≤ node.length) :
    MergeInv sym.length { arena := leafArena L sym node, lh := 0, ih := sym.length, next := sym.length } := by
  have hrec (k : Nat) (hk : k < sym.length) := nodeAt_leafArena L sym node hk (by omega)
  refine ⟨⟨by simp, by simp, by simp, by simp; omega, .inl rfl⟩, by simpa [leafArena] using hlen, fun k hk => ?_,
    fun k hk => ?_, ?_⟩
  · simp only [hrec k hk]; rfl
  · have hk' : k < sym.length := by simp only [MergeState.Waiting] at hk; omega
    simp only [hrec k hk']; rfl
  · have hinner : {k | sym.length ≤ k ∧ k < sym.length} = (∅ : Set Nat) := by
      ext k; simp
    rw [hinner]
    refine Forest.empty _ _ fun k _ => ?_
    simp only [MergeState.Waiting, Set.mem_ofPred_eq]
    omega

/-- The arena of a BUILD of one leaf or more is a full binary tree whose parents have the higher indices (R167 (c), (e)). -/
theorem buildArena_fullTree (L : Nat) (sym : List SymEntry) (node : List NodeRec) (hpos : 1 ≤ sym.length)
    (hn : sym.length ≤ 2 ^ 31) (hlen : 2 * sym.length - 1 ≤ node.length) :
    FullTree (buildArena L sym node) sym.length (2 * sym.length - 1) (2 * sym.length - 2)
      ∧ ∀ k < 2 * sym.length - 1, k ≠ 2 * sym.length - 2 → k < parentOf (buildArena L sym node) k := by
  obtain ⟨hinv, hnext⟩ := (mergeInv_start L sym node hlen).loop (sym.length - 1) hn (by simp only; omega)
  exact hinv.fullTree hpos (hnext.trans (by simp only; omega))

/-! ## REBUILD's work queue (R215) -/

/-- The entries that wait in a queue, item after item. -/
def queued (queue : List SplitItem) : List Nat := queue.flatMap SplitItem.entries

theorem two_mul_length_le_queued {queue : List SplitItem} (h : ∀ it ∈ queue, 2 ≤ it.entries.length) :
    2 * queue.length ≤ (queued queue).length := by
  induction queue with
  | nil => simp [queued]
  | cons it rest ih =>
    rw [List.forall_mem_cons] at h
    have := ih h.2
    simp only [queued, List.flatMap_cons, List.length_append, List.length_cons] at this ⊢
    omega

theorem length_le_flatten {parts : List (List Nat)} (h : ∀ part ∈ parts, part ≠ []) :
    parts.length ≤ parts.flatten.length := by
  induction parts with
  | nil => simp
  | cons part rest ih =>
    rw [List.forall_mem_cons] at h
    have := ih h.2
    have := List.length_pos_iff.mpr h.1
    simp only [List.flatten_cons, List.length_append, List.length_cons]
    omega

/-- The work queue of a reconstruction of n entries, while the parts `parts` of a split wait to be placed: every entry waits
once, an item holds two or more, and a record made is in the queue once. -/
structure WorkOk (n next : Nat) (queue : List SplitItem) (parts : List (List Nat)) : Prop where
  lt_next : n < next
  /-- each placement of a part settles an entry or makes a record -/
  count : next + (queued queue ++ parts.flatten).length + 1 = 2 * n + 2 * queue.length + parts.length
  record : ∀ it ∈ queue, n ≤ it.record ∧ it.record < next
  records : (queue.map SplitItem.record).Nodup
  two_le : ∀ it ∈ queue, 2 ≤ it.entries.length
  nonempty : ∀ part ∈ parts, part ≠ []
  entry : ∀ e ∈ queued queue ++ parts.flatten, e < n
  entries : (queued queue ++ parts.flatten).Nodup

/-- The records that have been split. -/
def splitSet (n next : Nat) (queue : List SplitItem) : Set Nat :=
  {k | n ≤ k ∧ k < next ∧ k ∉ queue.map SplitItem.record}

/-- The records without a parent: the leaves of waiting entries, the root, the records not made yet. -/
def looseSet (n next : Nat) (queue : List SplitItem) (parts : List (List Nat)) : Set Nat :=
  {k | k ∈ queued queue ++ parts.flatten ∨ k = n ∨ next ≤ k}

/-- The records made are fewer than 2n. -/
theorem WorkOk.next_le {n next : Nat} {queue : List SplitItem} {parts : List (List Nat)} (h : WorkOk n next queue parts) :
    next ≤ 2 * n - 1 := by
  have hqueue := two_mul_length_le_queued h.two_le
  have hparts := length_le_flatten h.nonempty
  have hcount := h.count
  rw [List.length_append] at hcount
  omega

/-- There is room for the record of a part of two entries or more. -/
theorem WorkOk.next_lt {n next : Nat} {queue : List SplitItem} {e e' : Nat} {es : List Nat} {parts : List (List Nat)}
    (h : WorkOk n next queue ((e :: e' :: es) :: parts)) : next < 2 * n - 1 := by
  have hqueue := two_mul_length_le_queued h.two_le
  have hparts := length_le_flatten (List.forall_mem_cons.mp h.nonempty).2
  have hcount := h.count
  simp only [List.flatten_cons, List.length_append, List.length_cons] at hcount
  omega

theorem WorkOk.record_lt {n next : Nat} {queue : List SplitItem} {parts : List (List Nat)} (h : WorkOk n next queue parts)
    {it : SplitItem} (hit : it ∈ queue) : it.record < 2 * n - 1 :=
  (h.record it hit).2.trans_le h.next_le

/-- A loose record is a leaf, the root, or not made yet. -/
theorem WorkOk.loose_cases {n next : Nat} {queue : List SplitItem} {parts : List (List Nat)} (h : WorkOk n next queue parts)
    {k : Nat} (hk : k ∈ looseSet n next queue parts) : k < n ∨ k = n ∨ next ≤ k :=
  hk.imp_left (h.entry k)

/-- So the record of a queued item, made already, is none of the loose ones but the root. -/
theorem WorkOk.ne_record_of_loose {n next : Nat} {it : SplitItem} {rest : List SplitItem}
    (h : WorkOk n next (it :: rest) []) {k : Nat} (hk : k ∈ looseSet n next (it :: rest) []) (hkn : k ≠ n) : it.record ≠ k := by
  have hrecord := h.record it List.mem_cons_self
  have hcases := h.loose_cases hk
  omega

/-- The checks of R218 leave no part empty. -/
theorem parts_ne_nil_of_not_splitFails {code : List CodeEntry} {it : SplitItem} (h : splitFails code it = false) :
    it.entries.filter (branchBit code it.depth) ≠ [] ∧ it.entries.filter (fun e => !branchBit code it.depth e) ≠ [] := by
  simp only [splitFails, Bool.or_eq_false_iff] at h
  obtain ⟨⟨⟨⟨-, h1⟩, h0⟩, -⟩, -⟩ := h
  exact ⟨by simpa using h1, by simpa using h0⟩

/-- Taking an item off the queue and splitting it into two parts. -/
theorem WorkOk.split {n next : Nat} {it : SplitItem} {rest : List SplitItem} (h : WorkOk n next (it :: rest) [])
    (f : Nat → Bool) (h1 : it.entries.filter f ≠ []) (h0 : it.entries.filter (fun e => !f e) ≠ []) :
    WorkOk n next rest [it.entries.filter f, it.entries.filter (fun e => !f e)]
      ∧ splitSet n next rest = insert it.record (splitSet n next (it :: rest))
      ∧ looseSet n next rest [it.entries.filter f, it.entries.filter (fun e => !f e)]
        = looseSet n next (it :: rest) [] := by
  obtain ⟨hlt, hcount, hrecord, hrecords, htwo, -, hentry, hentries⟩ := h
  have hperm : (queued rest ++ [it.entries.filter f, it.entries.filter (fun e => !f e)].flatten).Perm
      (queued (it :: rest) ++ [].flatten) := by
    simp only [List.flatten_cons, List.flatten_nil, List.append_nil, queued, List.flatMap_cons]
    exact List.perm_append_comm.trans ((List.filter_append_perm f it.entries).append_right _)
  rw [List.forall_mem_cons] at hrecord htwo
  rw [List.map_cons, List.nodup_cons] at hrecords
  refine ⟨⟨hlt, ?_, hrecord.2, hrecords.2, htwo.2, by simp [h1, h0], fun e he => hentry e (hperm.mem_iff.mp he),
    hperm.nodup_iff.mpr hentries⟩, ?_, ?_⟩
  · rw [hperm.length_eq]
    simp only [List.length_cons, List.length_nil] at hcount ⊢
    omega
  · ext k
    simp only [splitSet, Set.mem_ofPred_eq, Set.mem_insert_iff, List.map_cons, List.mem_cons]
    by_cases hk : k = it.record
    · subst hk
      simp [hrecord.1, hrecords.1]
    · simp [hk]
  · ext k
    simp only [looseSet, Set.mem_ofPred_eq, hperm.mem_iff]

/-- The record that stands for a placed part is linked. -/
theorem placeChild_arena (k d : Nat) (b : Bool) (part : List Nat) (st : SplitState) :
    (placeChild k d b part st).arena = linkChild st.arena (childRecord st part) k b := by
  unfold placeChild childRecord
  split <;> rfl

/-- From `st` to `st'` the part `part` got the record c, which was loose. -/
structure Placed (n : Nat) (st st' : SplitState) (part : List Nat) (parts : List (List Nat)) (c : Nat) : Prop where
  work : WorkOk n st'.next st'.queue parts
  lt : c < 2 * n - 1
  ne_root : c ≠ n
  loose : c ∈ looseSet n st.next st.queue (part :: parts)
  splitSet_eq : splitSet n st'.next st'.queue = splitSet n st.next st.queue
  looseSet_eq : looseSet n st'.next st'.queue parts = looseSet n st.next st.queue (part :: parts) \ {c}

/-- A part of one entry gets the entry's leaf. -/
theorem WorkOk.place_leaf {n : Nat} {st : SplitState} {e : Nat} {parts : List (List Nat)}
    (h : WorkOk n st.next st.queue ([e] :: parts)) (k d : Nat) (b : Bool) :
    Placed n st (placeChild k d b [e] st) [e] parts e := by
  obtain ⟨hlt, hcount, hrecord, hrecords, htwo, hne, hentry, hentries⟩ := h
  have hperm : (queued st.queue ++ ([e] :: parts).flatten).Perm (e :: (queued st.queue ++ parts.flatten)) := by
    rw [List.flatten_cons, List.singleton_append]
    exact List.perm_middle
  rw [hperm.length_eq] at hcount
  rw [hperm.nodup_iff, List.nodup_cons] at hentries
  have hen : e < n := hentry e (hperm.mem_iff.mpr List.mem_cons_self)
  refine ⟨⟨hlt, ?_, hrecord, hrecords, htwo, fun part hp => hne part (List.mem_cons_of_mem _ hp),
    fun x hx => hentry x (hperm.mem_iff.mpr (List.mem_cons_of_mem _ hx)), hentries.2⟩, by omega, hen.ne,
    .inl (hperm.mem_iff.mpr List.mem_cons_self), rfl, ?_⟩
  · simp only [placeChild, List.length_cons] at hcount ⊢
    omega
  · ext k
    simp only [looseSet, placeChild, Set.mem_ofPred_eq, Set.mem_sdiff, Set.mem_singleton_iff, hperm.mem_iff, List.mem_cons]
    by_cases hk : k = e
    · subst hk
      simp only [hentries.1, not_true_eq_false, and_false, iff_false, false_or]
      omega
    · simp [hk]

/-- A part of more entries gets the next record, which is queued for splitting. -/
theorem WorkOk.place_record {n : Nat} {st : SplitState} {e e' : Nat} {es : List Nat} {parts : List (List Nat)}
    (h : WorkOk n st.next st.queue ((e :: e' :: es) :: parts)) (k d : Nat) (b : Bool) :
    Placed n st (placeChild k d b (e :: e' :: es) st) (e :: e' :: es) parts st.next := by
  have hnext : st.next < 2 * n - 1 := h.next_lt
  obtain ⟨hlt, hcount, hrecord, hrecords, htwo, hne, hentry, hentries⟩ := h
  have hqueued : queued (st.queue ++ [{ record := st.next, entries := e :: e' :: es, depth := d + 1 }]) ++ parts.flatten
      = queued st.queue ++ ((e :: e' :: es) :: parts).flatten := by simp [queued]
  have hfresh : st.next ∉ st.queue.map SplitItem.record := by
    intro hmem
    obtain ⟨it, hit, hrec⟩ := List.mem_map.mp hmem
    exact (hrec ▸ (hrecord it hit).2).false
  refine ⟨⟨Nat.lt_succ_of_lt hlt, ?_, ?_, ?_, ?_, fun part hp => hne part (List.mem_cons_of_mem _ hp), ?_, ?_⟩, hnext,
    hlt.ne', .inr (.inr le_rfl), ?_, ?_⟩
  · simp only [placeChild, hqueued, List.length_append, List.length_cons, List.length_nil] at hcount ⊢
    omega
  · simp only [placeChild, List.forall_mem_append, List.forall_mem_singleton]
    exact ⟨fun it hit => ⟨(hrecord it hit).1, Nat.lt_succ_of_lt (hrecord it hit).2⟩, hlt.le, Nat.lt_succ_self _⟩
  · simp only [placeChild, List.map_append, List.map_cons, List.map_nil]
    exact hrecords.append (List.nodup_singleton _) (List.disjoint_singleton.mpr hfresh)
  · simp only [placeChild, List.forall_mem_append, List.forall_mem_singleton, List.length_cons]
    exact ⟨htwo, by omega⟩
  · simpa only [placeChild, hqueued] using hentry
  · simpa only [placeChild, hqueued] using hentries
  · ext k
    simp only [splitSet, placeChild, Set.mem_ofPred_eq, List.map_append, List.map_cons, List.map_nil, List.mem_append,
      List.mem_singleton, not_or]
    exact ⟨fun ⟨hk, hkn, hkq, hne⟩ => ⟨hk, by omega, hkq⟩, fun ⟨hk, hkn, hkq⟩ => ⟨hk, by omega, hkq, by omega⟩⟩
  · ext k
    simp only [looseSet, placeChild, hqueued, Set.mem_ofPred_eq, Set.mem_sdiff, Set.mem_singleton_iff]
    by_cases hk : k = st.next
    · have hmem : k ∉ queued st.queue ++ ((e :: e' :: es) :: parts).flatten := fun h => by
        have := hentry _ h
        omega
      simp only [hmem, false_or]
      omega
    · simp only [hk, not_false_eq_true, and_true, show st.next + 1 ≤ k ↔ st.next ≤ k by omega]

/-- Placing a part gives it a loose record. -/
theorem WorkOk.place {n : Nat} {st : SplitState} {part : List Nat} {parts : List (List Nat)}
    (h : WorkOk n st.next st.queue (part :: parts)) (k d : Nat) (b : Bool) :
    Placed n st (placeChild k d b part st) part parts (childRecord st part) := by
  match part with
  | [] => exact absurd rfl (h.nonempty [] List.mem_cons_self)
  | [e] => exact h.place_leaf k d b
  | e :: e' :: es => exact h.place_record k d b

/-- A split that passes the checks of R218 joins two loose records under the record split, whose own link it keeps. -/
theorem splitRecord_joins {n : Nat} {code : List CodeEntry} {st : SplitState} {it : SplitItem} {rest : List SplitItem}
    (h : WorkOk n st.next (it :: rest) []) (hsize : 2 * n - 1 ≤ st.arena.length) (hok : splitFails code it = false)
    {st' : SplitState} (hst' : st' = splitRecord code it { st with queue := rest }) :
    WorkOk n st'.next st'.queue [] ∧ ∃ x y, x < 2 * n - 1 ∧ y < 2 * n - 1 ∧ x ≠ n ∧ y ≠ n ∧ x ≠ y
      ∧ x ∈ looseSet n st.next (it :: rest) [] ∧ y ∈ looseSet n st.next (it :: rest) []
      ∧ splitSet n st'.next st'.queue = insert it.record (splitSet n st.next (it :: rest))
      ∧ looseSet n st'.next st'.queue [] = looseSet n st.next (it :: rest) [] \ {x, y}
      ∧ Joins st.arena st'.arena it.record x y ∧ SameLink (nodeAt st.arena it.record) (nodeAt st'.arena it.record) := by
  obtain ⟨hs1, hs0⟩ := parts_ne_nil_of_not_splitFails hok
  obtain ⟨hwork1, hsplit1, hloose1⟩ := h.split (branchBit code it.depth) hs1 hs0
  obtain ⟨hwork2, hx, hxn, hxl, hsplit2, hloose2⟩ :=
    WorkOk.place (st := { st with queue := rest }) hwork1 it.record it.depth true
  obtain ⟨hwork3, hy, hyn, hyl, hsplit3, hloose3⟩ := hwork2.place it.record it.depth false
  rw [hloose1] at hxl hloose2
  rw [hloose2] at hyl hloose3
  have hxp := h.ne_record_of_loose hxl hxn
  have hyp := h.ne_record_of_loose hyl.1 hyn
  subst hst'
  refine ⟨hwork3, _, _, hx, hy, hxn, hyn, Ne.symm hyl.2, hxl, hyl.1, (hsplit3.trans hsplit2).trans hsplit1,
    hloose3.trans sdiff_sdiff_left, ?_⟩
  simp only [splitRecord, placeChild_arena]
  exact joins_split ((h.record_lt List.mem_cons_self).trans_le hsize) (hx.trans_le hsize) (hy.trans_le hsize)
    (Ne.symm hyl.2) hxp hyp

/-- How deep a record of a reconstruction can stand: an internal one no deeper than its number, a leaf below all of them. -/
def splitRank (n k : Nat) : Nat := if k < n then 2 * n - 2 else k - n

/-- A record made ranks below every loose one but the root. -/
theorem WorkOk.splitRank_lt {n next p x : Nat} {queue : List SplitItem} (h : WorkOk n next queue []) (hp : n ≤ p)
    (hpn : p < next) (hx : x ∈ looseSet n next queue []) (hxn : x ≠ n) : splitRank n p < splitRank n x := by
  have hnext := h.next_le
  have hcases := h.loose_cases hx
  unfold splitRank
  split_ifs <;> omega

/-- What the reconstruction keeps, with n entries: the records split so far are a forest in which an internal record's
parent has the lower index. -/
structure SplitInv (n : Nat) (st : SplitState) : Prop where
  work : WorkOk n st.next st.queue []
  size : 2 * n - 1 ≤ st.arena.length
  leaf : ∀ k < n, (nodeAt st.arena k).leaf = true
  root : (nodeAt st.arena n).hasPar = false
  forest : Forest st.arena (2 * n - 1) (splitRank n) (splitSet n st.next st.queue) (looseSet n st.next st.queue [])

/-- One split keeps it. -/
theorem SplitInv.step {n : Nat} {code : List CodeEntry} {st : SplitState} {it : SplitItem} {rest : List SplitItem}
    (h : SplitInv n st) (hn : n ≤ 2 ^ 31) (hqueue : st.queue = it :: rest) (hok : splitFails code it = false) :
    SplitInv n (splitRecord code it { st with queue := rest }) := by
  obtain ⟨hwork, hsize, hleaf, hroot, hforest⟩ := h
  rw [hqueue] at hwork hforest
  obtain ⟨hwork', x, y, hx, hy, hxn, hyn, hxy, hxl, hyl, hsplit, hloose, hj, hlink⟩ :=
    splitRecord_joins hwork hsize hok rfl
  obtain ⟨hnp, hpn⟩ := hwork.record it List.mem_cons_self
  refine ⟨hwork', by simpa using hsize, fun k hk => ?_, ?_, ?_⟩
  · rw [(hj.below (by omega)).1]
    exact hleaf k hk
  · obtain ⟨hpar, -, -⟩ := hj.sameLink (fun _ => hlink) hxn.symm hyn.symm
    rw [hpar, hroot]
  · rw [hsplit, hloose]
    exact hforest.join (by omega) hj (hwork.record_lt List.mem_cons_self) (fun h => h.2.2 (by simp)) hx hy hxl hyl hxy
      (fun _ => hlink) (hwork.splitRank_lt hnp hpn hxl hxn) (hwork.splitRank_lt hnp hpn hyl hyn)

/-- So does the whole loop, when it succeeds; it ends with nothing left to split. -/
theorem SplitInv.loop {n : Nat} {code : List CodeEntry} (hn : n ≤ 2 ^ 31) (fuel : Nat) {st st' : SplitState}
    (h : SplitInv n st) (hloop : splitLoop code fuel st = some st') : SplitInv n st' ∧ st'.queue = [] := by
  induction fuel generalizing st with
  | zero =>
    simp only [splitLoop] at hloop
    split at hloop
    next hempty =>
      cases hloop
      exact ⟨h, List.isEmpty_iff.mp hempty⟩
    next => cases hloop
  | succ fuel ih =>
    simp only [splitLoop] at hloop
    split at hloop
    next hempty =>
      cases hloop
      exact ⟨h, hempty⟩
    next it rest hqueue =>
      split at hloop
      next => cases hloop
      next hok => exact ih (h.step hn hqueue (by simpa using hok)) hloop

/-- With nothing left to split the records are a full binary tree below record n. -/
theorem SplitInv.fullTree {n : Nat} {st : SplitState} (h : SplitInv n st) (hempty : st.queue = []) :
    st.next = 2 * n - 1 ∧ FullTree st.arena n (2 * n - 1) n := by
  obtain ⟨hwork, -, hleaf, hroot, hforest⟩ := h
  rw [hempty] at hwork hforest
  have hnext : st.next = 2 * n - 1 := by
    have hcount := hwork.count
    simp only [queued, List.flatMap_nil, List.flatten_nil, List.append_nil, List.length_nil] at hcount
    omega
  have hlt := hwork.lt_next
  refine ⟨hnext, hforest.fullTree (fun k hk => ?_) (fun k hk => ?_) (by omega) hroot hleaf (fun k hk => ?_)⟩
  · simp only [splitSet, Set.mem_ofPred_eq, List.map_nil, List.not_mem_nil, not_false_eq_true, and_true]
    omega
  · simp only [looseSet, Set.mem_ofPred_eq, queued, List.flatMap_nil, List.flatten_nil, List.append_nil,
      List.not_mem_nil, false_or]
    omega
  · unfold splitRank
    split_ifs <;> omega

/-- It holds before the first split: every leaf is loose and the root alone is queued. -/
theorem splitInv_start (L : Nat) (code : List CodeEntry) (node : List NodeRec) (hn : 2 ≤ code.length)
    (hlen : 2 * code.length - 1 ≤ node.length) :
    SplitInv code.length
      { arena := (writePrefix (code.map (leafOfCode L)) node).set code.length rootRec, next := code.length + 1,
        queue := [{ record := code.length, entries := List.range code.length, depth := 1 }] } := by
  have hset := nodeAt_set (writePrefix (code.map (leafOfCode L)) node) (i := code.length) rootRec (by simp; omega)
  refine ⟨⟨by simp, by simp [queued]; omega, by simp, by simp, by simpa using hn, by simp, by simp [queued],
    by simpa [queued] using List.nodup_range⟩, by simpa using hlen, fun k hk => ?_, ?_, ?_⟩
  · rw [hset, if_neg hk.ne, nodeAt_writePrefix _ _ (by simpa using hk) (by simp; omega), List.getElem_map]
    rfl
  · rw [hset, if_pos rfl]
    rfl
  · have hsplit : splitSet code.length (code.length + 1)
        [{ record := code.length, entries := List.range code.length, depth := 1 }] = ∅ := by
      ext k
      simp only [splitSet, Set.mem_ofPred_eq, List.map_cons, List.map_nil, List.mem_singleton,
        Set.mem_empty_iff_false, iff_false]
      omega
    rw [hsplit]
    refine Forest.empty _ _ fun k _ => ?_
    simp only [looseSet, queued, Set.mem_ofPred_eq, List.flatMap_cons, List.flatMap_nil, List.flatten_nil, List.append_nil,
      List.mem_range]
    omega

/-- The arena of a successful REBUILD of two entries or more is a full binary tree below record N (R216). -/
theorem rebuildArena_fullTree {L : Nat} {code : List CodeEntry} {node : List NodeRec} {st : SplitState}
    (h : rebuildArena L code node = some st) (hn : 2 ≤ code.length) (hn' : code.length ≤ 2 ^ 31)
    (hlen : 2 * code.length - 1 ≤ node.length) :
    st.next = 2 * code.length - 1 ∧ FullTree st.arena code.length (2 * code.length - 1) code.length := by
  obtain ⟨hinv, hempty⟩ := (splitInv_start L code node hn hlen).loop hn' _ h
  exact hinv.fullTree hempty

section

variable {s t : State}

/-! ## What the commands leave of the tree (R53) -/

/-- One leaf is a full binary tree. -/
theorem fullTree_leaf {node : List NodeRec} (hleaf : (nodeAt node 0).leaf = true) (hpar : (nodeAt node 0).hasPar = false) :
    FullTree node 1 1 0 := by
  have hzero (k : Nat) (hk : k < 1) : k = 0 := by omega
  refine ⟨Nat.one_pos, hpar, fun k hk => ?_, fun p hp hl => ?_, fun k hk hne => absurd (hzero k hk) hne, fun k hk => ?_⟩
  · rw [hzero k hk]
    exact ⟨fun _ => Nat.one_pos, fun _ => hleaf⟩
  · rw [hzero p hp, hleaf] at hl
    cases hl
  · exact ⟨0, Nat.one_pos, hzero k hk⟩

/-- A full binary tree of n leaves in NODE, with ROOT, NNODES and TREE_DEGEN set to it, is a valid tree. -/
theorem treeOk_setTree {node : List NodeRec} {n root m : Nat} {degen : Bool} (c : ErrCode) (hc : s.config.Legal)
    (hn : 1 ≤ n) (hmax : n ≤ s.config.nsymMax) (hm : m = 2 * n - 1) (hdegen : degen = true ↔ n = 1) (h : FullTree node n m root) :
    TreeOk ((s.setTree node root m degen).complete c) := by
  obtain ⟨-, hlegal⟩ := hc
  have hroot := h.1
  have hnn : (BitVec.ofNat 32 m).toNat = m := by rw [BitVec.toNat_ofNat]; omega
  have hrn : (BitVec.ofNat 32 root).toNat = root := by rw [BitVec.toNat_ofNat]; omega
  have hleaves : ((s.setTree node root m degen).complete c).leaves = n := by
    simp only [State.leaves, State.complete_tree, State.setTree_tree, hnn]
    omega
  simp only [TreeOk, hleaves, State.complete_tree, State.complete_config, State.complete_mem, State.setTree_tree,
    State.setTree_config, State.setTree_mem, hnn, hrn]
  exact ⟨hn, hmax, hm, hdegen, h⟩

/-- A BUILD that passes its checks has between 1 and NSYM_MAX leaves. -/
theorem count_of_buildError (h : buildError s = none) : 1 ≤ s.count ∧ s.count ≤ s.config.nsymMax := by
  unfold buildError at h
  split_ifs at h
  omega

/-- So has a REBUILD. -/
theorem count_of_rebuildError (h : rebuildError s = none) : 1 ≤ s.count ∧ s.count ≤ s.config.nsymMax := by
  unfold rebuildError at h
  split_ifs at h
  omega

/-- The tree of a successful BUILD. -/
theorem build_fullTree (hs : StateOk s) (h : buildError s = none) :
    FullTree (buildArena s.tokenWidth (s.mem.sym.take s.count) s.mem.node) s.count (2 * s.count - 1) (2 * s.count - 2)
      ∧ ∀ k < 2 * s.count - 1, k ≠ 2 * s.count - 2 →
        k < parentOf (buildArena s.tokenWidth (s.mem.sym.take s.count) s.mem.node) k := by
  obtain ⟨⟨-, hlegal⟩, ⟨hsym, -, hnode, -⟩, -, -⟩ := hs
  rw [Config.arenaSize] at hnode
  obtain ⟨hpos, hmax⟩ := count_of_buildError h
  have hlen : (s.mem.sym.take s.count).length = s.count := by rw [List.length_take]; omega
  have htree := buildArena_fullTree s.tokenWidth (s.mem.sym.take s.count) s.mem.node (by omega) (by omega) (by omega)
  rwa [hlen] at htree

theorem build_treeOk (hs : StateOk s) (h : exec .build s = .next t) (hvalid : t.tree.valid = true) : TreeOk t := by
  rcases execBuild_cases h with ⟨e, -, rfl⟩ | ⟨he, hn, rfl⟩ | ⟨he, hn, rfl⟩
  · cases hvalid
  · obtain ⟨htree, -⟩ := build_fullTree hs he
    obtain ⟨hpos, hmax⟩ := count_of_buildError he
    simp only [hn] at htree hmax
    simp only [hn]
    exact treeOk_setTree _ hs.1 le_rfl hmax rfl (by simp) htree
  · obtain ⟨htree, -⟩ := build_fullTree hs he
    obtain ⟨hpos, hmax⟩ := count_of_buildError he
    exact treeOk_setTree _ hs.1 hpos hmax rfl (by simp [hn]) htree

theorem rebuild_treeOk (hs : StateOk s) (h : exec .rebuild s = .next t) (hvalid : t.tree.valid = true) : TreeOk t := by
  obtain ⟨hlegal, ⟨-, hcode, hnode, -⟩, -, -⟩ := hs
  have hlegal2 := hlegal.2
  rw [Config.arenaSize] at hnode
  rcases execRebuild_cases h with ⟨e, -, rfl⟩ | ⟨he, hn, rfl⟩ | ⟨-, -, -, rfl⟩ | ⟨st, he, hn, hr, rfl⟩
  · cases hvalid
  · obtain ⟨hpos, hmax⟩ := count_of_rebuildError he
    obtain ⟨e, hcode1⟩ : ∃ e, s.mem.code.take s.count = [e] :=
      List.length_eq_one_iff.mp (by rw [List.length_take]; omega)
    have hrec : nodeAt (writePrefix [leafOfCode s.tokenWidth e] s.mem.node) 0 = leafOfCode s.tokenWidth e :=
      nodeAt_writePrefix _ _ Nat.one_pos (by simp only [List.length_singleton]; omega)
    have htree : FullTree (writePrefix [leafOfCode s.tokenWidth e] s.mem.node) 1 1 0 :=
      fullTree_leaf (by rw [hrec]; rfl) (by rw [hrec]; rfl)
    rw [hcode1]
    exact treeOk_setTree _ hlegal le_rfl (by omega) rfl (by simp) htree
  · cases hvalid
  · obtain ⟨hpos, hmax⟩ := count_of_rebuildError he
    have hlen : (s.mem.code.take s.count).length = s.count := by rw [List.length_take]; omega
    obtain ⟨hnext, htree⟩ := rebuildArena_fullTree hr (by omega) (by omega) (by omega)
    rw [hlen] at hnext htree
    rw [hnext]
    exact treeOk_setTree _ hlegal hpos hmax rfl (by simp [hn]) htree

/-! ## The decode walk (R231) -/

/-- In a tree of more than one record the root is internal: a step on the way to it ends there. -/
theorem FullTree.root_not_leaf {node : List NodeRec} {n m root : Nat} (h : FullTree node n m root) (hm : 1 < m) :
    (nodeAt node root).leaf = false := by
  obtain ⟨hroot, -, -, -, hup, hpath⟩ := h
  have hreach (j : Nat) : ∀ k < m, k ≠ root → (parentOf node)^[j] k = root → (nodeAt node root).leaf = false := by
    induction j with
    | zero => exact fun k _ hne hk => absurd hk hne
    | succ j ih =>
      intro k hk hne hj
      obtain ⟨-, hpm, hinner, -⟩ := hup k hk hne
      by_cases hpr : parentOf node k = root
      · rwa [hpr] at hinner
      · exact ih _ hpm hpr hj
  obtain ⟨k, hk, hne⟩ : ∃ k < m, k ≠ root := ⟨if root = 0 then 1 else 0, by split <;> omega, by split <;> omega⟩
  obtain ⟨j, -, hj⟩ := hpath k hk
  exact hreach j k hk hne hj

/-- Record k is an internal record of a tree of m records. -/
def IsInner (node : List NodeRec) (m k : Nat) : Prop := k < m ∧ (nodeAt node k).leaf = false

/-- One step of the walk keeps it at an internal record: at a leaf it returns to the root. -/
theorem descend_isInner {node : List NodeRec} {n m : Nat} {root : Word} (h : FullTree node n m root.toNat) (hm : 1 < m)
    {w : Walk} (hw : IsInner node m w.node.toNat) (b : Bool) : IsInner node m (descend node root w b).node.toNat := by
  have hroot : IsInner node m root.toNat := ⟨h.1, FullTree.root_not_leaf h hm⟩
  obtain ⟨-, -, -, hdown, -, -⟩ := h
  obtain ⟨h1, h0, -, -, -⟩ := hdown _ hw.1 hw.2
  have hstep (c : Word) (hc : c.toNat < m) : IsInner node m
      (if (nodeAt node c.toNat).leaf then Walk.mk root (w.tokens ++ [(nodeAt node c.toNat).token])
        else { w with node := c }).node.toNat := by
    split
    next => exact hroot
    next hleaf => exact ⟨hc, by simpa using hleaf⟩
  cases b with
  | true => exact hstep _ h1
  | false => exact hstep _ h0

/-- So does the walk over any bits. -/
theorem walk_isInner {node : List NodeRec} {n m : Nat} {root : Word} (h : FullTree node n m root.toNat) (hm : 1 < m)
    (bits : List Bool) {w : Walk} (hw : IsInner node m w.node.toNat) :
    IsInner node m (walk node root w bits).node.toNat := by
  induction bits generalizing w with
  | nil => exact hw
  | cons b bits ih => exact ih (descend_isInner h hm hw b)

/-- A valid tree that is not degenerate has more than one record. -/
theorem one_lt_nnodes (h : TreeOk s) (hd : s.tree.degen = false) : 1 < s.tree.nnodes.toNat := by
  obtain ⟨hpos, -, hnodes, hdegen, -⟩ := h
  have hne : s.leaves ≠ 1 := fun h1 => by simp [hdegen.mpr h1] at hd
  omega

/-! ## Every step keeps the tree's invariant -/

/-- TreeOk reads only the configuration, NODE and the tree's registers but MAXLEN. -/
theorem TreeOk.frame (h : TreeOk s) (hc : t.config = s.config) (hnode : t.mem.node = s.mem.node)
    (htree : t.tree = { s.tree with maxlen := t.tree.maxlen }) : TreeOk t := by
  have hdegen : t.tree.degen = s.tree.degen := by rw [htree]
  have hroot : t.tree.root = s.tree.root := by rw [htree]
  have hnnodes : t.tree.nnodes = s.tree.nnodes := by rw [htree]
  simpa only [TreeOk, State.leaves, hc, hnode, hdegen, hroot, hnnodes] using h

/-- What leaves the tree alone keeps its invariant, if the walk stays where it was or ends. -/
theorem TreeInv.frame (h : TreeInv s) (hc : t.config = s.config) (hnode : t.mem.node = s.mem.node)
    (htree : t.tree = { s.tree with maxlen := t.tree.maxlen }) (hup : t.up = s.up ∨ t.up.state = .idle) : TreeInv t := by
  have hvalid : t.tree.valid = s.tree.valid := by rw [htree]
  refine ⟨fun hv => (h.1 (hvalid ▸ hv)).frame hc hnode htree, fun hopen => ?_⟩
  rcases hup with hup | hidle
  · have hroot : t.tree.root = s.tree.root := by rw [htree]
    have hnnodes : t.tree.nnodes = s.tree.nnodes := by rw [htree]
    rw [hup] at hopen
    simpa only [WalkOk, hup, hnode, hroot, hnnodes] using h.2 hopen
  · exact absurd hidle hopen

/-- UNPACK_BEGIN opens the walk at the root, which is internal. -/
theorem unpackBegin_keeps_treeInv (hi : TreeInv s) (h : exec .unpackBegin s = .next t) : TreeInv t := by
  rcases execUnpackBegin_cases h with ⟨e, -, rfl⟩ | ⟨hv, hd, rfl⟩
  · exact hi.frame rfl rfl rfl (.inl rfl)
  · have htree := hi.1 hv
    obtain ⟨-, -, -, -, hfull⟩ := hi.1 hv
    exact ⟨fun _ => htree, fun _ => ⟨hfull.1, FullTree.root_not_leaf hfull (one_lt_nnodes htree hd), fun _ => rfl⟩⟩

/-- UNPACK_WORD leaves the walk at an internal record. -/
theorem unpackWord_keeps_treeInv {last : Bool} (hs : StateOk s) (hi : TreeInv s) (h : exec (.unpackWord last) s = .next t) :
    TreeInv t := by
  obtain ⟨-, -, -, -, hstream⟩ := hs
  obtain ⟨htrees, hopen⟩ := id hi
  have hwalk (hu : s.up.state = .run) :
      TreeOk s ∧ IsInner s.mem.node s.tree.nnodes.toNat (s.wordWalk last).node.toNat := by
    obtain ⟨hv, hd⟩ := hstream (by simp [hu])
    obtain ⟨hlt, hinner, -⟩ := hopen (by simp [hu])
    have htree := htrees hv
    obtain ⟨-, -, -, -, hfull⟩ := htrees hv
    exact ⟨htree, walk_isInner hfull (one_lt_nnodes htree hd) _ ⟨hlt, hinner⟩⟩
  rcases execUnpackWord_cases h with ⟨-, rfl⟩ | ⟨-, rfl⟩ | ⟨-, -, -, rfl⟩ | ⟨hu, -, rfl⟩ | ⟨-, -, -, -, rfl⟩
    | ⟨hu, -, -, hroot, rfl⟩
  · exact hi.frame rfl rfl rfl (.inl rfl)
  · exact hi.frame rfl rfl rfl (.inr rfl)
  · exact hi.frame rfl rfl rfl (.inr rfl)
  · obtain ⟨htree, hlt, hinner⟩ := hwalk hu
    exact ⟨fun _ => htree, fun _ => ⟨hlt, hinner, fun hdone => absurd (hu.symm.trans hdone) (by simp)⟩⟩
  · exact hi.frame rfl rfl rfl (.inr rfl)
  · obtain ⟨htree, hlt, hinner⟩ := hwalk hu
    exact ⟨fun _ => htree, fun _ => ⟨hlt, hinner, fun _ => hroot⟩⟩

/-- Every command keeps the tree's invariant. -/
theorem exec_keeps_treeInv {i : Instr} (hs : StateOk s) (hi : TreeInv s) (h : exec i s = .next t) : TreeInv t := by
  cases i with
  | nop => cases h; exact hi.frame rfl rfl rfl (.inl rfl)
  | build =>
    refine ⟨build_treeOk hs h, fun hopen => absurd ?_ hopen⟩
    rcases execBuild_cases h with ⟨e, -, rfl⟩ | ⟨-, -, rfl⟩ | ⟨-, -, rfl⟩ <;> rfl
  | derive => rcases execDerive_cases h with ⟨e, -, rfl⟩ | ⟨-, rfl⟩ <;> exact hi.frame rfl rfl rfl (.inl rfl)
  | packBegin => cases h; exact hi.frame rfl rfl rfl (.inl rfl)
  | packToken => rcases execPackToken_cases h with ⟨e, -, rfl⟩ | ⟨e, -, rfl⟩ <;> exact hi.frame rfl rfl rfl (.inl rfl)
  | packEnd => rcases execPackEnd_cases h with ⟨-, rfl⟩ | ⟨-, rfl⟩ <;> exact hi.frame rfl rfl rfl (.inl rfl)
  | rebuild =>
    refine ⟨rebuild_treeOk hs h, fun hopen => absurd ?_ hopen⟩
    rcases execRebuild_cases h with ⟨e, -, rfl⟩ | ⟨-, -, rfl⟩ | ⟨-, -, -, rfl⟩ | ⟨st, -, -, -, rfl⟩ <;> rfl
  | unpackBegin => exact unpackBegin_keeps_treeInv hi h
  | unpackWord last => exact unpackWord_keeps_treeInv hs hi h
  | unpackEnd =>
    rcases execUnpackEnd_cases h with ⟨-, rfl⟩ | ⟨-, c, rfl, -⟩
    · exact hi.frame rfl rfl rfl (.inl rfl)
    · exact hi.frame rfl rfl rfl (.inr rfl)

/-- A reset leaves neither a tree nor an open walk. -/
theorem treeInv_of_reset (htree : t.tree = .reset) (hup : t.up = .reset) : TreeInv t :=
  ⟨fun hv => absurd (htree ▸ hv) (by decide), fun hopen => absurd (hup ▸ rfl) hopen⟩

/-- Settles O55: a command keeps the invariant, an action of the host leaves the tree alone or resets it. -/
theorem stepKeepsTheTreeValid : Obligations.StepKeepsTheTreeValid := by
  intro s t hs hi h
  rcases step_cases h with ⟨-, he⟩ | ⟨a, rest, -, -, ha⟩ | ⟨-, -, rfl⟩
  · rcases engineStep_cases he with ⟨i, -, hx⟩ | ⟨e, -, rfl⟩
    · exact exec_keeps_treeInv hs hi hx
    · exact hi.frame rfl rfl rfl (.inl rfl)
  · cases hr : a.resets s.config with
    | true =>
      obtain ⟨htree, hup, -⟩ := hostAct_resets ha hr
      exact treeInv_of_reset htree hup
    | false =>
      obtain ⟨hconfig, htree, -, hup, hnode, -⟩ := hostAct_keeps_flags ha hr
      exact hi.frame hconfig hnode (by rw [htree]; rfl) (.inl hup)
  · exact hi

end

end Sys2Proof.Machine

/-! PROOFS. spec/20_memory.md: the address map (R82 to R84), reads and writes of a mapped word while idle (R80, R81) and while a
command is pending (R88, R89), the refusal of R86, and what each command writes (R94). -/

namespace Sys2Proof.Machine

section

variable {s t : State} {c : Config} {off : Nat}

/-! ## The address map: what stands at the offset of a word (R82, R83) -/

theorem Reg.offset_lt (r : Reg) : r.offset < 0x58 ∧ r.offset % 4 = 0 := by
  cases r <;> decide

theorem Reg.accessOk (r : Reg) : AccessOk 4 r.offset := by
  obtain ⟨hlt, h4⟩ := r.offset_lt
  exact ⟨rfl, h4, by omega⟩

theorem symFields_idxOf_lt (f : SymField) : symFields.idxOf f < 2 := by
  cases f <;> decide

theorem codeFields_idxOf_lt (f : CodeField) : codeFields.idxOf f < 4 := by
  cases f <;> decide

theorem nodeFields_idxOf_lt (f : NodeField) : nodeFields.idxOf f < 8 := by
  cases f <;> decide

theorem regMap_getD_idxOf (r : Reg) : regMap.getD (regMap.idxOf r) .id = r := by
  cases r <;> rfl

theorem symFields_getD_idxOf (f : SymField) : symFields.getD (symFields.idxOf f) .token = f := by
  cases f <;> rfl

theorem codeFields_getD_idxOf (f : CodeField) : codeFields.getD (codeFields.idxOf f) .pad = f := by
  cases f <;> rfl

theorem nodeFields_getD_idxOf (f : NodeField) : nodeFields.getD (nodeFields.idxOf f) .pad = f := by
  cases f <;> rfl

theorem decodeOffset_reg (c : Config) (r : Reg) : decodeOffset c r.offset = .reg r := by
  have hword : r.offset / 4 = regMap.idxOf r := by rw [Reg.offset]; omega
  rw [decodeOffset, if_pos r.offset_lt.1, hword, regMap_getD_idxOf]

theorem decodeOffset_tbuf (c : Config) {j : Nat} (hj : j < 32) : decodeOffset c (0x1000 + 4 * j) = .tbuf j := by
  have hindex : (0x1000 + 4 * j - 0x1000) / 4 = j := by omega
  unfold decodeOffset
  iterate 2 rw [if_neg (by omega)]
  rw [if_pos (by omega), hindex]

theorem decodeOffset_sym {i : Nat} (hi : i < c.nsymMax) (hmax : i < 4096) (f : SymField) :
    decodeOffset c (0x10000 + 4 * symFields.idxOf f + 8 * i) = .sym i f := by
  have hf := symFields_idxOf_lt f
  have hindex : (0x10000 + 4 * symFields.idxOf f + 8 * i - 0x10000) / 8 = i := by omega
  have hword : (0x10000 + 4 * symFields.idxOf f + 8 * i) % 8 / 4 = symFields.idxOf f := by omega
  unfold decodeOffset
  iterate 4 rw [if_neg (by omega)]
  rw [if_pos (by omega), hindex, hword, symFields_getD_idxOf]
  exact if_pos hi

theorem decodeOffset_code {i : Nat} (hi : i < c.nsymMax) (hmax : i < 4096) (f : CodeField) :
    decodeOffset c (0x20000 + 4 * codeFields.idxOf f + 16 * i) = .code i f := by
  have hf := codeFields_idxOf_lt f
  have hindex : (0x20000 + 4 * codeFields.idxOf f + 16 * i - 0x20000) / 16 = i := by omega
  have hword : (0x20000 + 4 * codeFields.idxOf f + 16 * i) % 16 / 4 = codeFields.idxOf f := by omega
  unfold decodeOffset
  iterate 6 rw [if_neg (by omega)]
  rw [if_pos (by omega), hindex, hword, codeFields_getD_idxOf]
  exact if_pos hi

theorem decodeOffset_node {k : Nat} (hk : k < c.arenaSize) (hmax : k < 8191) (f : NodeField) :
    decodeOffset c (0x40000 + 4 * nodeFields.idxOf f + 32 * k) = .node k f := by
  have hf := nodeFields_idxOf_lt f
  have hindex : (0x40000 + 4 * nodeFields.idxOf f + 32 * k - 0x40000) / 32 = k := by omega
  have hword : (0x40000 + 4 * nodeFields.idxOf f + 32 * k) % 32 / 4 = nodeFields.idxOf f := by omega
  unfold decodeOffset
  iterate 8 rw [if_neg (by omega)]
  rw [if_pos (by omega), hindex, hword, nodeFields_getD_idxOf]
  exact if_pos hk

/-! ## The address map: which word stands at an offset -/

theorem exists_reg_offset (h4 : off % 4 = 0) (hlt : off < 0x58) : ∃ r : Reg, off = r.offset := by
  have hword : ∀ w < 22, (regMap.getD w .id).offset = 4 * w := by decide
  exact ⟨regMap.getD (off / 4) .id, by rw [hword _ (by omega)]; omega⟩

theorem exists_sym_offset (h4 : off % 4 = 0) (hle : 0x10000 ≤ off) :
    ∃ (i : Nat) (f : SymField), off = 0x10000 + 4 * symFields.idxOf f + 8 * i := by
  have hword : ∀ w < 2, symFields.idxOf (symFields.getD w .token) = w := by decide
  exact ⟨(off - 0x10000) / 8, symFields.getD (off % 8 / 4) .token, by rw [hword _ (by omega)]; omega⟩

theorem exists_code_offset (h4 : off % 4 = 0) (hle : 0x20000 ≤ off) :
    ∃ (i : Nat) (f : CodeField), off = 0x20000 + 4 * codeFields.idxOf f + 16 * i := by
  have hword : ∀ w < 4, codeFields.idxOf (codeFields.getD w .pad) = w := by decide
  exact ⟨(off - 0x20000) / 16, codeFields.getD (off % 16 / 4) .pad, by rw [hword _ (by omega)]; omega⟩

theorem exists_node_offset (h4 : off % 4 = 0) (hle : 0x40000 ≤ off) :
    ∃ (k : Nat) (f : NodeField), off = 0x40000 + 4 * nodeFields.idxOf f + 32 * k := by
  have hword : ∀ w < 8, nodeFields.idxOf (nodeFields.getD w .pad) = w := by decide
  exact ⟨(off - 0x40000) / 32, nodeFields.getD (off % 32 / 4) .pad, by rw [hword _ (by omega)]; omega⟩

/-- An offset in none of the mapped ranges is reserved. -/
theorem decodeOffset_reserved (hreg : ¬ off < 0x58) (htbuf : ¬ (0x1000 ≤ off ∧ off < 0x1080))
    (hsym : ¬ (0x10000 ≤ off ∧ off < 0x18000 ∧ off < 0x10000 + 8 * c.nsymMax))
    (hcode : ¬ (0x20000 ≤ off ∧ off < 0x30000 ∧ off < 0x20000 + 16 * c.nsymMax))
    (hnode : ¬ (0x40000 ≤ off ∧ off < 0x7FFE0 ∧ off < 0x40000 + 32 * c.arenaSize)) : decodeOffset c off = .reserved := by
  simp only [decodeOffset]
  split_ifs
  any_goals rfl
  all_goals omega

/-- What the map can answer at an aligned offset: a word that has this offset, or nothing. -/
theorem decodeOffset_cases (c : Config) (h4 : off % 4 = 0) :
    (∃ r : Reg, off = r.offset ∧ decodeOffset c off = .reg r)
    ∨ (∃ j < 32, off = 0x1000 + 4 * j ∧ decodeOffset c off = .tbuf j)
    ∨ (∃ i f, i < c.nsymMax ∧ i < 4096 ∧ off = 0x10000 + 4 * symFields.idxOf f + 8 * i ∧ decodeOffset c off = .sym i f)
    ∨ (∃ i f, i < c.nsymMax ∧ i < 4096 ∧ off = 0x20000 + 4 * codeFields.idxOf f + 16 * i ∧ decodeOffset c off = .code i f)
    ∨ (∃ k f, k < c.arenaSize ∧ k < 8191 ∧ off = 0x40000 + 4 * nodeFields.idxOf f + 32 * k ∧ decodeOffset c off = .node k f)
    ∨ decodeOffset c off = .reserved := by
  by_cases hreg : off < 0x58
  · obtain ⟨r, rfl⟩ := exists_reg_offset h4 hreg
    exact .inl ⟨r, rfl, decodeOffset_reg c r⟩
  by_cases htbuf : 0x1000 ≤ off ∧ off < 0x1080
  · obtain ⟨j, rfl⟩ : ∃ j, off = 0x1000 + 4 * j := ⟨(off - 0x1000) / 4, by omega⟩
    have hj : j < 32 := by omega
    exact .inr (.inl ⟨j, hj, rfl, decodeOffset_tbuf c hj⟩)
  by_cases hsym : 0x10000 ≤ off ∧ off < 0x18000 ∧ off < 0x10000 + 8 * c.nsymMax
  · obtain ⟨i, f, rfl⟩ := exists_sym_offset h4 hsym.1
    have hi : i < c.nsymMax ∧ i < 4096 := by omega
    exact .inr (.inr (.inl ⟨i, f, hi.1, hi.2, rfl, decodeOffset_sym hi.1 hi.2 f⟩))
  by_cases hcode : 0x20000 ≤ off ∧ off < 0x30000 ∧ off < 0x20000 + 16 * c.nsymMax
  · obtain ⟨i, f, rfl⟩ := exists_code_offset h4 hcode.1
    have hi : i < c.nsymMax ∧ i < 4096 := by omega
    exact .inr (.inr (.inr (.inl ⟨i, f, hi.1, hi.2, rfl, decodeOffset_code hi.1 hi.2 f⟩)))
  by_cases hnode : 0x40000 ≤ off ∧ off < 0x7FFE0 ∧ off < 0x40000 + 32 * c.arenaSize
  · obtain ⟨k, f, rfl⟩ := exists_node_offset h4 hnode.1
    have hk : k < c.arenaSize ∧ k < 8191 := by omega
    exact .inr (.inr (.inr (.inr (.inl ⟨k, f, hk.1, hk.2, rfl, decodeOffset_node hk.1 hk.2 f⟩))))
  · exact .inr (.inr (.inr (.inr (.inr (decodeOffset_reserved hreg htbuf hsym hcode hnode)))))

/-- A word the map gives at an offset is the word with that offset. -/
theorem offset_decodeOffset (h4 : off % 4 = 0) (hne : decodeOffset c off ≠ .reserved) :
    (decodeOffset c off).offset = some off := by
  rcases decodeOffset_cases c h4 with ⟨r, ho, hg⟩ | ⟨j, -, ho, hg⟩ | ⟨i, f, -, -, ho, hg⟩ | ⟨i, f, -, -, ho, hg⟩
    | ⟨k, f, -, -, ho, hg⟩ | hg
  · rw [hg, ho]; rfl
  · rw [hg, ho]; rfl
  · rw [hg, ho]; exact congrArg some (by omega)
  · rw [hg, ho]; exact congrArg some (by omega)
  · rw [hg, ho]; exact congrArg some (by omega)
  · exact absurd hg hne

theorem decodeOffset_eq_reg_iff (h4 : off % 4 = 0) {r : Reg} : decodeOffset c off = .reg r ↔ off = r.offset := by
  refine ⟨fun hg => ?_, fun ho => ho ▸ decodeOffset_reg c r⟩
  have ho := offset_decodeOffset (c := c) h4 (by simp [hg])
  rw [hg] at ho
  exact (Option.some.inj ho).symm

/-- Two offsets of one word are the same offset. -/
theorem decodeOffset_injective {off' : Nat} (h4 : off % 4 = 0) (h4' : off' % 4 = 0)
    (hg : decodeOffset c off' = decodeOffset c off) (hne : decodeOffset c off' ≠ .reserved) : off' = off := by
  have ho' := offset_decodeOffset h4' hne
  have ho := offset_decodeOffset h4 (hg ▸ hne)
  rw [hg, ho] at ho'
  exact (Option.some.inj ho').symm

/-- Settles O15: the two directions of the map, with R12's bound on the node records. -/
theorem addressMapIsOneToOne : Obligations.AddressMapIsOneToOne := by
  intro c ⟨hmin, hmax⟩
  refine ⟨fun r => ⟨decodeOffset_reg c r, r.accessOk⟩,
    fun j hj => ⟨_, rfl, ⟨rfl, by omega, by omega⟩, decodeOffset_tbuf c hj⟩, fun i hi f => ?_, fun i hi f => ?_,
    fun k hk f => ?_, fun off hok hne => offset_decodeOffset hok.2.1 hne⟩
  · have hf := symFields_idxOf_lt f
    refine ⟨0x10000 + 4 * symFields.idxOf f + 8 * i, congrArg some (by omega), ⟨rfl, by omega, by omega⟩, ?_⟩
    exact decodeOffset_sym hi (by omega) f
  · have hf := codeFields_idxOf_lt f
    refine ⟨0x20000 + 4 * codeFields.idxOf f + 16 * i, congrArg some (by omega), ⟨rfl, by omega, by omega⟩, ?_⟩
    exact decodeOffset_code hi (by omega) f
  · have hf := nodeFields_idxOf_lt f
    have hsize : c.arenaSize = 2 * c.nsymMax - 1 := rfl
    refine ⟨0x40000 + 4 * nodeFields.idxOf f + 32 * k, congrArg some (by omega), ⟨rfl, by omega, by omega⟩, ?_⟩
    exact decodeOffset_node hk (by omega) f

/-! ## Accesses (R86), reads (R80) and writes (R81) while idle -/

/-- Settles O11: an access's check is R86's, in every state. -/
theorem accessesOutsideTheBusAreRefused : Obligations.AccessesOutsideTheBusAreRefused := fun s size addr v =>
  ⟨fun hbad => ⟨hostAct_of_not_ok s (a := .read size addr) (decide_eq_false hbad),
      hostAct_of_not_ok s (a := .write size addr v) (decide_eq_false hbad)⟩,
    fun hok => ⟨hostAct_of_ok s (a := .read size addr) (decide_eq_true hok),
      hostAct_of_ok s (a := .write size addr v) (decide_eq_true hok)⟩⟩

theorem hostAct_read (s : State) (hok : AccessOk 4 off) : hostAct s (.read 4 off) = .next (s.busRead off) :=
  if_pos hok

theorem hostAct_write (s : State) (hok : AccessOk 4 off) (v : Word) :
    hostAct s (.write 4 off v) = .next (s.busWrite off v) :=
  if_pos hok

/-- An idle block's read hands over the word the map holds. -/
theorem hostAct_read_idle (hb : s.seq.busy = false) (hok : AccessOk 4 off) {g : Target} (hg : decodeOffset s.config off = g) :
    hostAct s (.read 4 off) = .next (s.deliver (s.readTarget g)) := by
  rw [hostAct_read s hok, State.busRead, s.readValue_idle off hb, hg]
  simp [State.readDraws, hb, State.deliver]

/-- A write is the soft reset where it writes bit 31 of CTRL, at 0x8 (spec/10_state.md R33). -/
theorem isSoftReset_decodeOffset (h4 : off % 4 = 0) (v : Word) :
    isSoftReset (decodeOffset c off) v = true ↔ off = 0x8 ∧ v.getLsbD 31 = true := by
  rw [isSoftReset, Bool.and_eq_true, beq_iff_eq, decodeOffset_eq_reg_iff h4]
  rfl

/-- A write that is no soft reset is performed while the block is idle. -/
theorem State.busWrite_idle (hb : s.seq.busy = false) (h4 : off % 4 = 0) {v : Word}
    (hsoft : ¬ (off = 0x8 ∧ v.getLsbD 31 = true)) : s.busWrite off v = s.writeTarget (decodeOffset s.config off) v := by
  rw [State.busWrite, if_neg ((isSoftReset_decodeOffset h4 v).not.mpr hsoft), hb]
  rfl

theorem hostAct_write_idle (hb : s.seq.busy = false) (hok : AccessOk 4 off) {v : Word}
    (hsoft : ¬ (off = 0x8 ∧ v.getLsbD 31 = true)) {g : Target} (hg : decodeOffset s.config off = g) :
    hostAct s (.write 4 off v) = .next (s.writeTarget g v) := by
  rw [hostAct_write s hok, State.busWrite_idle hb hok.2.1 hsoft, hg]

/-- Settles O16: each range lies past the last word of the window before it, so the map holds nothing there. -/
theorem reservedWordsReadZeroAndIgnoreWrites : Obligations.ReservedWordsReadZeroAndIgnoreWrites := by
  intro s off v ⟨hmin, hmax⟩ hb h4 hlt hrange
  have hsize : s.config.arenaSize = 2 * s.config.nsymMax - 1 := rfl
  have hg : decodeOffset s.config off = .reserved := by
    apply decodeOffset_reserved <;> omega
  exact ⟨hostAct_read_idle hb ⟨rfl, h4, hlt⟩ hg, hostAct_write_idle hb ⟨rfl, h4, hlt⟩ (by omega) hg⟩

/-- Settles O18: the map holds a read-only register, a word of TBUF or NODE, or nothing at such an offset. -/
theorem readOnlyWordsIgnoreWrites : Obligations.ReadOnlyWordsIgnoreWrites := by
  intro s off v hb hok hrange
  have hsoft : ¬ (off = 0x8 ∧ v.getLsbD 31 = true) := by omega
  rcases decodeOffset_cases s.config hok.2.1 with ⟨r, rfl, hg⟩ | ⟨j, -, -, hg⟩ | ⟨i, f, -, hi, rfl, -⟩ | ⟨i, f, -, hi, rfl, -⟩
    | ⟨k, f, -, -, -, hg⟩ | hg
  · rw [hostAct_write_idle hb hok hsoft hg]
    cases r
    case ctrl | status | cmd | nsym | token | word | upTzb => exact absurd hrange (by decide)
    all_goals rfl
  · exact hostAct_write_idle hb hok hsoft hg
  · have hf := symFields_idxOf_lt f
    omega
  · have hf := codeFields_idxOf_lt f
    omega
  · exact hostAct_write_idle hb hok hsoft hg
  · exact hostAct_write_idle hb hok hsoft hg

/-! ## Reads and writes while a command is pending (R88, R89) -/

/-- The registers a pending command leaves readable stand at 0x0 to 0x10. -/
theorem le_of_busyReadable (h4 : off % 4 = 0) (hread : busyReadable (decodeOffset c off) = true) : off ≤ 0x10 := by
  generalize hg : decodeOffset c off = g at hread
  cases g with
  | reg r =>
    rw [decodeOffset_eq_reg_iff h4] at hg
    subst hg
    revert hread
    cases r <;> decide
  | _ => cases hread

/-- A register a pending command leaves readable reads as always, whether or not one is pending. -/
theorem hostAct_read_busyReadable {r : Reg} (hread : busyReadable (.reg r) = true) :
    hostAct s (.read 4 r.offset) = .next (s.deliver (s.readReg r)) := by
  rw [hostAct_read s r.accessOk]
  simp [State.busRead, State.readValue, State.readDraws, decodeOffset_reg, hread, State.readTarget, State.deliver]

/-- Any other word of a busy block reads as a fresh free value (log entry 2). -/
theorem hostAct_read_busy (hb : s.seq.busy = true) (hok : AccessOk 4 off)
    (hread : busyReadable (decodeOffset s.config off) = false) :
    hostAct s (.read 4 off) = .next { s.deliver (Config.free 32 s.draws 0) with draws := s.draws + 1 } := by
  simp [hostAct_read s hok, State.busRead, State.readValue, State.readDraws, hb, hread]

/-- Settles O13: the five registers by their offsets; past them a read answers a free value. -/
theorem readsWhileBusy : Obligations.ReadsWhileBusy := by
  intro s off hb h4 hlt
  split_ifs with h0 h1 h2 h3 h5
  · subst h0; exact hostAct_read_busyReadable (r := .id) rfl
  · subst h1; exact hostAct_read_busyReadable (r := .param) rfl
  · subst h2; exact hostAct_read_busyReadable (r := .ctrl) rfl
  · subst h3; exact hostAct_read_busyReadable (r := .status) rfl
  · subst h5; exact hostAct_read_busyReadable (r := .cmd) rfl
  · have hread : busyReadable (decodeOffset s.config off) = false := by
      by_contra hno
      have hle := le_of_busyReadable h4 (Bool.not_eq_false _ ▸ hno)
      omega
    exact hostAct_read_busy hb ⟨rfl, h4, hlt⟩ hread

/-- Settles O14: a pending command's write is the soft reset or dropped. -/
theorem writesWhileBusyAreDropped : Obligations.WritesWhileBusyAreDropped := by
  intro s off v hb h4 hlt
  have hreset := isSoftReset_decodeOffset (c := s.config) h4 v
  rw [hostAct_write s ⟨rfl, h4, hlt⟩]
  refine ⟨fun hsoft => ?_, fun hsoft => ?_⟩
  · rw [State.busWrite, if_pos (hreset.mpr hsoft)]
  · rw [State.busWrite_busy hb (Bool.eq_false_iff.mpr (hreset.not.mpr hsoft))]
    rfl

/-! ## Reads of each memory (R83) -/

section

variable (hb : s.seq.busy = false)

include hb

theorem hostAct_read_reg (r : Reg) : hostAct s (.read 4 r.offset) = .next (s.deliver (s.readReg r)) :=
  hostAct_read_idle hb r.accessOk (decodeOffset_reg _ r)

theorem hostAct_read_tbuf {j : Nat} (hj : j < 32) {x : Word} (hx : s.mem.tbuf[j]? = some x) :
    hostAct s (.read 4 (0x1000 + 4 * j)) = .next (s.deliver x) := by
  rw [hostAct_read_idle hb ⟨rfl, by omega, by omega⟩ (decodeOffset_tbuf _ hj)]
  simp [State.readTarget, entryAt_eq, hx]

theorem hostAct_read_sym {i : Nat} (hi : i < s.config.nsymMax) (hmax : i < 4096) {e : SymEntry} (he : s.mem.sym[i]? = some e)
    (f : SymField) : hostAct s (.read 4 (0x10000 + 4 * symFields.idxOf f + 8 * i)) = .next (s.deliver (e.readField f)) := by
  have hf := symFields_idxOf_lt f
  rw [hostAct_read_idle hb ⟨rfl, by omega, by omega⟩ (decodeOffset_sym hi hmax f)]
  simp [State.readTarget, entryAt_eq, he]

theorem hostAct_read_code {i : Nat} (hi : i < s.config.nsymMax) (hmax : i < 4096) {e : CodeEntry}
    (he : s.mem.code[i]? = some e) (f : CodeField) :
    hostAct s (.read 4 (0x20000 + 4 * codeFields.idxOf f + 16 * i)) = .next (s.deliver (e.readField f)) := by
  have hf := codeFields_idxOf_lt f
  rw [hostAct_read_idle hb ⟨rfl, by omega, by omega⟩ (decodeOffset_code hi hmax f)]
  simp [State.readTarget, codeAt, entryAt_eq, he]

theorem hostAct_read_node {k : Nat} (hk : k < s.config.arenaSize) (hmax : k < 8191) {r : NodeRec} (hr : s.mem.node[k]? = some r)
    (f : NodeField) : hostAct s (.read 4 (0x40000 + 4 * nodeFields.idxOf f + 32 * k)) = .next (s.deliver (r.readField f)) := by
  have hf := nodeFields_idxOf_lt f
  rw [hostAct_read_idle hb ⟨rfl, by omega, by omega⟩ (decodeOffset_node hk hmax f)]
  simp [State.readTarget, nodeAt, entryAt_eq, hr]

end

/-- PARAM's fields, for every NSYM_MAX that fits its 16 bits (spec/10_state.md R32). -/
theorem paramWord_fields (h : c.nsymMax < 2 ^ 16) :
    ((paramWord c).extractLsb' 0 16).toNat = c.nsymMax ∧ (paramWord c).extractLsb' 16 8 = 0x04#8
      ∧ (paramWord c).extractLsb' 24 8 = 0x1F#8 := by
  have hw : paramWord c = 0x1F04#16 ++ BitVec.ofNat 16 c.nsymMax := rfl
  rw [hw]
  refine ⟨?_, ?_, ?_⟩
  · rw [BitVec.extractLsb'_append_eq_of_add_le (by decide), BitVec.extractLsb'_eq_self, BitVec.toNat_ofNat, Nat.mod_eq_of_lt h]
  · rw [BitVec.extractLsb'_append_eq_of_le (by decide)]; rfl
  · rw [BitVec.extractLsb'_append_eq_of_le (by decide)]; rfl

/-- CTRL's fields (spec/10_state.md R33). -/
theorem Ctrl.toWord_fields (c : Ctrl) :
    c.toWord.getLsbD 0 = c.ie ∧ c.toWord.extractLsb' 1 7 = 0#7 ∧ c.toWord.extractLsb' 8 3 = c.tokw
      ∧ c.toWord.extractLsb' 11 21 = 0#21 := by
  obtain ⟨ie, tokw⟩ := c
  revert ie tokw
  decide

/-- FLAGS' bits (R83). -/
theorem NodeRec.flagsWord_fields (r : NodeRec) :
    r.flagsWord.getLsbD 0 = r.leaf ∧ r.flagsWord.getLsbD 1 = r.hasPar ∧ r.flagsWord.getLsbD 2 = r.bit
      ∧ r.flagsWord.extractLsb' 3 29 = 0#29 := by
  rw [NodeRec.flagsWord]
  generalize r.leaf = leaf, r.hasPar = hasPar, r.bit = bit
  revert leaf hasPar bit
  decide

/-- Settles O12: a read of an idle block by the map's cases, the words with fields by their layouts. -/
theorem readsHaveNoSideEffect : Obligations.ReadsHaveNoSideEffect := by
  refine ⟨fun s off h4 hlt => ⟨s.readValue off, s.readDraws off, hostAct_read s ⟨rfl, h4, hlt⟩, fun hb => ?_⟩,
    fun s ⟨hmin, hmax⟩ hb => ?_⟩
  · exact ⟨s.readValue_idle off hb, by simp [State.readDraws, hb]⟩
  · have hreg := hostAct_read_reg hb
    refine ⟨⟨hreg .id, ⟨_, hreg .param, paramWord_fields (by omega)⟩, ⟨_, hreg .ctrl, s.ctrl.toWord_fields⟩, hreg .status,
      hreg .cmd⟩, ?_, ?_, ?_, fun j hj x hx => hostAct_read_tbuf hb hj hx, fun i hi e he => ?_, fun i hi e he => ?_,
      fun k hk r hr => ?_⟩
    · exact ⟨hreg .nsym, hreg .token, hreg .word, hreg .upTzb, hreg .root, hreg .nnodes, hreg .maxlen⟩
    · exact ⟨hreg .pkAcc, hreg .pkFree, hreg .pkOut, hreg .pkTzb, hreg .pkTokcnt, hreg .pkWcnt⟩
    · exact ⟨hreg .upNode, hreg .upTcount, hreg .upWcnt, hreg .upTokcnt⟩
    · have hsym := hostAct_read_sym hb hi (by omega) he
      exact ⟨hsym .token, hsym .count⟩
    · have hcode := hostAct_read_code hb hi (by omega) he
      exact ⟨hcode .token, hcode .cw, hcode .len, hcode .pad⟩
    · have hnode := hostAct_read_node hb hk (by omega) hr
      exact ⟨⟨_, hnode .flags, r.flagsWord_fields⟩, hnode .parent, hnode .c1, hnode .c0, hnode .wlo, hnode .whi, hnode .token,
        hnode .pad⟩

/-! ## Reads after a write (R81) -/

/-- A projection of an entry that the change of entry i keeps, read after that change. -/
theorem entryAt_modify_project {α β : Type} (d : Nat → α) (m : List α) {i j : Nat} {f : α → α} (p : α → β)
    (h : j = i → ∀ e, p (f e) = p e) : p (entryAt d (m.modify i f) j) = p (entryAt d m j) := by
  simp only [entryAt_eq, List.getElem?_modify]
  by_cases hij : i = j
  · subst hij
    cases m[i]? <;> simp [h]
  · simp [hij]

@[simp] theorem SymEntry.readField_writeField (e : SymEntry) (f : SymField) (v : Word) :
    (e.writeField f v).readField f = v := by
  cases f <;> rfl

theorem SymEntry.readField_writeField_ne (e : SymEntry) {f f' : SymField} (hne : f' ≠ f) (v : Word) :
    (e.writeField f v).readField f' = e.readField f' := by
  cases f <;> cases f' <;> simp [readField, writeField] at hne ⊢

theorem setWidth_byte_eq_and (v : Word) : (v.setWidth 8).setWidth 32 = v &&& 0xFF#32 := by
  apply BitVec.eq_of_toNat_eq
  have hmask := Nat.and_two_pow_sub_one_eq_mod v.toNat 8
  simp at hmask ⊢
  omega

theorem CodeEntry.readField_writeField (e : CodeEntry) (f : CodeField) (v : Word) :
    (e.writeField f v).readField f
      = if codeFields.idxOf f < 2 then v else if codeFields.idxOf f = 2 then v &&& 0xFF#32 else 0#32 := by
  cases f with
  | len => exact setWidth_byte_eq_and v
  | _ => rfl

theorem CodeEntry.readField_writeField_ne (e : CodeEntry) {f f' : CodeField} (hne : f' ≠ f) (v : Word) :
    (e.writeField f v).readField f' = e.readField f' := by
  cases f <;> cases f' <;> simp [readField, writeField] at hne ⊢

/-- CTRL keeps the bits of IE and TOKW of what is written (spec/10_state.md R33). -/
theorem Ctrl.toWord_ofWrite (v : Word) : (Ctrl.ofWrite v).toWord = v &&& 0x701#32 := by
  have hfields : (Ctrl.ofWrite v).toWord
      = (0#21 ++ v.extractLsb' 8 3 ++ 0#7 ++ BitVec.ofBool (v.getLsbD 0) : BitVec (21 + 3 + 7 + 1)) := rfl
  rw [hfields]
  apply BitVec.eq_of_getLsbD_eq
  intro i hi
  simp only [BitVec.getLsbD_append]
  interval_cases i <;> simp

theorem State.readReg_with_mem (s : State) (m : Memory) (r : Reg) : ({ s with mem := m } : State).readReg r = s.readReg r := by
  cases r <;> rfl

/-- No register but CMD changes another one's word: CMD's write shows in STATUS. -/
theorem State.readReg_writeReg_ne (s : State) {r r' : Reg} (hcmd : r ≠ .cmd) (hne : r' ≠ r) (v : Word) :
    (s.writeReg r v).readReg r' = s.readReg r' := by
  cases r
  case cmd => exact absurd rfl hcmd
  case ctrl | status | nsym | token | word | upTzb =>
    cases r' <;> simp [State.readReg, State.writeReg, State.statusWord] at hne ⊢
  all_goals rfl

/-- A write of a mapped word but CMD changes no other word. -/
theorem State.readTarget_writeTarget_ne (s : State) {g g' : Target} (hcmd : g ≠ .reg .cmd) (hne : g' ≠ g) (v : Word) :
    (s.writeTarget g v).readTarget g' = s.readTarget g' := by
  cases g with
  | reg r =>
    cases g' with
    | reg r' => exact s.readReg_writeReg_ne (fun hr => hcmd (hr ▸ rfl)) (fun hr => hne (hr ▸ rfl)) v
    | _ => simp only [State.writeTarget, State.readTarget, State.writeReg_mem]
  | sym i f =>
    cases g' with
    | reg r' => exact s.readReg_with_mem _ r'
    | sym j f' =>
      exact entryAt_modify_project absentSym s.mem.sym (SymEntry.readField · f') fun hij e =>
        e.readField_writeField_ne (fun hf => hne (by rw [hij, hf])) v
    | _ => rfl
  | code i f =>
    cases g' with
    | reg r' => exact s.readReg_with_mem _ r'
    | code j f' =>
      exact entryAt_modify_project absentCode s.mem.code (CodeEntry.readField · f') fun hij e =>
        e.readField_writeField_ne (fun hf => hne (by rw [hij, hf])) v
    | _ => rfl
  | _ => rfl

theorem State.writeTarget_busy (s : State) {g : Target} (hcmd : g ≠ .reg .cmd) (v : Word) :
    (s.writeTarget g v).seq.busy = s.seq.busy := by
  cases g with
  | reg r =>
    cases r
    case cmd => exact absurd rfl hcmd
    all_goals rfl
  | _ => rfl

/-- What an idle block reads at `off'` after a write at `off` that neither resets it nor issues a command. -/
theorem State.readValue_busWrite (hb : s.seq.busy = false) (h4 : off % 4 = 0) {v : Word}
    (hsoft : ¬ (off = 0x8 ∧ v.getLsbD 31 = true)) (hcmd : off ≠ 0x10) (off' : Nat) :
    (s.busWrite off v).readValue off'
      = (s.writeTarget (decodeOffset s.config off) v).readTarget (decodeOffset s.config off') := by
  have hne : decodeOffset s.config off ≠ .reg .cmd := fun hg => hcmd ((decodeOffset_eq_reg_iff h4).mp hg)
  rw [State.busWrite_idle hb h4 hsoft, State.readValue_idle _ _ ((s.writeTarget_busy hne v).trans hb), State.writeTarget_config]

/-- A word of SYM reads back as it was written. -/
theorem readValue_busWrite_sym (hs : StateOk s) (hb : s.seq.busy = false) (h4 : off % 4 = 0) (v : Word)
    (hlo : 0x10000 ≤ off) (hhi : off < 0x10000 + 8 * s.config.nsymMax) : (s.busWrite off v).readValue off = v := by
  obtain ⟨⟨hmin, hmax⟩, ⟨hlength, -⟩, -⟩ := hs
  rw [State.readValue_busWrite hb h4 (by omega) (by omega)]
  obtain ⟨i, f, rfl⟩ := exists_sym_offset h4 hlo
  have hi : i < s.config.nsymMax := by omega
  rw [decodeOffset_sym hi (by omega) f]
  simp [State.writeTarget, State.readTarget, entryAt_modify, hlength, hi]

/-- A word of CODE reads back the bits its field has: LEN eight, the word at +12 none. -/
theorem readValue_busWrite_code (hs : StateOk s) (hb : s.seq.busy = false) (h4 : off % 4 = 0) (v : Word)
    (hlo : 0x20000 ≤ off) (hhi : off < 0x20000 + 16 * s.config.nsymMax) : (s.busWrite off v).readValue off =
      if off % 16 < 8 then v else if off % 16 = 8 then v &&& 0x000000FF#32 else 0#32 := by
  obtain ⟨⟨hmin, hmax⟩, ⟨-, hlength, -⟩, -⟩ := hs
  rw [State.readValue_busWrite hb h4 (by omega) (by omega)]
  obtain ⟨i, f, rfl⟩ := exists_code_offset h4 hlo
  have hi : i < s.config.nsymMax := by omega
  have hf := codeFields_idxOf_lt f
  have hword : (0x20000 + 4 * codeFields.idxOf f + 16 * i) % 16 = 4 * codeFields.idxOf f := by omega
  have hlow : 4 * codeFields.idxOf f < 8 ↔ codeFields.idxOf f < 2 := by omega
  have hlen : 4 * codeFields.idxOf f = 8 ↔ codeFields.idxOf f = 2 := by omega
  rw [decodeOffset_code hi (by omega) f]
  simp only [State.writeTarget, State.readTarget, codeAt, entryAt_modify _ _ _ _ _ (hlength ▸ hi), if_true,
    CodeEntry.readField_writeField, hword, hlow, hlen]

/-- The other words after a write: each offset is read through its own word. -/
theorem readValue_busWrite_ne {off' : Nat} (hb : s.seq.busy = false) (h4 : off % 4 = 0) (h4' : off' % 4 = 0) {v : Word}
    (hsoft : ¬ (off = 0x8 ∧ v.getLsbD 31 = true)) (hcmd : off ≠ 0x10) (hne : off' ≠ off) :
    (s.busWrite off v).readValue off' = s.readValue off' := by
  rw [State.readValue_busWrite hb h4 hsoft hcmd, State.readValue_idle _ _ hb]
  by_cases hres : decodeOffset s.config off' = .reserved
  · rw [hres]; rfl
  · exact s.readTarget_writeTarget_ne (fun hg => hcmd ((decodeOffset_eq_reg_iff h4).mp hg))
      (fun hg => hne (decodeOffset_injective h4 h4' hg hres)) v

/-! ## Writes of each memory (R83) -/

section

variable (hb : s.seq.busy = false) (v : Word)

include hb

theorem hostAct_write_reg {r : Reg} (hsoft : ¬ (r = .ctrl ∧ v.getLsbD 31 = true)) :
    hostAct s (.write 4 r.offset v) = .next (s.writeReg r v) := by
  have hctrl : r.offset = 0x8 → r = .ctrl := by cases r <;> decide
  exact hostAct_write_idle hb r.accessOk (fun h => hsoft ⟨hctrl h.1, h.2⟩)
    (decodeOffset_reg _ r)

theorem hostAct_write_sym {i : Nat} (hi : i < s.config.nsymMax) (hmax : i < 4096) {e : SymEntry} (he : s.mem.sym[i]? = some e)
    (f : SymField) : hostAct s (.write 4 (0x10000 + 4 * symFields.idxOf f + 8 * i) v)
      = .next { s with mem := { s.mem with sym := s.mem.sym.set i (e.writeField f v) } } := by
  have hf := symFields_idxOf_lt f
  rw [hostAct_write_idle hb ⟨rfl, by omega, by omega⟩ (by omega) (decodeOffset_sym hi hmax f)]
  simp [State.writeTarget, List.modify_eq_set_getElem?, he]

theorem hostAct_write_code {i : Nat} (hi : i < s.config.nsymMax) (hmax : i < 4096) {e : CodeEntry}
    (he : s.mem.code[i]? = some e) (f : CodeField) :
    hostAct s (.write 4 (0x20000 + 4 * codeFields.idxOf f + 16 * i) v)
      = .next { s with mem := { s.mem with code := s.mem.code.set i (e.writeField f v) } } := by
  have hf := codeFields_idxOf_lt f
  rw [hostAct_write_idle hb ⟨rfl, by omega, by omega⟩ (by omega) (decodeOffset_code hi hmax f)]
  simp [State.writeTarget, List.modify_eq_set_getElem?, he]

/-- The word at +12 of a CODE entry holds nothing. -/
theorem hostAct_write_codePad {i : Nat} (hi : i < s.config.nsymMax) (hmax : i < 4096) :
    hostAct s (.write 4 (0x2000C + 16 * i) v) = .next s := by
  have hg : decodeOffset s.config (0x2000C + 16 * i) = .code i .pad := decodeOffset_code hi hmax .pad
  rw [hostAct_write_idle hb ⟨rfl, by omega, by omega⟩ (by omega) hg]
  have hkeep : s.mem.code.modify i (CodeEntry.writeField · .pad v) = s.mem.code := List.modify_id i s.mem.code
  simp [State.writeTarget, hkeep]

end

/-- Settles O17: a read after a write by the word of each, and the state each write leaves. -/
theorem writableWordsReadBack : Obligations.WritableWordsReadBack := by
  refine ⟨fun s off off' v hs hb hok hok' => ?_, fun s v hs hb => ?_⟩
  · have h4 := hok.2.1
    have hread (hsoft) (hcmd) := State.readValue_busWrite hb h4 (v := v) hsoft hcmd off
    refine ⟨?_, ?_, ?_, readValue_busWrite_sym hs hb h4 v, readValue_busWrite_code hs hb h4 v, ?_⟩
    · rintro (rfl | rfl | rfl) <;> exact hread (by omega) (by omega)
    · rintro rfl
      exact (hread (by omega) (by omega)).trans (setWidth_byte_eq_and v)
    · rintro rfl h31
      exact (hread (fun h => Bool.eq_false_iff.mp h31 h.2) (by omega)).trans (Ctrl.toWord_ofWrite v)
    · intro hne hoff
      refine readValue_busWrite_ne hb h4 hok'.2.1 (fun hsoft => ?_) (by omega) hne
      rcases hoff with hoff | ⟨-, h31⟩ | hoff
      · omega
      · exact Bool.eq_false_iff.mp h31 hsoft.2
      · omega
  · obtain ⟨⟨hmin, hmax⟩, -⟩ := hs
    refine ⟨fun h31 => hostAct_write_reg hb v (r := .ctrl) (fun h => Bool.eq_false_iff.mp h31 h.2),
      hostAct_write_reg hb v (r := .nsym) (by simp), hostAct_write_reg hb v (r := .token) (by simp),
      hostAct_write_reg hb v (r := .word) (by simp), hostAct_write_reg hb v (r := .upTzb) (by simp),
      fun i hi e he => ?_, fun i hi e he => ?_⟩
    · have hsym := hostAct_write_sym hb v hi (by omega) he
      exact ⟨hsym .token, hsym .count⟩
    · have hcode := hostAct_write_code hb v hi (by omega) he
      exact ⟨hcode .token, hcode .cw, hcode .len, hostAct_write_codePad hb v hi (by omega)⟩

/-! ## What each command writes (R94) -/

/-- Only DERIVE writes CODE and MAXLEN, only UNPACK_WORD writes TBUF, and only BUILD and REBUILD draw free values. -/
theorem exec_keeps_memories {i : Instr} (h : exec i s = .next t) :
    (i ≠ .derive → t.mem.code = s.mem.code ∧ t.tree.maxlen = s.tree.maxlen)
      ∧ ((∀ last, i ≠ .unpackWord last) → t.mem.tbuf = s.mem.tbuf)
      ∧ (i ≠ .build → i ≠ .rebuild → t.draws = s.draws) := by
  cases i with
  | nop => cases h; exact ⟨fun _ => ⟨rfl, rfl⟩, fun _ => rfl, fun _ _ => rfl⟩
  | build =>
    refine ⟨fun _ => ?_, fun _ => ?_, fun hb => absurd rfl hb⟩
    all_goals rcases execBuild_cases h with ⟨e, -, rfl⟩ | ⟨-, -, rfl⟩ | ⟨-, -, rfl⟩ <;> simp
  | derive =>
    refine ⟨fun hd => absurd rfl hd, fun _ => ?_, fun _ _ => ?_⟩
    all_goals rcases execDerive_cases h with ⟨e, -, rfl⟩ | ⟨-, rfl⟩ <;> rfl
  | packBegin => cases h; exact ⟨fun _ => ⟨rfl, rfl⟩, fun _ => rfl, fun _ _ => rfl⟩
  | packToken =>
    rcases execPackToken_cases h with ⟨e, -, rfl⟩ | ⟨e, -, rfl⟩ <;>
      exact ⟨fun _ => ⟨rfl, rfl⟩, fun _ => rfl, fun _ _ => rfl⟩
  | packEnd =>
    rcases execPackEnd_cases h with ⟨-, rfl⟩ | ⟨-, rfl⟩ <;> exact ⟨fun _ => ⟨rfl, rfl⟩, fun _ => rfl, fun _ _ => rfl⟩
  | rebuild =>
    refine ⟨fun _ => ?_, fun _ => ?_, fun _ hr => absurd rfl hr⟩
    all_goals rcases execRebuild_cases h with ⟨e, -, rfl⟩ | ⟨-, -, rfl⟩ | ⟨-, -, -, rfl⟩ | ⟨st, -, -, -, rfl⟩ <;> simp
  | unpackBegin =>
    rcases execUnpackBegin_cases h with ⟨e, -, rfl⟩ | ⟨-, -, rfl⟩ <;>
      exact ⟨fun _ => ⟨rfl, rfl⟩, fun _ => rfl, fun _ _ => rfl⟩
  | unpackWord last =>
    rcases execUnpackWord_cases h with ⟨-, rfl⟩ | ⟨-, rfl⟩ | ⟨-, -, -, rfl⟩ | ⟨-, -, rfl⟩ | ⟨-, -, -, -, rfl⟩
      | ⟨-, -, -, -, rfl⟩ <;> exact ⟨fun _ => ⟨rfl, rfl⟩, fun hu => absurd rfl (hu last), fun _ _ => rfl⟩
  | unpackEnd =>
    rcases execUnpackEnd_cases h with ⟨-, rfl⟩ | ⟨-, c, rfl, -⟩ <;>
      exact ⟨fun _ => ⟨rfl, rfl⟩, fun _ => rfl, fun _ _ => rfl⟩

/-- BUILD and REBUILD end an open stream and write nothing else of the unpacker. -/
theorem exec_tree_up {i : Instr} (h : exec i s = .next t) (hi : i = .build ∨ i = .rebuild) :
    t.up = { s.up with state := .idle } := by
  rcases hi with rfl | rfl
  · rcases execBuild_cases h with ⟨e, -, rfl⟩ | ⟨-, -, rfl⟩ | ⟨-, -, rfl⟩ <;> rfl
  · rcases execRebuild_cases h with ⟨e, -, rfl⟩ | ⟨-, -, rfl⟩ | ⟨-, -, -, rfl⟩ | ⟨st, -, -, -, rfl⟩ <;> rfl

/-- NOP, DERIVE and the PACK commands leave the unpacker alone. -/
theorem exec_keeps_up {i : Instr} (h : exec i s = .next t)
    (hi : i = .nop ∨ i = .derive ∨ i = .packBegin ∨ i = .packToken ∨ i = .packEnd) : t.up = s.up := by
  rcases hi with rfl | rfl | rfl | rfl | rfl
  · cases h; rfl
  · rcases execDerive_cases h with ⟨e, -, rfl⟩ | ⟨-, rfl⟩ <;> rfl
  · cases h; rfl
  · rcases execPackToken_cases h with ⟨e, -, rfl⟩ | ⟨e, -, rfl⟩ <;> rfl
  · rcases execPackEnd_cases h with ⟨-, rfl⟩ | ⟨-, rfl⟩ <;> rfl

theorem Packer.pushCode_keeps (p : Packer) (v : Word) (n : Nat) :
    (p.pushCode v n).state = p.state ∧ (p.pushCode v n).tzb = p.tzb := by
  unfold pushCode append
  split <;> exact ⟨rfl, rfl⟩

theorem Packer.closed_tokcnt (p : Packer) : p.closed.tokcnt = p.tokcnt := by
  unfold closed
  split <;> rfl

/-- No command writes the configuration, CTRL, the operand registers, SYM, the host agent, PENDING or HAZ. -/
theorem exec_keeps_inputs {i : Instr} (h : exec i s = .next t) :
    t.config = s.config ∧ t.ctrl = s.ctrl ∧ t.regs = s.regs ∧ t.mem.sym = s.mem.sym ∧ t.host = s.host
      ∧ t.seq.pending = s.seq.pending ∧ t.seq.haz = s.seq.haz := by
  obtain ⟨u, c, hu, hconfig, hctrl, hseq, hregs, hhost, hsym⟩ := exec_completes i s
  obtain rfl : u.complete c = t := Host.Outcome.next.inj (hu.symm.trans h)
  exact ⟨hconfig, hctrl, hregs, hsym, hhost, by simp [hseq], by simp [hseq]⟩

/-- Settles O56: the frame of each part of the state. -/
theorem commandsWriteOnlyTheirState : Obligations.CommandsWriteOnlyTheirState := by
  intro i s t h
  obtain ⟨hcode, htbuf, hdraws⟩ := exec_keeps_memories h
  refine ⟨exec_keeps_inputs h, fun hb hr => ?_, exec_tree_up h, hcode, exec_keeps_packer h, ?_, ?_, htbuf, exec_keeps_up h, ?_⟩
  · obtain ⟨hnode, htree⟩ := exec_keeps_tree h hb hr
    exact ⟨hnode, by rw [htree], by rw [htree], by rw [htree], by rw [htree], hdraws hb hr⟩
  · rintro rfl
    rcases execPackToken_cases h with ⟨e, -, rfl⟩ | ⟨e, -, rfl⟩
    · exact ⟨rfl, rfl⟩
    · exact s.pk.pushCode_keeps _ _
  · rintro rfl
    rcases execPackEnd_cases h with ⟨-, rfl⟩ | ⟨-, rfl⟩
    · rfl
    · exact s.pk.closed_tokcnt
  · rintro rfl
    rcases execUnpackEnd_cases h with ⟨-, rfl⟩ | ⟨-, c, rfl, -⟩ <;> rfl

end

end Sys2Proof.Machine

/-! PROOFS. spec/30_encoding.md: the encoder's words are the legal ones (R110 to R112), and the reader of containers undoes the
writer (R117, R118). -/

namespace Sys2Proof

/-! ## Legal command words (R110 to R112) -/

/-- A word is its three fields, bits [31:9], LAST and OPCODE (R110). -/
theorem eq_append_fields (w : Word) : w = reservedOf w ++ BitVec.ofBool (lastOf w) ++ opcodeOf w := by
  refine BitVec.eq_of_getLsbD_eq fun j hj => ?_
  rw [BitVec.getLsbD_append (x := reservedOf w ++ BitVec.ofBool (lastOf w)), BitVec.getLsbD_append]
  rcases (by omega : j < 8 ∨ j = 8 ∨ 9 ≤ j) with h | rfl | h
  · simp [h]
  · simp
  · simp [show ¬ j < 8 by omega, show j - 8 ≠ 0 by omega, show j - 8 - 1 < 23 by omega, show 9 + (j - 8 - 1) = j by omega]

/-- The encoding facts of the commands, of every command. -/
theorem encoding_statement (i : Instr) : Laws.Encoding.Statement i := by
  cases i with
  | nop => exact Laws.Encoding.nop
  | build => exact Laws.Encoding.build
  | derive => exact Laws.Encoding.derive
  | packBegin => exact Laws.Encoding.packBegin
  | packToken => exact Laws.Encoding.packToken
  | packEnd => exact Laws.Encoding.packEnd
  | rebuild => exact Laws.Encoding.rebuild
  | unpackBegin => exact Laws.Encoding.unpackBegin
  | unpackWord last => exact Laws.Encoding.unpackWord last
  | unpackEnd => exact Laws.Encoding.unpackEnd

/-- The decoder reads every command back from its own word. -/
theorem decode_encode (i : Instr) : decode (encode i) = .ok i := by
  obtain ⟨-, -, hdecode⟩ := encoding_statement i
  exact hdecode

/-- The three conditions of R112, on a word's fields. -/
theorem illegal_iff_fields (w : Word) :
    illegal w = true ↔ 0x09#8 < opcodeOf w ∨ reservedOf w ≠ 0#23 ∨ (lastOf w = true ∧ opcodeOf w ≠ 0x08#8) := by
  unfold illegal illegalReason
  split_ifs with hop hres hlast
  · simp [hop]
  · simp [hres]
  · simp [hlast]
  · simp only [hop, hres, hlast, or_self, Option.isSome_none, Bool.false_eq_true]

/-- Each opcode of the map is some command's, and LAST may be 1 at UNPACK_WORD's (R111). -/
theorem exists_command {op : Byte} {last : Bool} (hop : op ≤ 0x09#8) (hlast : last = true → op = 0x08#8) :
    ∃ i : Instr, i.opcode = op ∧ i.lastBit = last := by
  by_cases h8 : op = 0x08#8
  · exact ⟨.unpackWord last, h8.symm, rfl⟩
  · obtain rfl : last = false := Bool.eq_false_iff.mpr (mt hlast h8)
    obtain rfl | rfl | rfl | rfl | rfl | rfl | rfl | rfl | rfl : op = 0x00#8 ∨ op = 0x01#8 ∨ op = 0x02#8 ∨ op = 0x03#8
        ∨ op = 0x04#8 ∨ op = 0x05#8 ∨ op = 0x06#8 ∨ op = 0x07#8 ∨ op = 0x09#8 := by bv_omega
    · exact ⟨.nop, rfl, rfl⟩
    · exact ⟨.build, rfl, rfl⟩
    · exact ⟨.derive, rfl, rfl⟩
    · exact ⟨.packBegin, rfl, rfl⟩
    · exact ⟨.packToken, rfl, rfl⟩
    · exact ⟨.packEnd, rfl, rfl⟩
    · exact ⟨.rebuild, rfl, rfl⟩
    · exact ⟨.unpackBegin, rfl, rfl⟩
    · exact ⟨.unpackEnd, rfl, rfl⟩

/-- A word that is not illegal is the word of some command. -/
theorem exists_encode_of_legal {w : Word} (h : illegal w = false) : ∃ i, w = encode i := by
  obtain ⟨hop, hres, hlast⟩ :
      opcodeOf w ≤ 0x09#8 ∧ reservedOf w = 0#23 ∧ (lastOf w = true → opcodeOf w = 0x08#8) := by
    simpa only [h, Bool.false_eq_true, false_iff, not_or, BitVec.not_lt, not_not, not_and] using illegal_iff_fields w
  obtain ⟨i, hi, hl⟩ := exists_command hop hlast
  exact ⟨i, by rw [eq_append_fields w, hres, encode, hi, hl]⟩

/-- The decoder rejects exactly the illegal words (R112). -/
theorem illegal_iff_decode_error (w : Word) : illegal w = true ↔ ∃ r, decode w = .error r := by
  cases h : illegal w with
  | true =>
    obtain ⟨r, hr⟩ := Option.isSome_iff_exists.mp h
    simp [decode, hr]
  | false =>
    obtain ⟨i, rfl⟩ := exists_encode_of_legal h
    simp [decode_encode]

/-- Settles O1: a word the decoder accepts is not illegal, so it is some command's word, and that word decodes back. -/
theorem decodeAcceptsExactlyTheEncodings : Obligations.DecodeAcceptsExactlyTheEncodings := by
  intro w i
  refine ⟨fun hd => ?_, fun hw => hw ▸ decode_encode i⟩
  have hlegal : illegal w = false := by simp [← Bool.not_eq_true, illegal_iff_decode_error, hd]
  obtain ⟨j, rfl⟩ := exists_encode_of_legal hlegal
  rw [Except.ok.inj (hd.symm.trans (decode_encode j))]

/-- Settles O2: each word of the map is its command's encoding. -/
theorem opcodeMapWordsDecode : Obligations.OpcodeMapWordsDecode :=
  ⟨decode_encode .nop, decode_encode .build, decode_encode .derive, decode_encode .packBegin, decode_encode .packToken,
    decode_encode .packEnd, decode_encode .rebuild, decode_encode .unpackBegin, decode_encode (.unpackWord false),
    decode_encode (.unpackWord true), decode_encode .unpackEnd⟩

/-- The conditions of R112, on a word's number. -/
theorem illegal_iff_toNat (w : Word) :
    illegal w = true ↔ 0x0A ≤ w.toNat % 256 ∨ w.toNat / 512 ≠ 0 ∨ (w.getLsbD 8 = true ∧ w.toNat % 256 ≠ 0x08) := by
  have hop : (opcodeOf w).toNat = w.toNat % 256 := BitVec.toNat_setWidth 8 w
  have hres : (reservedOf w).toNat = w.toNat / 512 := by
    rw [BitVec.extractLsb'_toNat, Nat.shiftRight_eq_div_pow]
    omega
  rw [illegal_iff_fields, BitVec.lt_def, ne_eq, ne_eq, ← BitVec.toNat_inj, ← BitVec.toNat_inj, hop, hres]
  rfl

end Sys2Proof

namespace Sys2Proof.Machine

/-- An illegal word completes with E_ILLEGAL and no other effect (R112, spec/40_commands_common.md R144). -/
theorem engineStep_of_illegal {s : State} (h : illegal s.seq.pending = true) : engineStep s = .next (s.complete .illegal) := by
  obtain ⟨r, hr⟩ := (illegal_iff_decode_error _).mp h
  simp [engineStep, hr, execIllegal]

/-- A write of CMD while the block is idle issues the word, whatever it is (spec/40_commands_common.md R140). -/
theorem hostAct_write_cmd {s : State} (hb : s.seq.busy = false) (w : Word) :
    hostAct s (.write 4 Reg.cmd.offset w) = .next (s.issue w) :=
  hostAct_write_reg hb w (by simp)

/-- Settles O3: the conditions on a word's fields, read as numbers; the decoder, the host's write and the engine's step. -/
theorem illegalWordsAreExactlyTheUnmapped : Obligations.IllegalWordsAreExactlyTheUnmapped := fun w =>
  ⟨illegal_iff_toNat w, illegal_iff_decode_error w, fun s hb => ⟨s.issue w, hostAct_write_cmd hb w, s.issue_seq w⟩,
    fun _ hs hw => engineStep_of_illegal (hs ▸ hw)⟩

/-! ## Words as bytes (R113) -/

@[simp] theorem length_bytesOfWord (L : Nat) (w : Word) : (bytesOfWord L w).length = L := by
  simp [bytesOfWord]

/-- The last byte is the least significant one. -/
theorem bytesOfWord_succ (L : Nat) (w : Word) : bytesOfWord (L + 1) w = bytesOfWord L (w >>> 8) ++ [w.setWidth 8] := by
  unfold bytesOfWord
  rw [List.range_succ, List.map_append]
  congr 1
  · refine List.map_congr_left fun i hi => ?_
    have hi : i < L := List.mem_range.mp hi
    rw [← BitVec.shiftRight_add, show 8 * (L + 1 - 1 - i) = 8 + 8 * (L - 1 - i) by omega]
  · simp

theorem wordOfBytes_append_singleton (bs : List Byte) (b : Byte) :
    wordOfBytes (bs ++ [b]) = (wordOfBytes bs <<< 8) ||| b.setWidth 32 := by
  simp [wordOfBytes]

theorem getElem_tokMask (L : Nat) (t : Word) {j : Nat} (hj : j < 32) : (tokMask L t)[j] = (t[j] && decide (j < 8 * L)) := by
  simp [tokMask, mask, ← BitVec.getLsbD_eq_getElem, BitVec.getLsbD_ofNat, hj]

/-- The low L + 1 bytes are the L above the last one, and the last one. -/
theorem tokMask_succ (L : Nat) (w : Word) : tokMask (L + 1) w = (tokMask L (w >>> 8) <<< 8) ||| (w.setWidth 8).setWidth 32 := by
  ext j hj
  by_cases h : j < 8
  · simp [getElem_tokMask, h, hj, show j < 8 * (L + 1) by omega]
  · simp [getElem_tokMask, h, hj, show 8 + (j - 8) = j by omega, show j - 8 < 8 * L ↔ j < 8 * (L + 1) by omega]

/-- L bytes of a word read back as its low 8L bits. -/
@[simp] theorem wordOfBytes_bytesOfWord (L : Nat) (w : Word) : wordOfBytes (bytesOfWord L w) = tokMask L w := by
  induction L generalizing w with
  | zero => simp [wordOfBytes, bytesOfWord, tokMask, mask]
  | succ L ih => rw [bytesOfWord_succ, wordOfBytes_append_singleton, ih, tokMask_succ]

/-- A token of L_MAX bytes is the whole word. -/
theorem tokMask_four (t : Word) : tokMask 4 t = t := BitVec.and_allOnes

/-! ## The reader undoes the writer (R117, R118) -/

theorem pieces_succ (k n : Nat) (bs : List Byte) : pieces k (n + 1) bs = bs.take k :: pieces k n (bs.drop k) := by
  simp [pieces, List.range_succ_eq_map, Nat.mul_add, Nat.add_comm]

/-- Equally long pieces written one after another are the pieces read. -/
theorem pieces_flatMap {α : Type} {f : α → List Byte} {k : Nat} (hf : ∀ x, (f x).length = k) (xs : List α) (rest : List Byte) :
    pieces k xs.length (xs.flatMap f ++ rest) = xs.map f := by
  induction xs with
  | nil => rfl
  | cons x xs ih =>
    rw [List.length_cons, pieces_succ, List.flatMap_cons, List.append_assoc, List.take_left' (hf x), List.drop_left' (hf x), ih,
      List.map_cons]

theorem length_flatMap_of_length {α : Type} {f : α → List Byte} {k : Nat} (hf : ∀ x, (f x).length = k) (xs : List α) :
    (xs.flatMap f).length = xs.length * k := by
  simp [List.length_flatMap, hf]

@[simp] theorem length_recordBytes (L : Nat) (e : CodeEntry) : (recordBytes L e).length = L + 5 := by
  simp [recordBytes]

/-- A record whose token fits in L bytes reads back. -/
theorem recordOfBytes_recordBytes {L : Nat} {e : CodeEntry} (he : tokMask L e.token = e.token) :
    recordOfBytes L (recordBytes L e) = e := by
  have hcw : ((recordBytes L e).drop L).take 4 = bytesOfWord 4 e.cw := by simp [recordBytes]
  have hlen : (recordBytes L e).getD (L + 4) 0#8 = e.len := by simp [recordBytes]
  rw [recordOfBytes, hcw, hlen]
  simp [recordBytes, he, tokMask_four]

/-- The bytes before the table: the format tag, the width and the table's length in bytes (R117). -/
def headerBytes (magic : Word) (width tableLength : Nat) : List Byte :=
  bytesOfWord 4 magic ++ [BitVec.ofNat 8 width] ++ bytesOfWord 4 (BitVec.ofNat 32 tableLength)

/-- Steps 1 to 3 accept bytes that begin with the tag, a legal width and the length of a table of 1 to NSYM_MAX records, and are
long enough to hold it. -/
theorem parseHead_of_fields {magic : Word} {nsymMax width n : Nat} {bs : List Byte} (hmagic : wordOfBytes (bs.take 4) = magic)
    (hwidth : (bs.getD 4 0#8).toNat = width) (htable : (wordOfBytes ((bs.drop 5).take 4)).toNat = n * (width + 5))
    (hw : WidthOk width) (hn : 1 ≤ n) (hmax : n ≤ nsymMax) (hlen : 9 + n * (width + 5) ≤ bs.length) :
    parseHead magic nsymMax bs = .ok ⟨width, n, bs.drop 9⟩ := by
  have hpos : n * (width + 5) ≠ 0 := by positivity
  have hcount : n * (width + 5) / (width + 5) = n := Nat.mul_div_cancel n (by omega)
  unfold parseHead
  rw [if_neg, if_neg, if_neg]
  all_goals simp only [hmagic, hwidth, htable, hcount]
  · simp [hpos, hmax]
    omega
  · simp [hw]
    omega
  · simp
    omega

/-- The header of a table, and a body that holds it, pass the checks of steps 1 to 3. -/
theorem parseHead_headerBytes (magic : Word) {nsymMax width n : Nat} {body : List Byte} (hw : WidthOk width) (hn : 1 ≤ n)
    (hmax : n ≤ nsymMax) (hfit : n * (width + 5) < 2 ^ 32) (hbody : n * (width + 5) ≤ body.length) :
    parseHead magic nsymMax (headerBytes magic width (n * (width + 5)) ++ body) = .ok ⟨width, n, body⟩ := by
  have hheader : (headerBytes magic width (n * (width + 5))).length = 9 := by simp [headerBytes]
  have hsmall : width < 2 ^ 8 := hw.2.trans_lt (by decide)
  have hmagic : wordOfBytes ((headerBytes magic width (n * (width + 5)) ++ body).take 4) = magic := by
    simp [headerBytes, tokMask_four]
  have hwidth : ((headerBytes magic width (n * (width + 5)) ++ body).getD 4 0#8).toNat = width := by
    simpa [headerBytes] using hsmall
  have htable : (wordOfBytes (((headerBytes magic width (n * (width + 5)) ++ body).drop 5).take 4)).toNat
      = n * (width + 5) := by
    rw [headerBytes, List.append_assoc, List.drop_left' (by simp), List.take_left' (by simp), wordOfBytes_bytesOfWord,
      tokMask_four, BitVec.toNat_ofNat, Nat.mod_eq_of_lt hfit]
  have hlen : 9 + n * (width + 5) ≤ (headerBytes magic width (n * (width + 5)) ++ body).length := by
    rw [List.length_append, hheader]
    omega
  rw [parseHead_of_fields hmagic hwidth htable hw hn hmax hlen, List.drop_left' hheader]

/-- The table written at the start of a body is the table read. -/
theorem ContainerHead.table_flatMap (L : Nat) {table : List CodeEntry} (rest : List Byte)
    (h : ∀ e ∈ table, tokMask L e.token = e.token) :
    ContainerHead.table ⟨L, table.length, table.flatMap (recordBytes L) ++ rest⟩ = table := by
  rw [ContainerHead.table, pieces_flatMap (length_recordBytes L), List.map_map]
  exact (List.map_congr_left fun e he => recordOfBytes_recordBytes (h e he)).trans table.map_id

/-- What stands behind the table is trailingZeroBits and the payload. -/
theorem ContainerHead.tail_flatMap (L : Nat) (table : List CodeEntry) (rest : List Byte) :
    ContainerHead.tail ⟨L, table.length, table.flatMap (recordBytes L) ++ rest⟩ = rest :=
  List.drop_left' (length_flatMap_of_length (length_recordBytes L) table)

/-- A payload's bytes are a whole number of words, and read back as these (step 6). -/
theorem ContainerHead.withPayload_flatMap (h : ContainerHead) (tzb : Byte) (payload : List Word) :
    h.withPayload tzb (payload.flatMap (bytesOfWord 4)) = .ok ⟨h.width, h.table, tzb, payload⟩ := by
  have hlen : (payload.flatMap (bytesOfWord 4)).length = payload.length * 4 :=
    length_flatMap_of_length (length_bytesOfWord 4) payload
  have hpieces : pieces 4 payload.length (payload.flatMap (bytesOfWord 4)) = payload.map (bytesOfWord 4) := by
    simpa using pieces_flatMap (length_bytesOfWord 4) payload []
  rw [ContainerHead.withPayload, hlen, if_neg (by simp), Nat.mul_div_cancel _ (by decide), hpieces]
  simp [Function.comp_def, tokMask_four]

/-- A container is its header, its table, its trailingZeroBits byte and its payload (R117). -/
theorem containerBytes_eq_header_append (magic : Word) (c : Container) :
    containerBytes magic c = headerBytes magic c.width (c.table.length * (c.width + 5))
      ++ (c.table.flatMap (recordBytes c.width) ++ c.tzb :: c.payload.flatMap (bytesOfWord 4)) := by
  simp [containerBytes, headerBytes]

/-- Settles O59: each part of the container is read back where it was written. -/
theorem containerReadsBack : Obligations.ContainerReadsBack := by
  intro magic nsymMax c hw hn hmax hsmall htok
  have hfit : c.table.length * (c.width + 5) < 2 ^ 32 :=
    (Nat.mul_le_mul (hmax.trans hsmall) (Nat.add_le_add_right hw.2 5)).trans_lt (by decide)
  rw [containerBytes_eq_header_append, parseContainer, parseHead_headerBytes magic hw hn hmax hfit
    (by simp [length_flatMap_of_length (length_recordBytes c.width)])]
  simp only [ContainerHead.tail_flatMap, ContainerHead.withPayload_flatMap, ContainerHead.table_flatMap _ _ htok]

end Sys2Proof.Machine

/-! PROOFS. spec/40_commands_common.md: issue (R140), completion (R141), dispatch (R142), NOP (R143) and illegal words (R144). -/

namespace Sys2Proof

/-- The low byte of a command's word is its opcode (spec/30_encoding.md R110). -/
@[simp] theorem opcodeOf_encode (i : Instr) : opcodeOf (encode i) = i.opcode :=
  BitVec.setWidth_append_eq_right

/-- Only NOP has the opcode 0x00 (spec/30_encoding.md R111). -/
theorem Instr.opcode_eq_zero_iff (i : Instr) : i.opcode = 0x00#8 ↔ i = .nop := by
  cases i <;> simp [Instr.opcode]

/-- The one legal word of OPCODE 0x00 is NOP's, all of whose bits are 0 (R143). -/
theorem eq_zero_of_legal_of_opcodeOf_eq_zero {w : Word} (hlegal : illegal w = false) (hop : opcodeOf w = 0x00#8) :
    w = 0#32 := by
  obtain ⟨i, rfl⟩ := exists_encode_of_legal hlegal
  obtain rfl : i = .nop := i.opcode_eq_zero_iff.mp ((opcodeOf_encode i).symm.trans hop)
  rfl

end Sys2Proof

namespace Sys2Proof.Machine

/-! ## Completion (R141) -/

/-- Every command ends in a next state, its sequencer completed with some code. -/
theorem exec_next_completed_seq (i : Instr) (s : State) :
    ∃ (t : State) (c : ErrCode), exec i s = .next t ∧ t.seq = s.seq.complete c := by
  obtain ⟨u, c, h, -, -, hseq, -⟩ := exec_completes i s
  exact ⟨u.complete c, c, h, by rw [State.complete_seq, hseq]⟩

/-- While no command is pending the engine has no step. -/
theorem State.turn_ne_engine {s : State} (hb : s.seq.busy = false) : s.turn ≠ .engine := by
  unfold State.turn
  cases s.host.script <;> simp [hb]

/-- Settles O7: every command's completion of the sequencer, and whose step it is. -/
theorem completionWritesTheStatusFields : Obligations.CompletionWritesTheStatusFields :=
  ⟨exec_next_completed_seq, fun _ hb hlag => step_eq_engineStep hb (.inl hlag), fun _ => State.turn_ne_engine⟩

/-! ## Illegal words (R144) -/

/-- Settles O4: the engine's step on an illegal word, which sets ERR whatever it was; the corner cases are words given
by value. -/
theorem illegalWordCompletesWithEIllegal : Obligations.IllegalWordCompletesWithEIllegal := by
  refine ⟨fun s hb hdue hillegal => ?_, by decide⟩
  have herr : (s.seq.err || ErrCode.illegal != .ok) = true := Bool.or_true _
  rw [step_eq_engineStep hb hdue, engineStep_of_illegal hillegal, State.complete, Sequencer.complete, herr]

/-! ## Dispatch (R142) -/

/-- The engine's step runs the command the pending word decodes to. -/
theorem engineStep_of_decode {s : State} {i : Instr} (h : decode s.seq.pending = .ok i) : engineStep s = exec i s := by
  simp only [engineStep, h]

/-- A numbered word that stands for a command decodes to it. -/
theorem decode_tableWord {nbits w : Nat} {i : Instr} (h : decodeTableWord nbits w = some i) :
    decode (tableWord nbits w) = .ok i := by
  unfold decodeTableWord at h
  split at h
  next j hj => rwa [← Option.some.inj h]
  next => cases h

/-- Settles O5: both steps are the engine's, on a word that decodes. -/
theorem engineStepRunsTheDecodedCommand : Obligations.EngineStepRunsTheDecodedCommand :=
  ⟨fun _ _ hb hdue hdecode => (step_eq_engineStep hb hdue).trans (engineStep_of_decode hdecode),
    fun _ _ _ _ htable => (step_eq_engineStep rfl (.inl rfl)).trans (engineStep_of_decode (decode_tableWord htable))⟩

/-! ## Issue (R140) -/

/-- A write of CMD, at 0x10, while a command is pending is dropped, whatever the word (spec/20_memory.md R89). -/
theorem hostAct_write_cmd_busy {s : State} (hb : s.seq.busy = true) (w : Word) :
    hostAct s (.write 4 0x10 w) = .next s.dropWrite := by
  obtain ⟨-, hdrop⟩ := writesWhileBusyAreDropped s 0x10 w hb (by decide) (by decide)
  exact hdrop (by simp)

/-- Settles O6: the write's two cases, at CMD's offset 0x10. -/
theorem cmdWriteIssuesWhileIdle : Obligations.CmdWriteIssuesWhileIdle :=
  fun s w => ⟨fun hb => ⟨(s.issue w).host, hostAct_write_cmd hb w⟩, fun hb => hostAct_write_cmd_busy hb w⟩

/-! ## NOP (R143) -/

/-- NOP completes with E_OK and does nothing else. -/
theorem exec_nop (s : State) : exec .nop s = .next (s.complete .ok) := rfl

/-- A completion with E_OK leaves ERR as it was. -/
theorem Sequencer.complete_ok (q : Sequencer) :
    q.complete .ok = { q with errcode := .ok, lastop := opcodeOf q.pending, done := true, busy := false } := by
  have herr : (q.err || ErrCode.ok != .ok) = q.err := Bool.or_false _
  rw [Sequencer.complete, herr]

/-- Settles O10: the completion with E_OK, and NOP's word as the only legal one of OPCODE 0x00. -/
theorem nopOnlyCompletes : Obligations.NopOnlyCompletes := by
  refine ⟨fun s => ?_, decode_encode .nop, fun w hop hne => ?_⟩
  · rw [exec_nop, State.complete, Sequencer.complete_ok]
  · by_contra hlegal
    exact hne (eq_zero_of_legal_of_opcodeOf_eq_zero (Bool.eq_false_iff.mpr hlegal) hop)

end Sys2Proof.Machine

/-! PROOFS. spec/41_tree_builder.md: BUILD's checks (R166), one merge of the two queues (R163, R164), what the merges keep of the
leaves (R162), of the sum of the counts and, on sorted input, of the order of the weights (R167), and from these BUILD's tree. -/

namespace Sys2Proof.Machine

/-! ## BUILD's checks (R161, R166) -/

section

variable {s t : State}

theorem hasDupToken_eq_false_iff (L : Nat) (ts : List Word) : hasDupToken L ts = false ↔ DistinctTokens L ts := by
  induction ts with
  | nil => simp [hasDupToken]
  | cons t ts ih =>
    rw [hasDupToken, Bool.or_eq_false_iff, ih]
    simp [DistinctTokens, tokEq]

/-- The checks pass when L and N are in range and the N tokens are distinct. -/
theorem buildError_eq_none (hw : WidthOk s.tokenWidth) (hpos : 1 ≤ s.count) (hmax : s.count ≤ s.config.nsymMax)
    (hdistinct : DistinctTokens s.tokenWidth ((s.mem.sym.take s.count).map SymEntry.token)) : buildError s = none := by
  rw [← hasDupToken_eq_false_iff] at hdistinct
  rw [buildError, if_neg (not_not.mpr hw), if_neg (Nat.one_le_iff_ne_zero.mp hpos), if_neg hmax.not_gt, hdistinct]
  rfl

/-- No check answers E_OK. -/
theorem buildError_ne_ok : buildError s ≠ some .ok := by
  unfold buildError
  split_ifs <;> simp

/-- A BUILD whose check fails drops the tree. -/
theorem exec_build_of_error {e : ErrCode} (h : buildError s = some e) : exec .build s = .next (s.dropTree.complete e) := by
  simp [exec, execBuild, h]

/-- Settles O23: the first check that fails gives the code. -/
theorem buildErrorsDropTheTree : Obligations.BuildErrorsDropTheTree := by
  intro s _
  refine ⟨fun hw => exec_build_of_error ?_, fun hw h0 => exec_build_of_error ?_, fun hw hmax => exec_build_of_error ?_,
    fun hw hpos hmax hdup => exec_build_of_error ?_⟩
  · rw [buildError, if_pos hw]
  · rw [buildError, if_neg (not_not.mpr hw), if_pos h0]
  · rw [buildError, if_neg (not_not.mpr hw), if_neg (by omega), if_pos hmax]
  · rw [← hasDupToken_eq_false_iff, Bool.not_eq_false] at hdup
    rw [buildError, if_neg (not_not.mpr hw), if_neg hpos.ne', if_neg hmax.not_gt, if_pos hdup]

/-- A BUILD whose checks pass leaves the tree the merges make of SYM[0..N-1]; with one leaf that is the degenerate tree. -/
theorem exec_build_of_no_error (h : buildError s = none) :
    exec .build s = .next ((s.setTree (buildArena s.tokenWidth (s.mem.sym.take s.count) s.mem.node) (2 * s.count - 2)
      (2 * s.count - 1) (decide (s.count = 1))).complete .ok) := by
  by_cases hn : s.count = 1
  · simp [exec, execBuild, h, hn]
  · simp [exec, execBuild, h, hn]

/-- A BUILD that ends with E_OK passed its checks. -/
theorem buildError_of_exec_ok (h : exec .build s = .next t) (hok : t.seq.errcode = .ok) : buildError s = none := by
  cases he : buildError s with
  | none => rfl
  | some e =>
    rw [exec_build_of_error he, Host.Outcome.next.injEq] at h
    subst h
    exact absurd (he.trans (congrArg some hok)) buildError_ne_ok

/-- The state a BUILD that ends with E_OK leaves. -/
theorem eq_setTree_of_exec_build_ok (h : exec .build s = .next t) (hok : t.seq.errcode = .ok) :
    t = (s.setTree (buildArena s.tokenWidth (s.mem.sym.take s.count) s.mem.node) (2 * s.count - 2) (2 * s.count - 1)
      (decide (s.count = 1))).complete .ok := by
  rw [exec_build_of_no_error (buildError_of_exec_ok h hok), Host.Outcome.next.injEq] at h
  exact h.symm

theorem toNat_root_of_exec_build_ok (hs : StateOk s) (h : exec .build s = .next t) (hok : t.seq.errcode = .ok) :
    t.tree.root.toNat = 2 * s.count - 2 ∧ t.tree.nnodes.toNat = 2 * s.count - 1 := by
  obtain ⟨⟨-, hlegal⟩, -, -, -⟩ := hs
  obtain ⟨-, hmax⟩ := count_of_buildError (buildError_of_exec_ok h hok)
  rw [eq_setTree_of_exec_build_ok h hok]
  simp only [State.complete_tree, State.setTree_tree, BitVec.toNat_ofNat]
  omega

end

/-! ## One merge (R163, R164) -/

section

variable {n : Nat} {q : MergeState}

theorem popsLeaf_iff : popsLeaf n q = true
    ↔ q.lh < n ∧ (q.ih = q.next ∨ (nodeAt q.arena q.lh).weight ≤ (nodeAt q.arena q.ih).weight) := by
  simp only [popsLeaf, Bool.and_eq_true, Bool.or_eq_true, decide_eq_true_eq, beq_iff_eq]
  rfl

/-- The record a merge pops first, C1 of the record it makes. -/
def MergeState.first (n : Nat) (q : MergeState) : Nat := popIndex n q

/-- The record a merge pops second, C0 of the record it makes. -/
def MergeState.second (n : Nat) (q : MergeState) : Nat := popIndex n (popRest n q)

/-- The two pops of a merge take two waiting records, older than the one it makes, which then waits beside the others. -/
structure PopsTwo (n : Nat) (q : MergeState) : Prop where
  first : q.Waiting n (q.first n)
  second : q.Waiting n (q.second n)
  ne : q.first n ≠ q.second n
  first_lt : q.first n < q.next
  second_lt : q.second n < q.next
  rest : ∀ k, (mergeStep n q).Waiting n k ↔ (q.Waiting n k ∧ k ≠ q.first n ∧ k ≠ q.second n) ∨ k = q.next

theorem popsTwo_of_le (hlh : q.lh ≤ n) (hni : n ≤ q.ih) (hih : q.ih ≤ q.next)
    (htwo : 2 ≤ (n - q.lh) + (q.next - q.ih)) : PopsTwo n q := by
  obtain ⟨hw1, hx, hlh1, hni1, hih1, hsum1⟩ := pop_waiting hlh hni hih (by omega)
  obtain ⟨hw2, hy, -, -, hih2, -⟩ :=
    pop_waiting (q := popRest n q) hlh1 (by omega) (by simpa using hih1) (by simp only [popRest_next]; omega)
  have hyq := (hw1 _).mp hy
  have hlt (k : Nat) (hk : q.Waiting n k) : k < q.next := by unfold MergeState.Waiting at hk; omega
  refine ⟨hx, hyq.1, hyq.2.symm, hlt _ hx, hlt _ hyq.1, fun k => ?_⟩
  have hstep : (mergeStep n q).Waiting n k ↔ (popRest n (popRest n q)).Waiting n k ∨ k = q.next := by
    rw [popRest_next] at hih2
    simp only [MergeState.Waiting, mergeStep, popRest_next]
    omega
  rw [hstep, hw2, hw1, and_assoc]
  rfl

theorem QueuesOk.lt_next (h : QueuesOk n q) {k : Nat} (hk : q.Waiting n k) : k < q.next := by
  obtain ⟨-, hni, hih, -, -⟩ := h
  unfold MergeState.Waiting at hk
  omega

/-- The queues of a merge in progress hold two records. -/
theorem QueuesOk.popsTwo (h : QueuesOk n q) (hnext : q.next < 2 * n - 1) : PopsTwo n q := by
  obtain ⟨hlh, hni, hih, hheads, -⟩ := h
  exact popsTwo_of_le hlh hni hih (by omega)

/-- The four kinds of records after a merge. -/
theorem PopsTwo.nodeAt_mergeStep (h : PopsTwo n q) (hsize : q.next < q.arena.length) (k : Nat) :
    nodeAt (mergeStep n q).arena k
      = if k = q.second n then
          { nodeAt q.arena (q.second n) with hasPar := true, parent := BitVec.ofNat 32 q.next, bit := false }
        else if k = q.first n then
          { nodeAt q.arena (q.first n) with hasPar := true, parent := BitVec.ofNat 32 q.next, bit := true }
        else if k = q.next then mergedRec q.arena (q.first n) (q.second n) else nodeAt q.arena k := by
  have hx := h.first_lt
  have hy := h.second_lt
  have harena : (mergeStep n q).arena
      = linkChild (linkChild (q.arena.set q.next (mergedRec q.arena (q.first n) (q.second n))) (q.first n) q.next true)
          (q.second n) q.next false := by
    simp [mergeStep, MergeState.first, MergeState.second]
  rw [harena, nodeAt_linkChild _ _ _ (by simp; omega), nodeAt_linkChild _ _ _ (by simp; omega),
    nodeAt_linkChild _ _ _ (by simp; omega)]
  simp only [nodeAt_set _ _ hsize, h.ne.symm, hx.ne, hy.ne, if_false]

theorem PopsTwo.nodeAt_mergeStep_next (h : PopsTwo n q) (hsize : q.next < q.arena.length) :
    nodeAt (mergeStep n q).arena q.next = mergedRec q.arena (q.first n) (q.second n) := by
  rw [h.nodeAt_mergeStep hsize, if_neg h.second_lt.ne', if_neg h.first_lt.ne', if_pos rfl]

/-- Settles O29: the leaf is popped exactly when `popsLeaf` says so; a merge changes the three records. -/
theorem popPrefersTheLeafOnEqualWeights : Obligations.PopPrefersTheLeafOnEqualWeights := by
  intro n q
  refine ⟨fun hleaf => ?_, fun hleaf => ?_, fun hlh hni hih htwo hsize => ?_⟩
  · have hp := popsLeaf_iff.mpr hleaf
    exact ⟨if_pos hp, if_pos hp⟩
  · have hp := popsLeaf_iff.not.mpr hleaf
    exact ⟨if_neg hp, if_neg hp⟩
  · have h := popsTwo_of_le hlh hni hih htwo
    have hrec := h.nodeAt_mergeStep hsize
    refine ⟨(mergeStep n q).arena, by simp [mergeStep], mergeStep_length n q, h.ne, h.first_lt, h.second_lt,
      h.nodeAt_mergeStep_next hsize, ?_, ?_, fun k hkn hkx hky => ?_⟩
    · exact (hrec (q.first n)).trans ((if_neg h.ne).trans (if_pos rfl))
    · exact (hrec (q.second n)).trans (if_pos rfl)
    · exact (hrec k).trans ((if_neg hky).trans ((if_neg hkx).trans (if_neg hkn)))

end

/-! ## What the merges keep of the arena (R162, R164) -/

/-- A record without its link to a parent. -/
def NodeRec.unlinked (r : NodeRec) : NodeRec := { r with hasPar := false, parent := 0#32, bit := false }

theorem weightAt_eq_of_unlinked {a a' : List NodeRec} {k : Nat} (h : (nodeAt a' k).unlinked = (nodeAt a k).unlinked) :
    weightAt a' k = weightAt a k :=
  (congrArg NodeRec.weight h :)

theorem childOf_eq_of_unlinked {a a' : List NodeRec} {k : Nat} (h : (nodeAt a' k).unlinked = (nodeAt a k).unlinked)
    (b : Bool) : childOf a' k b = childOf a k b := by
  have h1 : (nodeAt a' k).c1 = (nodeAt a k).c1 := (congrArg NodeRec.c1 h :)
  have h0 : (nodeAt a' k).c0 = (nodeAt a k).c0 := (congrArg NodeRec.c0 h :)
  simp only [childOf, h1, h0]

section

variable {n : Nat} {q : MergeState}

/-- A merge changes no record but the links of the popped ones and the record it makes. -/
theorem PopsTwo.unlinked_mergeStep (h : PopsTwo n q) (hsize : q.next < q.arena.length) {k : Nat} (hk : k ≠ q.next) :
    (nodeAt (mergeStep n q).arena k).unlinked = (nodeAt q.arena k).unlinked := by
  rw [h.nodeAt_mergeStep hsize]
  split_ifs with hy hx
  · rw [hy]; rfl
  · rw [hx]; rfl
  · rfl

theorem PopsTwo.childOf_next (h : PopsTwo n q) (hsize : q.next < q.arena.length) (hbound : q.next ≤ 2 ^ 32) :
    childOf (mergeStep n q).arena q.next true = q.first n ∧ childOf (mergeStep n q).arena q.next false = q.second n := by
  have hx := h.first_lt
  have hy := h.second_lt
  simp only [childOf, h.nodeAt_mergeStep_next hsize, mergedRec, BitVec.toNat_ofNat]
  exact ⟨Nat.mod_eq_of_lt (by omega), Nat.mod_eq_of_lt (by omega)⟩

/-- The record k is internal, with its children's weights summed. -/
structure MadeAt (a : List NodeRec) (k : Nat) : Prop where
  leaf : (nodeAt a k).leaf = false
  token : (nodeAt a k).token = 0#32
  weight : weightAt a k = weightAt a (childOf a k true) + weightAt a (childOf a k false)

/-- What the merges keep of the arena `a` they start from: the leaves but their links, and the records not yet made. -/
structure BuiltFrom (n : Nat) (a : List NodeRec) (q : MergeState) : Prop extends MergeInv n q where
  kept : ∀ k < n, (nodeAt q.arena k).unlinked = (nodeAt a k).unlinked
  made : ∀ k, n ≤ k → k < q.next → MadeAt q.arena k
  fresh : ∀ k, q.next ≤ k → nodeAt q.arena k = nodeAt a k

variable {a : List NodeRec}

/-- The children of a record made are no longer in the queues. -/
theorem BuiltFrom.child_popped (h : BuiltFrom n a q) {k : Nat} (hnk : n ≤ k) (hk : k < q.next) (b : Bool) :
    childOf q.arena k b < q.next ∧ ¬ q.Waiting n (childOf q.arena k b) := by
  obtain ⟨-, hloose, -⟩ := h.forest.child k ⟨hnk, hk⟩ b
  exact ⟨not_le.mp fun hle => hloose (.inr hle), fun hw => hloose (.inl hw)⟩

/-- The record just made is internal, with its children's weights summed. -/
theorem PopsTwo.madeAt_next (h : PopsTwo n q) (hsize : q.next < q.arena.length) (hbound : q.next ≤ 2 ^ 32) :
    MadeAt (mergeStep n q).arena q.next := by
  have hnext := h.nodeAt_mergeStep_next hsize
  obtain ⟨hc1, hc0⟩ := h.childOf_next hsize hbound
  refine ⟨by rw [hnext]; rfl, by rw [hnext]; rfl, ?_⟩
  rw [hc1, hc0, weightAt_eq_of_unlinked (h.unlinked_mergeStep hsize h.first_lt.ne),
    weightAt_eq_of_unlinked (h.unlinked_mergeStep hsize h.second_lt.ne), weightAt, hnext, mergedRec]

theorem BuiltFrom.step (h : BuiltFrom n a q) (hn : n ≤ 2 ^ 31) (hnext : q.next < 2 * n - 1) :
    BuiltFrom n a (mergeStep n q) := by
  have hp := h.queues.popsTwo hnext
  have hsize : q.next < q.arena.length := hnext.trans_le h.size
  have hni : n ≤ q.next := h.queues.le_ih.trans h.queues.ih_le
  have hold {k : Nat} (hk : k < q.next) := hp.unlinked_mergeStep hsize hk.ne
  refine ⟨h.toMergeInv.step hn hnext, fun k hk => (hold (by omega)).trans (h.kept k hk), fun k hnk hk => ?_,
    fun k hk => ?_⟩
  · rw [mergeStep_next] at hk
    rcases Nat.lt_succ_iff_lt_or_eq.mp hk with hk | rfl
    · obtain ⟨hleaf, htoken, hweight⟩ := h.made k hnk hk
      have hchild (b : Bool) := h.child_popped hnk hk b
      refine ⟨(congrArg NodeRec.leaf (hold hk)).trans hleaf, (congrArg NodeRec.token (hold hk)).trans htoken, ?_⟩
      rw [childOf_eq_of_unlinked (hold hk), childOf_eq_of_unlinked (hold hk), weightAt_eq_of_unlinked (hold hk),
        weightAt_eq_of_unlinked (hold (hchild true).1), weightAt_eq_of_unlinked (hold (hchild false).1), hweight]
    · exact hp.madeAt_next hsize (by omega)
  · rw [mergeStep_next] at hk
    have hx := hp.first_lt
    have hy := hp.second_lt
    rw [hp.nodeAt_mergeStep hsize, if_neg (by omega), if_neg (by omega), if_neg (by omega)]
    exact h.fresh k (by omega)

/-! ## The sum of the waiting weights (R167 (b)) -/

/-- WEIGHT of record k, as a number. -/
def MergeState.weight (q : MergeState) (k : Nat) : Nat := (weightAt q.arena k).toNat

@[simp] theorem popRest_weight : (popRest n q).weight = q.weight := by
  funext k
  rw [MergeState.weight, popRest_arena, MergeState.weight]

/-- The records in the queues. -/
def MergeState.waiting (n : Nat) (q : MergeState) : Finset Nat := Finset.Ico q.lh n ∪ Finset.Ico q.ih q.next

theorem MergeState.mem_waiting {k : Nat} : k ∈ q.waiting n ↔ q.Waiting n k := by
  simp [MergeState.waiting, MergeState.Waiting]

/-- Taking the popped records from the queues and adding the new one. -/
theorem PopsTwo.waiting_mergeStep (h : PopsTwo n q) :
    (mergeStep n q).waiting n = insert q.next (((q.waiting n).erase (q.first n)).erase (q.second n)) := by
  ext k
  rw [MergeState.mem_waiting, h.rest]
  simp only [Finset.mem_insert, Finset.mem_erase, MergeState.mem_waiting]
  tauto

/-- Taking the popped records from the queues. -/
theorem PopsTwo.sum_waiting (h : PopsTwo n q) (f : Nat → Nat) : ∑ k ∈ q.waiting n, f k
    = f (q.first n) + (f (q.second n) + ∑ k ∈ ((q.waiting n).erase (q.first n)).erase (q.second n), f k) := by
  have hx : q.first n ∈ q.waiting n := MergeState.mem_waiting.mpr h.first
  have hy : q.second n ∈ (q.waiting n).erase (q.first n) :=
    Finset.mem_erase.mpr ⟨h.ne.symm, MergeState.mem_waiting.mpr h.second⟩
  rw [Finset.add_sum_erase _ _ hy, Finset.add_sum_erase _ _ hx]

/-- A merge keeps the weights of the records before the one it makes. -/
theorem PopsTwo.weight_mergeStep (h : PopsTwo n q) (hsize : q.next < q.arena.length) {k : Nat} (hk : k < q.next) :
    (mergeStep n q).weight k = q.weight k :=
  congrArg BitVec.toNat (weightAt_eq_of_unlinked (h.unlinked_mergeStep hsize hk.ne))

/-- The record made weighs as much as the two popped, if the sum is a 64-bit number (spec/00_scope.md R16). -/
theorem PopsTwo.weight_mergeStep_next (h : PopsTwo n q) (hsize : q.next < q.arena.length)
    (hsum : ∑ k ∈ q.waiting n, q.weight k < 2 ^ 64) :
    (mergeStep n q).weight q.next = q.weight (q.first n) + q.weight (q.second n) := by
  rw [h.sum_waiting] at hsum
  rw [MergeState.weight, weightAt, h.nodeAt_mergeStep_next hsize, mergedRec, BitVec.toNat_add_of_lt]
  · rfl
  · simp only [MergeState.weight] at hsum
    omega

/-- The merges also keep the sum of the weights that wait. -/
structure SumKept (n : Nat) (a : List NodeRec) (total : Nat) (q : MergeState) : Prop extends BuiltFrom n a q where
  sum : ∑ k ∈ q.waiting n, q.weight k = total

variable {total : Nat}

theorem SumKept.step (h : SumKept n a total q) (hn : n ≤ 2 ^ 31) (htotal : total < 2 ^ 64) (hnext : q.next < 2 * n - 1) :
    SumKept n a total (mergeStep n q) := by
  refine ⟨h.toBuiltFrom.step hn hnext, ?_⟩
  obtain ⟨hb, hsum⟩ := h
  have hp := hb.queues.popsTwo hnext
  have hsize : q.next < q.arena.length := hnext.trans_le hb.size
  have hlt {k : Nat} (hk : k ∈ ((q.waiting n).erase (q.first n)).erase (q.second n)) : k < q.next :=
    hb.queues.lt_next (MergeState.mem_waiting.mp (Finset.mem_of_mem_erase (Finset.mem_of_mem_erase hk)))
  rw [← hsum] at htotal
  rw [hp.waiting_mergeStep, Finset.sum_insert fun hk => (hlt hk).false, hp.weight_mergeStep_next hsize htotal,
    Finset.sum_congr rfl fun k hk => hp.weight_mergeStep hsize (hlt hk), ← hsum, hp.sum_waiting, add_assoc]

/-! ## Sorted input (R167 (a)) -/

/-- When both queues are sorted, `pop` takes a lightest waiting record (R163). -/
theorem weight_popIndex_le (hleaves : ∀ i j, i ≤ j → j < n → q.weight i ≤ q.weight j)
    (hmade : ∀ i j, q.ih ≤ i → i ≤ j → j < q.next → q.weight i ≤ q.weight j) {z : Nat} (hz : q.Waiting n z) :
    q.weight (popIndex n q) ≤ q.weight z := by
  cases hp : popsLeaf n q with
  | true =>
    obtain ⟨hlt, hfront⟩ := popsLeaf_iff.mp hp
    rw [popIndex, if_pos hp]
    rcases hz with ⟨hlh, hzn⟩ | ⟨hih, hzn⟩
    · exact hleaves _ _ hlh hzn
    · exact (hfront.resolve_left (by omega)).trans (hmade _ _ le_rfl hih hzn)
  | false =>
    have hfront := popsLeaf_iff.not.mp (Bool.eq_false_iff.mp hp)
    rw [popIndex, hp, if_neg Bool.false_ne_true]
    rcases hz with ⟨hlh, hzn⟩ | ⟨hih, hzn⟩
    · have hlt : q.weight q.ih < q.weight q.lh := by
        by_contra hle
        exact hfront ⟨by omega, .inr (not_lt.mp hle)⟩
      exact hlt.le.trans (hleaves _ _ hlh hzn)
    · exact hmade _ _ le_rfl hih hzn

/-- On sorted input the records made are in order of weight, and no record popped is heavier than one that waits. -/
structure InOrder (n : Nat) (q : MergeState) : Prop where
  leaves : ∀ i j, i ≤ j → j < n → q.weight i ≤ q.weight j
  made : ∀ k, n ≤ k → k + 1 < q.next → q.weight k ≤ q.weight (k + 1)
  popped : ∀ u < q.next, ¬ q.Waiting n u → ∀ z, q.Waiting n z → q.weight u ≤ q.weight z

theorem InOrder.made_le (h : InOrder n q) {i j : Nat} (hi : n ≤ i) (hij : i ≤ j) (hj : j < q.next) :
    q.weight i ≤ q.weight j := by
  induction j, hij using Nat.le_induction with
  | base => exact le_rfl
  | succ j hij ih => exact (ih (by omega)).trans (h.made j (hi.trans hij) hj)

/-- The record popped first is a lightest that waits, the one popped second a lightest of the others. -/
theorem InOrder.pops_lightest (h : InOrder n q) (hq : QueuesOk n q) (hnext : q.next < 2 * n - 1) {z : Nat}
    (hz : q.Waiting n z) :
    q.weight (q.first n) ≤ q.weight z ∧ (z ≠ q.first n → q.weight (q.second n) ≤ q.weight z) := by
  obtain ⟨hlh, hni, hih, hheads, -⟩ := hq
  obtain ⟨hw, -, -, hni', -, -⟩ := pop_waiting hlh hni hih (by omega)
  refine ⟨weight_popIndex_le h.leaves (fun i j hi hij hj => h.made_le (hni.trans hi) hij hj) hz, fun hne => ?_⟩
  have hmin := weight_popIndex_le (n := n) (q := popRest n q) (z := z)
  simp only [popRest_weight, popRest_next] at hmin
  exact hmin h.leaves (fun i j hi hij hj => h.made_le (hni.trans (hni'.trans hi)) hij hj) ((hw z).mpr ⟨hz, hne⟩)

/-- The last record made is no heavier than the next: the two it joins were popped before those the next joins. -/
theorem BuiltFrom.weight_le_pops (h : BuiltFrom n a q) (ho : InOrder n q) (hp : PopsTwo n q) {k : Nat} (hnk : n ≤ k)
    (hk : k < q.next) : q.weight k ≤ q.weight (q.first n) + q.weight (q.second n) := by
  have hchild (b : Bool) := h.child_popped hnk hk b
  calc q.weight k
      = (weightAt q.arena (childOf q.arena k true) + weightAt q.arena (childOf q.arena k false)).toNat :=
        congrArg BitVec.toNat (h.made k hnk hk).weight
    _ ≤ q.weight (childOf q.arena k true) + q.weight (childOf q.arena k false) := by
        rw [BitVec.toNat_add]
        exact Nat.mod_le _ _
    _ ≤ q.weight (q.first n) + q.weight (q.second n) :=
        Nat.add_le_add (ho.popped _ (hchild true).1 (hchild true).2 _ hp.first)
          (ho.popped _ (hchild false).1 (hchild false).2 _ hp.second)

theorem InOrder.step (ho : InOrder n q) (h : SumKept n a total q) (htotal : total < 2 ^ 64) (hnext : q.next < 2 * n - 1) :
    InOrder n (mergeStep n q) := by
  have hp := h.queues.popsTwo hnext
  have hsize : q.next < q.arena.length := hnext.trans_le h.size
  have hni : n ≤ q.next := h.queues.le_ih.trans h.queues.ih_le
  have hold {k : Nat} (hk : k < q.next) := hp.weight_mergeStep hsize hk
  have hnew := hp.weight_mergeStep_next hsize (h.sum.trans_lt htotal)
  refine ⟨fun i j hij hj => ?_, fun k hnk hk => ?_, fun u hu hpopped z hz => ?_⟩
  · rw [hold (by omega), hold (by omega)]
    exact ho.leaves i j hij hj
  · rw [mergeStep_next] at hk
    rw [hold (by omega)]
    rcases Nat.lt_succ_iff_lt_or_eq.mp hk with hk | hk
    · rw [hold hk]
      exact ho.made k hnk hk
    · rw [hk, hnew]
      exact h.toBuiltFrom.weight_le_pops ho hp hnk (by omega)
  · have hlight {z : Nat} (hz : q.Waiting n z) := ho.pops_lightest h.queues hnext hz
    rw [mergeStep_next] at hu
    rw [hp.rest] at hpopped hz
    have hun : u < q.next := by omega
    have hu' : ¬ q.Waiting n u ∨ u = q.first n ∨ u = q.second n := by tauto
    rw [hold hun]
    rcases hz with ⟨hz, hzx, hzy⟩ | rfl
    · rw [hold (h.queues.lt_next hz)]
      rcases hu' with hu' | rfl | rfl
      · exact ho.popped u hun hu' z hz
      · exact (hlight hz).1
      · exact (hlight hz).2 hzx
    · rw [hnew]
      rcases hu' with hu' | rfl | rfl
      · exact (ho.popped u hun hu' _ hp.first).trans (Nat.le_add_right _ _)
      · exact Nat.le_add_right _ _
      · exact Nat.le_add_left _ _

end

/-! ## All merges of a BUILD -/

/-- What one merge keeps, k merges keep, while enough records wait. -/
theorem mergeLoop_keeps {n : Nat} {P : MergeState → Prop} (hstep : ∀ q, P q → q.next < 2 * n - 1 → P (mergeStep n q))
    (k : Nat) {q : MergeState} (h : P q) (hk : q.next + k ≤ 2 * n - 1) : P (mergeLoop n k q) := by
  induction k generalizing q with
  | zero => exact h
  | succ k ih => exact ih (hstep q h (by omega)) (by rw [mergeStep_next]; omega)

@[simp] theorem mergeLoop_next (n k : Nat) (q : MergeState) : (mergeLoop n k q).next = q.next + k := by
  induction k generalizing q with
  | zero => rfl
  | succ k ih =>
    rw [mergeLoop, ih, mergeStep_next]
    omega

section

/-- The sum of the counts of a table. -/
def countSum (sym : List SymEntry) : Nat := (sym.map (fun e => e.count.toNat)).sum

variable (L : Nat) (sym : List SymEntry) (node : List NodeRec)

/-- The queues before the first merge. -/
def mergeStart : MergeState := { arena := leafArena L sym node, lh := 0, ih := sym.length, next := sym.length }

/-- The queues after the last merge. -/
def mergeEnd : MergeState := mergeLoop sym.length (sym.length - 1) (mergeStart L sym node)

theorem buildArena_eq_mergeEnd : buildArena L sym node = (mergeEnd L sym node).arena := rfl

variable {L sym node}

theorem mergeEnd_next (hpos : 1 ≤ sym.length) : (mergeEnd L sym node).next = 2 * sym.length - 1 := by
  rw [mergeEnd, mergeLoop_next, mergeStart]
  simp only
  omega

/-- At the end the record made last waits alone. -/
theorem QueuesOk.waiting_end {n : Nat} {q : MergeState} (h : QueuesOk n q) (hn : 1 ≤ n) (hnext : q.next = 2 * n - 1) :
    q.waiting n = {2 * n - 2} := by
  obtain ⟨hlh, hni, hih, hheads, hlast⟩ := h
  ext k
  rw [MergeState.mem_waiting, Finset.mem_singleton, MergeState.Waiting]
  omega

/-- A leaf weighs its count (R162). -/
theorem toNat_weightAt_leafArena (hlen : sym.length ≤ node.length) {i : Nat} (hi : i < sym.length) :
    (weightAt (leafArena L sym node) i).toNat = sym[i].count.toNat := by
  rw [weightAt, nodeAt_leafArena L sym node hi hlen, leafOfSym, BitVec.toNat_setWidth_of_le (by omega)]

/-- The waiting weights at the start are the counts. -/
theorem sum_weight_mergeStart (hlen : sym.length ≤ node.length) :
    ∑ k ∈ (mergeStart L sym node).waiting sym.length, (mergeStart L sym node).weight k = countSum sym := by
  have hwaiting : (mergeStart L sym node).waiting sym.length = Finset.range sym.length := by
    simp [MergeState.waiting, mergeStart]
  rw [hwaiting, countSum, Finset.sum_range, ← Fin.sum_univ_fun_getElem]
  exact Finset.sum_congr rfl fun i _ => toNat_weightAt_leafArena hlen i.isLt

/-- The counts of a table of legal size have a 64-bit sum (spec/00_scope.md R16). -/
theorem sum_counts_lt (hn : sym.length ≤ 4096) : countSum sym < 2 ^ 64 := by
  have hle := List.sum_le_card_nsmul (sym.map (fun e => e.count.toNat)) (2 ^ 32) (by
    intro x hx
    obtain ⟨e, -, rfl⟩ := List.mem_map.mp hx
    exact e.count.isLt.le)
  rw [List.length_map, smul_eq_mul] at hle
  rw [countSum]
  omega

theorem mergeStart_sumKept (hlen : 2 * sym.length - 1 ≤ node.length) :
    SumKept sym.length (leafArena L sym node) (countSum sym) (mergeStart L sym node) :=
  ⟨⟨mergeInv_start L sym node hlen, fun _ _ => rfl, fun _ hnk hk => absurd hnk hk.not_ge, fun _ _ => rfl⟩,
    sum_weight_mergeStart (by omega)⟩

/-- What all merges keep on any input. -/
theorem mergeEnd_sumKept (hlen : 2 * sym.length - 1 ≤ node.length) (hn : sym.length ≤ 4096) :
    SumKept sym.length (leafArena L sym node) (countSum sym) (mergeEnd L sym node) :=
  mergeLoop_keeps (fun _ h => h.step (by omega) (sum_counts_lt hn)) _ (mergeStart_sumKept hlen)
    (by simp only [mergeStart]; omega)

/-- The leaves of a sorted table are in order, and nothing has been popped. -/
theorem mergeStart_inOrder (hlen : sym.length ≤ node.length) (hsorted : SortedByCount sym) :
    InOrder sym.length (mergeStart L sym node) := by
  refine ⟨fun i j hij hj => ?_, fun k hnk hk => absurd (Nat.lt_of_succ_lt hk) hnk.not_gt, fun u hu hpopped => ?_⟩
  · have hi : (mergeStart L sym node).weight i = _ := toNat_weightAt_leafArena hlen (hij.trans_lt hj)
    have hj' : (mergeStart L sym node).weight j = _ := toNat_weightAt_leafArena hlen hj
    rw [hi, hj']
    rcases hij.eq_or_lt with rfl | hlt
    · exact le_rfl
    · exact List.pairwise_iff_getElem.mp hsorted i j _ hj hlt
  · exact absurd (.inl ⟨Nat.zero_le u, hu⟩) hpopped

/-- On sorted input all merges keep the order as well. -/
theorem mergeEnd_inOrder (hlen : 2 * sym.length - 1 ≤ node.length) (hn : sym.length ≤ 4096) (hsorted : SortedByCount sym) :
    InOrder sym.length (mergeEnd L sym node) := by
  have hstep (q : MergeState) (h : SumKept sym.length (leafArena L sym node) (countSum sym) q
      ∧ InOrder sym.length q) (hnext : q.next < 2 * sym.length - 1) :=
    And.intro (h.1.step (by omega) (sum_counts_lt hn) hnext) (h.2.step h.1 (sum_counts_lt hn) hnext)
  exact (mergeLoop_keeps hstep _ ⟨mergeStart_sumKept hlen, mergeStart_inOrder (by omega) hsorted⟩
    (by simp only [mergeStart]; omega)).2

/-- The root weighs the sum of the counts. -/
theorem weight_mergeEnd_root (hpos : 1 ≤ sym.length) (hlen : 2 * sym.length - 1 ≤ node.length) (hn : sym.length ≤ 4096) :
    (mergeEnd L sym node).weight (2 * sym.length - 2) = countSum sym := by
  have h := mergeEnd_sumKept (L := L) hlen hn
  rw [← h.sum, h.queues.waiting_end hpos (mergeEnd_next hpos), Finset.sum_singleton]

end

/-! ## BUILD's tree (R161, R165, R167) -/

section

variable {s t : State}

/-- The sizes a BUILD that passed its checks works with. -/
theorem build_sizes (hs : StateOk s) (hpos : 1 ≤ s.count) (hmax : s.count ≤ s.config.nsymMax) :
    (s.mem.sym.take s.count).length = s.count ∧ 2 * s.count - 1 ≤ s.mem.node.length ∧ s.count ≤ 4096 := by
  obtain ⟨⟨-, hlegal⟩, ⟨hsym, -, hnode, -⟩, -, -⟩ := hs
  rw [Config.arenaSize] at hnode
  rw [List.length_take]
  omega

/-- Settles O26: the merges keep a forest whose parents have the higher indices, and end with one tree. -/
theorem buildMakesAFullBinaryTree : Obligations.BuildMakesAFullBinaryTree := by
  intro s t hs _ h hok
  have ht := eq_setTree_of_exec_build_ok h hok
  obtain ⟨-, hup⟩ := build_fullTree hs (buildError_of_exec_ok h hok)
  obtain ⟨hroot, hnnodes⟩ := toNat_root_of_exec_build_ok hs h hok
  refine ⟨build_treeOk hs h (by rw [ht]; rfl), by rw [State.leaves, hnnodes]; omega, fun k hk hkr => ?_⟩
  rw [hnnodes] at hk
  rw [hroot] at hkr
  rw [ht]
  exact hup k hk hkr

/-- Settles O27: the merges keep the sum of the waiting weights, and at the end the root waits alone. -/
theorem buildRootWeighsAllCounts : Obligations.BuildRootWeighsAllCounts := by
  intro s t hs hpos h hok
  obtain ⟨-, hmax⟩ := count_of_buildError (buildError_of_exec_ok h hok)
  obtain ⟨hcount, hnode, hn⟩ := build_sizes hs hpos hmax
  obtain ⟨hroot, -⟩ := toNat_root_of_exec_build_ok hs h hok
  have hweight := weight_mergeEnd_root (L := s.tokenWidth) (sym := s.mem.sym.take s.count) (node := s.mem.node)
    (by omega) (by omega) (by omega)
  rw [hcount, ← hroot, MergeState.weight, ← buildArena_eq_mergeEnd] at hweight
  rw [eq_setTree_of_exec_build_ok h hok] at hweight ⊢
  exact hweight

/-- Settles O28: on sorted input each merge joins records no lighter than those the one before joined. -/
theorem buildInternalWeightsNeverDecrease : Obligations.BuildInternalWeightsNeverDecrease := by
  intro s t hs _ hsorted h hok k hnk hk
  obtain ⟨hpos, hmax⟩ := count_of_buildError (buildError_of_exec_ok h hok)
  obtain ⟨hcount, hnode, hn⟩ := build_sizes hs hpos hmax
  have horder := mergeEnd_inOrder (L := s.tokenWidth) (node := s.mem.node) (by omega) (by omega) hsorted
  have hle := horder.made k (by omega) (by rw [mergeEnd_next (by omega)]; omega)
  simp only [MergeState.weight, ← buildArena_eq_mergeEnd] at hle
  rw [eq_setTree_of_exec_build_ok h hok]
  exact hle

/-- Settles O24: with one leaf no merge is made, and the arena is that of the leaf. -/
theorem buildOfOneLeafIsDegenerate : Obligations.BuildOfOneLeafIsDegenerate := by
  intro s e hs hw hn he
  have hmax : s.count ≤ s.config.nsymMax := by have := hs.1.1; omega
  obtain ⟨-, hnode, -⟩ := build_sizes hs hn.ge hmax
  have hsym : s.mem.sym.take s.count = [e] := by
    rw [hn, List.take_one, List.head?_eq_getElem?, he, Option.toList_some]
  have hpass := buildError_eq_none hw hn.ge hmax (by rw [hsym]; exact List.pairwise_singleton _ _)
  refine ⟨leafArena s.tokenWidth [e] s.mem.node, ?_, ?_, ?_, fun k hk => ?_⟩
  · rw [exec_build_of_no_error hpass, hsym, hn]
    rfl
  · simp [leafArena]
  · exact nodeAt_leafArena s.tokenWidth [e] s.mem.node Nat.one_pos (by rw [List.length_singleton]; omega)
  · exact entryAt_writePrefix_ge _ _ _ _ hk

/-- Settles O25: the records of the arena after the last merge. -/
theorem buildCompletes : Obligations.BuildCompletes := by
  intro s hs hw htwo hmax hdistinct
  obtain ⟨hcount, hnode, hn⟩ := build_sizes hs (by omega) hmax
  have hb := (mergeEnd_sumKept (L := s.tokenWidth) (sym := s.mem.sym.take s.count) (node := s.mem.node) (by omega)
    (by omega)).toBuiltFrom
  have hnext := mergeEnd_next (L := s.tokenWidth) (sym := s.mem.sym.take s.count) (node := s.mem.node) (by omega)
  rw [hcount] at hb hnext
  have hn1 : s.count ≠ 1 := by omega
  have hexec := exec_build_of_no_error (buildError_eq_none hw (by omega) hmax hdistinct)
  rw [decide_eq_false hn1] at hexec
  refine ⟨_, hexec, buildArena_length _ _ _, fun i hi e he => ?_, fun k hnk hk => ?_, fun k hk => ?_⟩ <;>
    rw [buildArena_eq_mergeEnd]
  · have hlt : i < (s.mem.sym.take s.count).length := by omega
    have hsym : (s.mem.sym.take s.count)[i] = e := by
      rw [List.getElem_take]
      exact (List.getElem_eq_iff _).mpr he
    have hleaf := hb.kept i hi
    rw [nodeAt_leafArena _ _ _ hlt (by omega), hsym] at hleaf
    exact ⟨(congrArg NodeRec.leaf hleaf :), (congrArg NodeRec.c1 hleaf :), (congrArg NodeRec.c0 hleaf :),
      (congrArg NodeRec.weight hleaf :), (congrArg NodeRec.token hleaf :)⟩
  · obtain ⟨hleaf, htoken, hweight⟩ := hb.made k hnk (hk.trans_eq hnext.symm)
    exact ⟨hleaf, htoken, hweight⟩
  · rw [hb.fresh k (hnext.trans_le hk)]
    exact entryAt_writePrefix_ge _ _ _ _ (by rw [List.length_map]; omega)

end

end Sys2Proof.Machine

/-! PROOFS. spec/42_code_deriver.md: the upward walk to the end of a record's parent links (R181), and from it what DERIVE's
checks find, what it writes and what it leaves unchanged (R180, R182, R183). -/

namespace Sys2Proof.Machine

/-! ## The climb from a record (R181) -/

/-- The record j parent links above record i. -/
abbrev ancestor (node : List NodeRec) (j i : Nat) : Nat := (parentOf node)^[j] i

theorem ancestor_succ (node : List NodeRec) (j i : Nat) : ancestor node (j + 1) i = ancestor node j (parentOf node i) := rfl

/-- Exactly d parent links lead up from record i. -/
def IsDepth (node : List NodeRec) (i d : Nat) : Prop :=
  (∀ j < d, (nodeAt node (ancestor node j i)).hasPar = true) ∧ (nodeAt node (ancestor node d i)).hasPar = false

/-- The branch bit is appended above the bits so far, while it fits into the word. -/
def PathCode.append (p : PathCode) (b : Bool) : PathCode :=
  { cw := if p.len < 32 then p.cw ||| ((BitVec.ofBool b).setWidth 32 <<< p.len) else p.cw, len := p.len + 1 }

@[simp] theorem PathCode.append_len (p : PathCode) (b : Bool) : (p.append b).len = p.len + 1 := rfl

theorem PathCode.getLsbD_append (p : PathCode) (b : Bool) {j : Nat} (hj : j < 32) :
    (p.append b).cw.getLsbD j = (p.cw.getLsbD j || (decide (j = p.len) && b)) := by
  unfold append
  split
  next hlen =>
    by_cases hjl : j < p.len
    · simp [hj, hjl, hjl.ne]
    · by_cases hjp : j = p.len <;> simp [hj, hjl, hjp, hlen, BitVec.getLsbD_ofBool, show j - p.len = 0 ↔ j = p.len by omega]
  next hlen => simp [show j ≠ p.len by omega]

variable {node : List NodeRec}

theorem climb_of_hasPar {i : Nat} (h : (nodeAt node i).hasPar = true) (fuel : Nat) (p : PathCode) :
    climb node (fuel + 1) i p = climb node fuel (parentOf node i) (p.append (nodeAt node i).bit) := by
  rw [climb, if_pos h]
  rfl

theorem climb_of_not_hasPar {i : Nat} (h : (nodeAt node i).hasPar = false) (fuel : Nat) (p : PathCode) :
    climb node fuel i p = p := by
  cases fuel with
  | zero => rfl
  | succ fuel => rw [climb, if_neg (by simp [h])]

/-- A climb of k links, ended by the last record or by the fuel, appends the k branch bits. -/
theorem climb_spec {i k fuel : Nat} (p : PathCode) (hk : k ≤ fuel)
    (hpar : ∀ j < k, (nodeAt node (ancestor node j i)).hasPar = true)
    (hend : k = fuel ∨ (nodeAt node (ancestor node k i)).hasPar = false) :
    (climb node fuel i p).len = p.len + k
      ∧ ∀ j < 32, (climb node fuel i p).cw.getLsbD j
        = (p.cw.getLsbD j || (decide (p.len ≤ j ∧ j < p.len + k) && (nodeAt node (ancestor node (j - p.len) i)).bit)) := by
  induction k generalizing i fuel p with
  | zero =>
    have hstop : climb node fuel i p = p := by
      rcases hend with rfl | htop
      · rfl
      · exact climb_of_not_hasPar htop fuel p
    rw [hstop]
    refine ⟨rfl, fun j _ => ?_⟩
    rw [decide_eq_false (by omega), Bool.false_and, Bool.or_false]
  | succ k ih =>
    obtain ⟨fuel, rfl⟩ : ∃ f, fuel = f + 1 := ⟨fuel - 1, by omega⟩
    have hpar0 : (nodeAt node i).hasPar = true := hpar 0 k.succ_pos
    rw [climb_of_hasPar hpar0]
    obtain ⟨hlen, hbits⟩ := ih (i := parentOf node i) (fuel := fuel) (p.append (nodeAt node i).bit) (by omega)
      (fun j hj => hpar (j + 1) (by omega)) (hend.imp_left Nat.succ.inj)
    refine ⟨by rw [hlen, PathCode.append_len]; omega, fun j hj => ?_⟩
    rw [hbits j hj, PathCode.getLsbD_append p _ hj, PathCode.append_len]
    by_cases hjp : j = p.len
    · subst hjp
      simp [ancestor]
    · rw [decide_eq_false hjp, Bool.false_and, Bool.or_false]
      by_cases hlt : p.len < j
      · rw [show j - p.len = (j - (p.len + 1)) + 1 by omega, ancestor_succ]
        simp [show p.len + 1 ≤ j ↔ p.len ≤ j by omega, show p.len + 1 + k = p.len + (k + 1) by omega]
      · simp [show ¬ p.len + 1 ≤ j by omega, show ¬ p.len ≤ j by omega]

/-- Of a record at a depth DERIVE can write, the climb gives the depth and the branch bits. -/
theorem codeOf_of_isDepth {i d : Nat} (h : IsDepth node i d) (hd : d ≤ 31) :
    (codeOf node i).len = d
      ∧ ∀ j < 32, (codeOf node i).cw.getLsbD j = (decide (j < d) && (nodeAt node (ancestor node j i)).bit) := by
  obtain ⟨hlen, hbits⟩ := climb_spec { cw := 0#32, len := 0 } (hd.trans (by decide : 31 ≤ Config.maxCodeLen + 1)) h.1
    (.inr h.2)
  exact ⟨hlen.trans (Nat.zero_add d), fun j hj => by simpa [codeOf] using hbits j hj⟩

/-- Of a deeper record it gives a length past the limit. -/
theorem codeOf_len_of_deep {i : Nat} (h : ∀ j ≤ 31, (nodeAt node (ancestor node j i)).hasPar = true) :
    (codeOf node i).len = 32 :=
  (climb_spec { cw := 0#32, len := 0 } le_rfl (fun j hj => h j (Nat.le_of_lt_succ hj)) (.inl rfl)).1

/-- The depth is where the parent links first end. -/
theorem exists_isDepth {i k : Nat} (h : (nodeAt node (ancestor node k i)).hasPar = false) : ∃ d ≤ k, IsDepth node i d := by
  have hex : ∃ d, (nodeAt node (ancestor node d i)).hasPar = false := ⟨k, h⟩
  exact ⟨Nat.find hex, Nat.find_min' hex h, fun j hj => by simpa using Nat.find_min hex hj, Nat.find_spec hex⟩

/-- The climb's length keeps the limit exactly when the parent links end within it. -/
theorem codeOf_len_le_iff {i : Nat} :
    (codeOf node i).len ≤ 31 ↔ ∃ d ≤ 31, (nodeAt node (ancestor node d i)).hasPar = false := by
  constructor
  · intro hlen
    by_contra hdeep
    push Not at hdeep
    have := codeOf_len_of_deep (node := node) (i := i) fun j hj => by simpa using hdeep j hj
    omega
  · rintro ⟨k, hk, htop⟩
    obtain ⟨d, hd, hdepth⟩ := exists_isDepth htop
    rw [(codeOf_of_isDepth hdepth (hd.trans hk)).1]
    exact hd.trans hk

/-! ## The longest codeword (R180) -/

theorem maxLength_succ (n : Nat) : maxLength node (n + 1) = max (maxLength node n) (codeOf node n).len := by
  simp [maxLength, List.range_succ]

theorem maxLength_le_iff {n b : Nat} : maxLength node n ≤ b ↔ ∀ i < n, (codeOf node i).len ≤ b := by
  induction n with
  | zero => simp [maxLength]
  | succ n ih => rw [maxLength_succ, max_le_iff, ih, Nat.forall_lt_succ_right]

theorem exists_len_eq_maxLength {n : Nat} (hn : 1 ≤ n) : ∃ i < n, (codeOf node i).len = maxLength node n := by
  induction n, hn using Nat.le_induction with
  | base => exact ⟨0, Nat.one_pos, by simp [maxLength]⟩
  | succ n _ ih =>
    obtain ⟨i, hi, hlen⟩ := ih
    rw [maxLength_succ]
    rcases le_total (codeOf node n).len (maxLength node n) with hle | hle
    · exact ⟨i, by omega, by rw [hlen, max_eq_left hle]⟩
    · exact ⟨n, by omega, by rw [max_eq_right hle]⟩

/-! ## What DERIVE writes (R180) -/

/-- The entry written for leaf i. -/
theorem codeAt_derivedTable {code : List CodeEntry} {n i : Nat} (hi : i < n) (hlen : n ≤ code.length) :
    codeAt (writePrefix (derivedTable node n) code) i = derivedEntry node i := by
  rw [codeAt, entryAt_writePrefix_lt _ _ _ _ (by simpa [derivedTable] using hi) (by omega), entryAt_eq]
  simp [derivedTable, hi]

/-- LEN of an entry holds every length within the limit. -/
theorem derivedEntry_length {i : Nat} (h : (codeOf node i).len ≤ 31) : (derivedEntry node i).length = (codeOf node i).len := by
  rw [derivedEntry, CodeEntry.length, BitVec.toNat_ofNat]
  omega

section

variable {s t : State}

theorem exec_derive_of_error {e : ErrCode} (h : deriveError s = some e) : exec .derive s = .next (s.complete e) := by
  rw [exec, execDerive, h]
  rfl

theorem exec_derive_of_no_error (h : deriveError s = none) : exec .derive s = .next (s.setTable.complete .ok) := by
  rw [exec, execDerive, h]
  rfl

theorem deriveError_eq_none_iff :
    deriveError s = none ↔ s.tree.valid = true ∧ ∀ i < s.leaves, (codeOf s.mem.node i).len ≤ 31 := by
  rw [← maxLength_le_iff, deriveError]
  cases s.tree.valid <;> simp

/-- No check of DERIVE answers E_OK. -/
theorem deriveError_ne_ok : deriveError s ≠ some .ok := by
  unfold deriveError
  split_ifs <;> simp

/-- A DERIVE that completes with E_OK has passed its checks. -/
theorem derive_of_exec_ok (h : exec .derive s = .next t) (hok : t.seq.errcode = .ok) :
    deriveError s = none ∧ t = s.setTable.complete .ok := by
  rcases execDerive_cases h with ⟨e, he, rfl⟩ | hsuccess
  · exact absurd (he.trans (congrArg some hok)) deriveError_ne_ok
  · exact hsuccess

/-- Settles O30: a climb of 32 links makes the longest length exceed the limit. -/
theorem deriveErrorsChangeNothing : Obligations.DeriveErrorsChangeNothing := by
  refine fun s => ⟨fun hv => exec_derive_of_error (by rw [deriveError, if_pos hv]), fun hv ⟨i, hi, hdeep⟩ => ?_⟩
  have hlen : (codeOf s.mem.node i).len = 32 := codeOf_len_of_deep hdeep
  have hmax : ¬ maxLength s.mem.node s.leaves ≤ 31 := fun hle => by
    have := maxLength_le_iff.mp hle i hi
    omega
  exact exec_derive_of_error (by rw [deriveError, if_neg (by simp [hv]), if_pos (Nat.lt_of_not_le hmax)])

/-- A valid tree's leaves have room in CODE. -/
theorem leaves_le_code (hs : StateOk s) (ht : TreeOk s) : s.leaves ≤ s.mem.code.length := by
  obtain ⟨-, ⟨-, hcode, -⟩, -, -⟩ := hs
  obtain ⟨-, hmax, -⟩ := ht
  omega

/-- Settles O31: by the climb from each leaf. -/
theorem deriveCompletes : Obligations.DeriveCompletes := by
  intro s hs hv ht hshallow
  have hcode := leaves_le_code hs ht
  obtain ⟨hpos, -⟩ := ht
  have hlen : ∀ i < s.leaves, (codeOf s.mem.node i).len ≤ 31 := fun i hi => codeOf_len_le_iff.mpr (hshallow i hi)
  have hmax : (BitVec.ofNat 32 (maxLength s.mem.node s.leaves)).toNat = maxLength s.mem.node s.leaves := by
    have := maxLength_le_iff.mpr hlen
    rw [BitVec.toNat_ofNat]
    omega
  refine ⟨_, _, exec_derive_of_no_error (deriveError_eq_none_iff.mpr ⟨hv, hlen⟩), writePrefix_length _ _,
    fun i hi => ?_, ?_, fun i hi => entryAt_writePrefix_ge _ _ _ _ (by simpa [derivedTable] using hi)⟩
  · obtain ⟨k, hk, htop⟩ := hshallow i hi
    obtain ⟨d, hdk, hdepth⟩ := exists_isDepth htop
    obtain ⟨hd, hbits⟩ := codeOf_of_isDepth hdepth (hdk.trans hk)
    rw [codeAt_derivedTable hi hcode, derivedEntry_length (hlen i hi), hmax, hd]
    exact ⟨d, hdk.trans hk, hdepth.2, hdepth.1, rfl, rfl, hd ▸ maxLength_le_iff.mp le_rfl i hi, hbits⟩
  · obtain ⟨i, hi, hi_len⟩ := exists_len_eq_maxLength (node := s.mem.node) hpos
    exact ⟨i, hi, by rw [codeAt_derivedTable hi hcode, derivedEntry_length (hlen i hi), hmax, hi_len]⟩

/-- Writing one entry from index 0 on is writing entry 0. -/
theorem writePrefix_singleton {α : Type} (x : α) (m : List α) : writePrefix [x] m = m.set 0 x := by
  cases m <;> simp [writePrefix]

/-- Settles O32: the one leaf is the root, so its climb ends at once. -/
theorem degenerateTreeGetsTheEmptyCode : Obligations.DegenerateTreeGetsTheEmptyCode := by
  intro s hs hv ⟨_, _, hnodes, hdegen, hroot, hpar, _⟩ hd
  have hone : s.leaves = 1 := hdegen.mp hd
  have hroot0 : s.tree.root.toNat = 0 := by omega
  rw [hroot0] at hpar
  have hempty : codeOf s.mem.node 0 = { cw := 0#32, len := 0 } := climb_of_not_hasPar hpar _ _
  have hpass : deriveError s = none := deriveError_eq_none_iff.mpr ⟨hv, fun i hi => by
    obtain rfl : i = 0 := by omega
    simp [hempty]⟩
  rw [exec_derive_of_no_error hpass, State.setTable, hone]
  simp [derivedTable, derivedEntry, maxLength, hempty, writePrefix_singleton]

end

end Sys2Proof.Machine

/-! PROOFS. spec/42_code_deriver.md R184, R185: a path of branch bits down from the root and the climb back up give the same bits,
so every derived codeword is a root path, and none is a prefix of another. -/

namespace Sys2Proof.Machine

variable {node : List NodeRec}

/-! ## Paths down from the root -/

/-- The branch bits `path` lead from record `root` down to record k, through records of `inner` only. -/
inductive Leads (node : List NodeRec) (root : Nat) (inner : Set Nat) : List Bool → Nat → Prop
  | root : Leads node root inner [] root
  | child {path : List Bool} {p : Nat} (b : Bool) (hpath : Leads node root inner path p) (hp : p ∈ inner) :
    Leads node root inner (path ++ [b]) (childOf node p b)

theorem follow_append_singleton (k : Nat) (path : List Bool) (b : Bool) :
    follow node k (path ++ [b]) = childOf node (follow node k path) b := by
  simp only [follow, List.foldl_append, List.foldl_cons, List.foldl_nil]

theorem Leads.follow_eq {root k : Nat} {inner : Set Nat} {path : List Bool} (h : Leads node root inner path k) :
    follow node root path = k := by
  induction h with
  | root => rfl
  | child b _ _ ih => rw [follow_append_singleton, ih]

/-- Before its end the path stands at inner records. -/
theorem Leads.follow_take_mem {root k : Nat} {inner : Set Nat} {path : List Bool} (h : Leads node root inner path k) {j : Nat}
    (hj : j < path.length) : follow node root (path.take j) ∈ inner := by
  induction h with
  | root => cases hj
  | @child path p b hpath hp ih =>
    rw [List.length_append, List.length_singleton] at hj
    rw [List.take_append_of_le_length (by omega)]
    rcases Nat.lt_or_ge j path.length with hlt | hge
    · exact ih hlt
    · rwa [List.take_of_length_le hge, hpath.follow_eq]

/-- The path leads the same way in an arena with the same children below its inner records. -/
theorem Leads.of_childOf_eq {node' : List NodeRec} {root k : Nat} {inner inner' : Set Nat} {path : List Bool}
    (h : Leads node root inner path k) (hchild : ∀ p ∈ inner, ∀ b, childOf node' p b = childOf node p b)
    (hsub : inner ⊆ inner') : Leads node' root inner' path k := by
  induction h with
  | root => exact .root
  | child b _ hp ih =>
    rw [← hchild _ hp b]
    exact .child b ih (hsub hp)

/-! ## The branch bits of a climb -/

/-- The branch bits on the way down to record k from the record d links above it. -/
def rootPath (node : List NodeRec) : Nat → Nat → List Bool
  | 0, _ => []
  | d + 1, k => rootPath node d (parentOf node k) ++ [(nodeAt node k).bit]

theorem msbBits_succ (w : Word) (d : Nat) : msbBits w (d + 1) = msbBits (w >>> 1) d ++ [w.getLsbD 0] := by
  simp only [msbBits, List.range_succ, List.map_append, List.map_cons, List.map_nil, Nat.add_sub_cancel, Nat.sub_self]
  congr 1
  refine List.map_congr_left fun j hj => ?_
  rw [BitVec.getLsbD_ushiftRight, show 1 + (d - 1 - j) = d - j by have := List.mem_range.mp hj; omega]

@[simp] theorem length_msbBits (w : Word) (d : Nat) : (msbBits w d).length = d := by simp [msbBits]

@[simp] theorem CodeEntry.length_bits (e : CodeEntry) : e.bits.length = e.length := length_msbBits _ _

/-- The d low bits of a word are the way down to k exactly when they are the branch bits of the climb from k. -/
theorem msbBits_eq_rootPath_iff {w : Word} {d k : Nat} :
    msbBits w d = rootPath node d k ↔ ∀ j < d, w.getLsbD j = (nodeAt node (ancestor node j k)).bit := by
  induction d generalizing w k with
  | zero => simp [msbBits, rootPath]
  | succ d ih =>
    rw [msbBits_succ, rootPath, List.append_singleton_inj, ih, Nat.forall_lt_succ_left, and_comm]
    simp only [BitVec.getLsbD_ushiftRight, Nat.add_comm 1, ancestor_succ]
    rfl

theorem isDepth_zero_iff {k : Nat} : IsDepth node k 0 ↔ (nodeAt node k).hasPar = false := by
  simp [IsDepth, ancestor]

theorem isDepth_succ_iff {k d : Nat} :
    IsDepth node k (d + 1) ↔ (nodeAt node k).hasPar = true ∧ IsDepth node (parentOf node k) d := by
  rw [IsDepth, Nat.forall_lt_succ_left, and_assoc]
  rfl

/-! ## In a full binary tree -/

section

variable {n m root : Nat}

/-- The climb's bits lead back from the root to where it started (R184). -/
theorem FullTree.leads_rootPath (h : FullTree node n m root) {k d : Nat} (hk : k < m) (hd : IsDepth node k d) :
    Leads node root {p | IsInner node m p} (rootPath node d k) k := by
  obtain ⟨-, hpar, -, -, hup, -⟩ := h
  induction d generalizing k with
  | zero =>
    obtain rfl : k = root := by
      by_contra hne
      have := (hup k hk hne).1
      simp [isDepth_zero_iff.mp hd] at this
    exact .root
  | succ d ih =>
    obtain ⟨hkpar, hdepth⟩ := isDepth_succ_iff.mp hd
    obtain ⟨-, hlt, hinner, hchild⟩ := hup k hk fun hkr => by simp [hkr, hpar] at hkpar
    have hlead := (ih hlt hdepth).child (nodeAt node k).bit ⟨hlt, hinner⟩
    rwa [hchild] at hlead

/-- A child's own link leads back to its parent. -/
theorem FullTree.linkedChild (h : FullTree node n m root) {p : Nat} (hp : IsInner node m p) (b : Bool) :
    LinkedChild node p (childOf node p b) b := by
  obtain ⟨-, -, -, hdown, -, -⟩ := h
  obtain ⟨-, -, -, h1, h0⟩ := hdown p hp.1 hp.2
  cases b with
  | true => exact h1
  | false => exact h0

/-- A path down from the root is as long as the record it leads to is deep, and its bits are those of the climb. -/
theorem FullTree.climb_of_leads (h : FullTree node n m root) (hm : m ≤ 2 ^ 32) {path : List Bool} {k : Nat}
    (hlead : Leads node root {p | IsInner node m p} path k) :
    IsDepth node k path.length ∧ rootPath node path.length k = path := by
  induction hlead with
  | root =>
    obtain ⟨-, hpar, -⟩ := h
    exact ⟨isDepth_zero_iff.mpr hpar, rfl⟩
  | @child path p b _ hp ih =>
    obtain ⟨hpar, hparent, hbit⟩ := h.linkedChild hp b
    have hback : parentOf node (childOf node p b) = p := by
      rw [parentOf, hparent, BitVec.toNat_ofNat, Nat.mod_eq_of_lt (hp.1.trans_le hm)]
    rw [List.length_append, List.length_singleton, isDepth_succ_iff, rootPath, hback, hbit, ih.2]
    exact ⟨⟨hpar, ih.1⟩, rfl⟩

end

/-! ## The derived codewords (R184, R185) -/

section

variable {s t : State}

/-- A successful DERIVE of a valid tree writes for leaf i its depth, within the limit, and the bits of its climb. -/
theorem derived_codeAt (hs : StateOk s) (ht : TreeOk s) (h : exec .derive s = .next t) (hok : t.seq.errcode = .ok) {i : Nat}
    (hi : i < s.leaves) :
    codeAt t.mem.code i = derivedEntry s.mem.node i
      ∧ IsDepth s.mem.node i (derivedEntry s.mem.node i).length
      ∧ (derivedEntry s.mem.node i).bits = rootPath s.mem.node (derivedEntry s.mem.node i).length i
      ∧ (derivedEntry s.mem.node i).cw.toNat < 2 ^ (derivedEntry s.mem.node i).length := by
  obtain ⟨hpass, rfl⟩ := derive_of_exec_ok h hok
  have hlen := (deriveError_eq_none_iff.mp hpass).2 i hi
  obtain ⟨k, hk, htop⟩ := codeOf_len_le_iff.mp hlen
  obtain ⟨d, hdk, hdepth⟩ := exists_isDepth htop
  obtain ⟨hd, hbits⟩ := codeOf_of_isDepth hdepth (hdk.trans hk)
  have hlength : (derivedEntry s.mem.node i).length = d := (derivedEntry_length hlen).trans hd
  refine ⟨codeAt_derivedTable hi (leaves_le_code hs ht), hlength ▸ hdepth, ?_, ?_⟩
  · rw [CodeEntry.bits, msbBits_eq_rootPath_iff, hlength]
    intro j hj
    exact (hbits j (by omega)).trans (by simp [hj])
  · rw [hlength]
    refine Nat.lt_pow_two_of_testBit _ fun j hj => ?_
    rcases Nat.lt_or_ge j 32 with hlt | hge
    · exact (hbits j hlt).trans (by simp [hj.not_gt])
    · exact BitVec.getLsbD_of_ge _ _ hge

/-- Settles O33: the bits of the climb are a path down from the root. -/
theorem derivedCodesAreRootPaths : Obligations.DerivedCodesAreRootPaths := by
  intro s t hs _ ht h hok i hi
  obtain ⟨hentry, hdepth, hbits, hcw⟩ := derived_codeAt hs ht h hok hi
  obtain ⟨-, -, hnodes, -, hfull⟩ := ht
  have hlead := FullTree.leads_rootPath hfull (show i < s.tree.nnodes.toNat by omega) hdepth
  rw [hentry, ← CodeEntry.length_bits]
  rw [← hbits] at hlead
  exact ⟨hlead.follow_eq, fun j hj => (hlead.follow_take_mem hj).2, by rwa [CodeEntry.length_bits]⟩

/-- Settles O34: a codeword that is a proper prefix of another would end at an internal record, not at its own leaf. -/
theorem derivedTableIsPrefixFree : Obligations.DerivedTableIsPrefixFree := by
  intro s t hs hv ht h hok
  have hpath := derivedCodesAreRootPaths s t hs hv ht h hok
  obtain ⟨-, -, hnodes, -, hfull⟩ := ht
  obtain ⟨-, -, hleaf, -⟩ := id hfull
  refine ⟨fun i hi j hj hij hprefix => ?_, fun htwo i hi => ?_⟩
  · have htake := List.prefix_iff_eq_take.mp hprefix
    rw [CodeEntry.length_bits] at htake
    obtain ⟨hfollow_i, -, -⟩ := hpath i hi
    obtain ⟨hfollow_j, hinner, -⟩ := hpath j hj
    rcases Nat.lt_or_ge (codeAt t.mem.code i).length (codeAt t.mem.code j).length with hlt | hge
    · have hnotleaf := hinner _ hlt
      rw [← htake, hfollow_i, (hleaf i (by omega)).mpr hi] at hnotleaf
      cases hnotleaf
    · rw [List.take_of_length_le (by rwa [CodeEntry.length_bits])] at htake
      exact hij (hfollow_i.symm.trans (htake ▸ hfollow_j))
  · by_contra hzero
    obtain ⟨hfollow, -, -⟩ := hpath i hi
    have hnil : (codeAt t.mem.code i).bits = [] := List.length_eq_zero_iff.mp (by rw [CodeEntry.length_bits]; omega)
    have hroot : s.tree.root.toNat = i := by rwa [hnil] at hfollow
    have hinner := FullTree.root_not_leaf hfull (by omega)
    rw [hroot, (hleaf i (by omega)).mpr hi] at hinner
    cases hinner

end

end Sys2Proof.Machine

/-! PROOFS. spec/44_decode_tree.md R216, R221 (b): what REBUILD's splits keep of the leaves, and that every entry's codeword leads
down to its leaf; from these R186, a DERIVE after a REBUILD. -/

namespace Sys2Proof.Machine

/-! ## The parts of a split and their records (R215) -/

/-- The entries of an item that go to the child on bit b. -/
def SplitItem.part (code : List CodeEntry) (it : SplitItem) (b : Bool) : List Nat :=
  if b then it.entries.filter (branchBit code it.depth) else it.entries.filter (fun e => !branchBit code it.depth e)

theorem SplitItem.mem_part {code : List CodeEntry} {it : SplitItem} {e : Nat} (he : e ∈ it.entries) :
    e ∈ it.part code (branchBit code it.depth e) := by
  cases hb : branchBit code it.depth e <;> simp [part, he, hb]

/-- The state of the reconstruction when the part on bit b is placed: C1 first, then C0. -/
def SplitState.before (code : List CodeEntry) (it : SplitItem) (st : SplitState) (b : Bool) : SplitState :=
  if b then st else placeChild it.record it.depth true (it.part code true) st

/-- The record that the part on bit b gets. -/
def SplitState.child (code : List CodeEntry) (it : SplitItem) (st : SplitState) (b : Bool) : Nat :=
  childRecord (st.before code it b) (it.part code b)

variable {code : List CodeEntry} {it : SplitItem} {st : SplitState} {n : Nat}

/-- What a placement queues. -/
theorem placeChild_queue (k d : Nat) (b : Bool) (part : List Nat) (st : SplitState) :
    (placeChild k d b part st).queue
      = st.queue ++ if part.length = 1 then [] else [{ record := childRecord st part, entries := part, depth := d + 1 }] := by
  match part with
  | [] => rfl
  | [e] => exact (List.append_nil _).symm
  | e :: e' :: es => rfl

/-- What a split queues: behind the items that wait, the parts of two entries or more. -/
theorem splitRecord_queue (code : List CodeEntry) (it : SplitItem) (st : SplitState) :
    (splitRecord code it st).queue = st.queue ++ [true, false].flatMap fun b =>
      if (it.part code b).length = 1 then []
      else [{ record := st.child code it b, entries := it.part code b, depth := it.depth + 1 }] := by
  have hqueue : (splitRecord code it st).queue
      = (placeChild it.record it.depth false (it.part code false)
          (placeChild it.record it.depth true (it.part code true) st)).queue := rfl
  rw [hqueue, placeChild_queue, placeChild_queue, List.append_assoc, List.flatMap_cons, List.flatMap_cons, List.flatMap_nil,
    List.append_nil]
  rfl

theorem mem_splitRecord_queue_of_mem {it' : SplitItem} (h : it' ∈ st.queue) : it' ∈ (splitRecord code it st).queue := by
  rw [splitRecord_queue]
  exact List.mem_append_left _ h

theorem part_mem_splitRecord_queue {b : Bool} (h : (it.part code b).length ≠ 1) :
    { record := st.child code it b, entries := it.part code b, depth := it.depth + 1 } ∈ (splitRecord code it st).queue := by
  rw [splitRecord_queue]
  refine List.mem_append_right _ (List.mem_flatMap.mpr ⟨b, by cases b <;> simp, ?_⟩)
  rw [if_neg h]
  exact List.mem_singleton_self _

/-- The checks of R218 on an entry of the item split: its codeword reaches the item's depth, and a part that is this entry alone
is its leaf, at the depth where its codeword ends. -/
theorem checks_of_not_splitFails (h : splitFails code it = false) {e : Nat} (he : e ∈ it.entries) :
    it.depth ≤ lenAt code e ∧ ∀ b, it.part code b = [e] → lenAt code e = it.depth := by
  simp only [splitFails, Bool.or_eq_false_iff] at h
  obtain ⟨⟨⟨⟨hlen, -⟩, -⟩, h1⟩, h0⟩ := h
  refine ⟨by simpa using List.any_eq_false.mp hlen e he, fun b hpart => ?_⟩
  have hlone : loneMismatch code it.depth (it.part code b) = false := by cases b <;> assumption
  rw [hpart] at hlone
  simpa [loneMismatch] using hlone

/-- The records of a split lie in the arena. -/
theorem WorkOk.child_lt {rest : List SplitItem} (h : WorkOk n st.next (it :: rest) []) (hok : splitFails code it = false)
    (b : Bool) : SplitState.child code it { st with queue := rest } b < 2 * n - 1 := by
  obtain ⟨hs1, hs0⟩ := parts_ne_nil_of_not_splitFails hok
  obtain ⟨hwork, -, -⟩ := h.split (branchBit code it.depth) hs1 hs0
  have hplaced := WorkOk.place (st := { st with queue := rest }) hwork it.record it.depth true
  cases b with
  | true => exact hplaced.lt
  | false => exact (hplaced.work.place it.record it.depth false).lt

/-- The record split gets the two records as its children. -/
theorem childOf_splitRecord (hp : it.record < st.arena.length) {b : Bool} (hb : st.child code it b < 2 ^ 32) :
    childOf (splitRecord code it st).arena it.record b = st.child code it b := by
  have harena : (splitRecord code it st).arena
      = makeInternal (placeChild it.record it.depth false (it.part code false) (st.before code it false)).arena it.record
          (st.child code it true) (st.child code it false) := rfl
  rw [childOf, harena, nodeAt_makeInternal _ _ _ (by simpa [SplitState.before] using hp), if_pos rfl]
  cases b with
  | true => exact (BitVec.toNat_ofNat ..).trans (Nat.mod_eq_of_lt hb)
  | false => exact (BitVec.toNat_ofNat ..).trans (Nat.mod_eq_of_lt hb)

/-- A join changes no record but the links of its two children and the record above them. -/
theorem Joins.unlinked_eq {a a' : List NodeRec} {p x y k : Nat} (h : Joins a a' p x y) (hk : k ≠ p) :
    (nodeAt a' k).unlinked = (nodeAt a k).unlinked := by
  by_cases hx : k = x
  · rw [hx, h.one]; rfl
  by_cases hy : k = y
  · rw [hy, h.zero]; rfl
  rw [h.other k hk hx hy]

/-! ## The codewords as paths (R221 (b)) -/

/-- Where entry e stands: the first d bits of its codeword lead from record n, through records split already, to its leaf, at the
codeword's end, or to the record of an item it waits in. -/
def Tracked (n : Nat) (code : List CodeEntry) (st : SplitState) (e : Nat) : Prop :=
  ∃ d k, Leads st.arena n (splitSet n st.next st.queue) ((codeAt code e).bits.take d) k ∧ d ≤ lenAt code e
    ∧ ((k = e ∧ d = lenAt code e) ∨ ∃ it ∈ st.queue, e ∈ it.entries ∧ it.record = k ∧ it.depth = d + 1)

/-- Bit d + 1 of a codeword is the branch bit at that depth. -/
theorem take_succ_bits {e d : Nat} (hd : d < lenAt code e) :
    (codeAt code e).bits.take (d + 1) = (codeAt code e).bits.take d ++ [branchBit code (d + 1) e] := by
  rw [List.take_succ_eq_append_getElem (by rw [CodeEntry.length_bits]; exact hd)]
  simp [CodeEntry.bits, msbBits, branchBit, lenAt, Nat.sub_sub, Nat.add_comm]

/-- What the reconstruction keeps of the leaves and the codewords, beside the forest. -/
structure TrieInv (n L : Nat) (code : List CodeEntry) (st : SplitState) : Prop extends SplitInv n st where
  kept : ∀ i < n, (nodeAt st.arena i).unlinked = leafOfCode L (codeAt code i)
  tracked : ∀ e < n, Tracked n code st e

/-- A split moves an entry of the item split one bit on: to its leaf, or to the item of its part. -/
theorem tracked_of_split {e d : Nat} {inner : Set Nat} {st' : SplitState} (hst' : st' = splitRecord code it st)
    (hchild : ∀ b, childOf st'.arena it.record b = st.child code it b) (hok : splitFails code it = false)
    (he : e ∈ it.entries) (hd : it.depth = d + 1) (hinner : splitSet n st'.next st'.queue = insert it.record inner)
    (hpath : Leads st'.arena n (insert it.record inner) ((codeAt code e).bits.take d) it.record) : Tracked n code st' e := by
  obtain ⟨hlen, hlone⟩ := checks_of_not_splitFails hok he
  have hnext := hpath.child (branchBit code it.depth e) (Set.mem_insert _ _)
  rw [hchild, hd, ← take_succ_bits (by omega), ← hd, ← hinner] at hnext
  refine ⟨it.depth, _, hnext, hlen, ?_⟩
  by_cases hone : (it.part code (branchBit code it.depth e)).length = 1
  · obtain ⟨e', hpart⟩ := List.length_eq_one_iff.mp hone
    obtain rfl : e = e' := List.mem_singleton.mp (hpart ▸ SplitItem.mem_part he)
    exact .inl ⟨by rw [SplitState.child, hpart]; rfl, (hlone _ hpart).symm⟩
  · exact .inr ⟨_, hst' ▸ part_mem_splitRecord_queue hone, SplitItem.mem_part he, rfl, rfl⟩

/-- One split keeps it: the paths so far stay, and those of the entries of the item split grow by one bit. -/
theorem TrieInv.step {L : Nat} {rest : List SplitItem} (h : TrieInv n L code st) (hn : n ≤ 2 ^ 31)
    (hqueue : st.queue = it :: rest) (hok : splitFails code it = false) :
    TrieInv n L code (splitRecord code it { st with queue := rest }) := by
  have hinv := h.toSplitInv.step hn hqueue hok
  obtain ⟨⟨hwork, hsize, -, -, -⟩, hkept, htracked⟩ := h
  rw [hqueue] at hwork
  obtain ⟨-, x, y, -, -, -, -, -, -, -, hsplit, -, hj, -⟩ := splitRecord_joins hwork hsize hok rfl
  obtain ⟨hnp, -⟩ := hwork.record it List.mem_cons_self
  have hchild (b : Bool) := childOf_splitRecord (code := code) (it := it) (st := { st with queue := rest }) (b := b)
    ((hwork.record_lt List.mem_cons_self).trans_le hsize) ((hwork.child_lt hok b).trans_le (by omega))
  refine ⟨hinv, fun i hi => (hj.unlinked_eq (by omega)).trans (hkept i hi), fun e he => ?_⟩
  obtain ⟨d, k, hpath, hd, hend⟩ := htracked e he
  rw [hqueue] at hpath hend
  have hpath' := hpath.of_childOf_eq (inner' := insert it.record (splitSet n st.next (it :: rest)))
    (fun p hp b => hj.childOf_eq (fun hpk => hp.2.2 (by simp [hpk])) b) (Set.subset_insert _ _)
  rcases hend with hleaf | ⟨it', hit', hmem, rfl, hdepth⟩
  · exact ⟨d, k, hsplit ▸ hpath', hd, .inl hleaf⟩
  · rcases List.mem_cons.mp hit' with rfl | hrest
    · exact tracked_of_split rfl hchild hok hmem hdepth hsplit hpath'
    · exact ⟨d, _, hsplit ▸ hpath', hd, .inr ⟨it', mem_splitRecord_queue_of_mem hrest, hmem, rfl, hdepth⟩⟩

/-- What every split keeps holds at the end of a successful loop, where nothing is left to split. -/
theorem splitLoop_keeps {P : SplitState → Prop}
    (hstep : ∀ st it rest, P st → st.queue = it :: rest → splitFails code it = false →
      P (splitRecord code it { st with queue := rest }))
    (fuel : Nat) {st st' : SplitState} (h : P st) (hloop : splitLoop code fuel st = some st') : P st' ∧ st'.queue = [] := by
  induction fuel generalizing st with
  | zero =>
    simp only [splitLoop] at hloop
    split at hloop
    next hempty =>
      cases hloop
      exact ⟨h, List.isEmpty_iff.mp hempty⟩
    next => cases hloop
  | succ fuel ih =>
    simp only [splitLoop] at hloop
    split at hloop
    next hempty =>
      cases hloop
      exact ⟨h, hempty⟩
    next it rest hqueue =>
      split at hloop
      next => cases hloop
      next hok => exact ih (hstep st it rest h hqueue (by simpa using hok)) hloop

/-- It holds before the first split: every entry waits at the root. -/
theorem trieInv_start (L : Nat) (code : List CodeEntry) (node : List NodeRec) (hn : 2 ≤ code.length)
    (hlen : 2 * code.length - 1 ≤ node.length) :
    TrieInv code.length L code
      { arena := (writePrefix (code.map (leafOfCode L)) node).set code.length rootRec, next := code.length + 1,
        queue := [{ record := code.length, entries := List.range code.length, depth := 1 }] } := by
  refine ⟨splitInv_start L code node hn hlen, fun i hi => ?_, fun e he => ⟨0, code.length, .root, Nat.zero_le _, .inr ?_⟩⟩
  · rw [nodeAt_set _ _ (by simp; omega), if_neg hi.ne, nodeAt_writePrefix _ _ (by simpa using hi) (by simp; omega),
      List.getElem_map, codeAt, entryAt_eq, List.getElem?_eq_getElem hi]
    rfl
  · exact ⟨_, List.mem_singleton_self _, List.mem_range.mpr he, rfl, rfl⟩

/-- In the tree of a successful REBUILD leaf i carries entry i's token, and entry i's codeword leads down to it (R216, R221). -/
theorem rebuildArena_trie {L : Nat} {node : List NodeRec} (h : rebuildArena L code node = some st) (hn : 2 ≤ code.length)
    (hn' : code.length ≤ 2 ^ 31) (hlen : 2 * code.length - 1 ≤ node.length) {i : Nat} (hi : i < code.length) :
    (nodeAt st.arena i).unlinked = leafOfCode L (codeAt code i)
      ∧ Leads st.arena code.length {p | IsInner st.arena (2 * code.length - 1) p} (codeAt code i).bits i := by
  obtain ⟨hinv, hempty⟩ := splitLoop_keeps (fun _ _ _ hinv hqueue hok => TrieInv.step hinv hn' hqueue hok) _
    (trieInv_start L code node hn hlen) h
  refine ⟨hinv.kept i hi, ?_⟩
  obtain ⟨d, k, hpath, -, hend⟩ := hinv.tracked i hi
  rcases hend with ⟨rfl, rfl⟩ | ⟨it, hit, -⟩
  · rw [lenAt, ← CodeEntry.length_bits, List.take_length] at hpath
    exact hpath.of_childOf_eq (fun _ _ _ => rfl) fun p hp => ⟨hinv.forest.lt p hp, hinv.forest.leaf p hp⟩
  · rw [hempty] at hit
    cases hit

/-! ## DERIVE after REBUILD (R186) -/

section

variable {s t : State}

theorem codeAt_take {i k : Nat} (h : i < k) : codeAt (code.take k) i = codeAt code i := by
  simp only [codeAt, entryAt_eq, List.getElem?_take_of_lt h]

/-- A word with no bit at or above LEN is told by its low LEN bits. -/
theorem eq_codeword_of_bits {e : CodeEntry} {w : Word} (he : e.cw = e.codeword)
    (hw : ∀ j < 32, w.getLsbD j = (decide (j < e.length) && e.cw.getLsbD j)) : w = e.cw := by
  refine BitVec.eq_of_getLsbD_eq fun j hj => ?_
  have hmask : (mask e.length).getLsbD j = decide (j < e.length) := by
    rw [mask, BitVec.getLsbD_ofNat, Nat.testBit_two_pow_sub_one, decide_eq_true hj, Bool.true_and]
  rw [hw j hj, he, CodeEntry.codeword, BitVec.getLsbD_and, hmask, Bool.and_comm, Bool.and_assoc, Bool.and_self]

/-- A leaf whose depth and climb are an entry's codeword gets that codeword. -/
theorem codeOf_eq_of_bits {node : List NodeRec} {e : CodeEntry} {i : Nat} (hcw : e.cw = e.codeword) (hlen : e.length ≤ 31)
    (hdepth : IsDepth node i e.length) (hbits : rootPath node e.length i = e.bits) :
    codeOf node i = { cw := e.cw, len := e.length } := by
  obtain ⟨hl, hb⟩ := codeOf_of_isDepth hdepth hlen
  have hclimb := msbBits_eq_rootPath_iff.mp hbits.symm
  have hc : (codeOf node i).cw = e.cw := eq_codeword_of_bits hcw fun j hj => (hb j hj).trans (by
    by_cases hjl : j < e.length
    · rw [hclimb j hjl]
    · simp [hjl])
  rw [← hc, ← hl]

/-- No check of REBUILD answers E_OK. -/
theorem rebuildError_ne_ok : rebuildError s ≠ some .ok := by
  unfold rebuildError
  split_ifs <;> simp

/-- A REBUILD that completes with E_OK has passed its checks and, of two entries or more, left the tree of its last split. -/
theorem rebuild_of_exec_ok (h : exec .rebuild s = .next t) (hok : t.seq.errcode = .ok) (hn : s.count ≠ 1) :
    ∃ st, rebuildError s = none ∧ rebuildArena s.tokenWidth (s.mem.code.take s.count) s.mem.node = some st
      ∧ t = (s.setTree st.arena s.count st.next false).complete .ok := by
  rcases execRebuild_cases h with ⟨e, he, rfl⟩ | ⟨-, h1, -⟩ | ⟨-, -, -, rfl⟩ | ⟨st, he, -, hst, rfl⟩
  · exact absurd (he.trans (congrArg some hok)) rebuildError_ne_ok
  · exact absurd h1 hn
  · cases hok
  · exact ⟨st, he, hst, rfl⟩

/-- The lengths of a table that passed REBUILD's checks. -/
theorem length_le_of_rebuildError (h : rebuildError s = none) {i : Nat} (hi : i < s.count) (hcode : i < s.mem.code.length) :
    (codeAt s.mem.code i).length ≤ 31 := by
  unfold rebuildError at h
  split_ifs at h with _ _ _ hany
  have hlt : i < (s.mem.code.take s.count).length := by rw [List.length_take]; omega
  rw [← codeAt_take hi, codeAt, entryAt_eq, List.getElem?_eq_getElem hlt, Option.getD_some]
  by_contra hlong
  exact hany (List.any_eq_true.mpr ⟨_, List.getElem_mem hlt, decide_eq_true (Nat.lt_of_not_le hlong)⟩)

/-- The sizes a REBUILD that passed its checks works with. -/
theorem rebuild_sizes (hs : StateOk s) (h : rebuildError s = none) :
    s.count ≤ s.mem.code.length ∧ (s.mem.code.take s.count).length = s.count ∧ 2 * s.count - 1 ≤ s.mem.node.length
      ∧ s.count ≤ 4096 := by
  obtain ⟨⟨-, hlegal⟩, ⟨-, hcode, hnode, -⟩, -, -⟩ := hs
  obtain ⟨hpos, hmax⟩ := count_of_rebuildError h
  rw [Config.arenaSize] at hnode
  rw [List.length_take]
  omega

/-- Leaf i of the tree of a successful REBUILD carries entry i's token, and its climb gives entry i's codeword (R221 (b)). -/
theorem rebuilt_leaf {st : SplitState} (hs : StateOk s) (htwo : 2 ≤ s.count) (hpass : rebuildError s = none)
    (hst : rebuildArena s.tokenWidth (s.mem.code.take s.count) s.mem.node = some st) {i : Nat} (hi : i < s.count)
    (hcw : (codeAt s.mem.code i).cw = (codeAt s.mem.code i).codeword) :
    (nodeAt st.arena i).token = tokMask s.tokenWidth (codeAt s.mem.code i).token
      ∧ codeOf st.arena i = { cw := (codeAt s.mem.code i).cw, len := (codeAt s.mem.code i).length } := by
  obtain ⟨hcode, hcount, hnode, hle⟩ := rebuild_sizes hs hpass
  obtain ⟨-, hfull⟩ := rebuildArena_fullTree hst (by omega) (by omega) (by omega)
  obtain ⟨hkept, hlead⟩ := rebuildArena_trie hst (by omega) (by omega) (by omega) (hcount.symm ▸ hi)
  rw [codeAt_take hi] at hkept hlead
  obtain ⟨hdepth, hbits⟩ := FullTree.climb_of_leads hfull (by omega) hlead
  rw [CodeEntry.length_bits] at hdepth hbits
  exact ⟨(congrArg NodeRec.token hkept :),
    codeOf_eq_of_bits hcw (length_le_of_rebuildError hpass hi (by omega)) hdepth hbits⟩

/-- Settles O44: the codewords are the root paths of the rebuilt tree, which DERIVE reads back. -/
theorem deriveAfterRebuildRestoresTheTable : Obligations.DeriveAfterRebuildRestoresTheTable := by
  intro s t hs htwo hcw h hok
  obtain ⟨st, hpass, hst, rfl⟩ := rebuild_of_exec_ok h hok (by omega)
  obtain ⟨hcode, hcount, hnode, hle⟩ := rebuild_sizes hs hpass
  obtain ⟨hnext, -⟩ := rebuildArena_fullTree hst (by omega) (by omega) (by omega)
  have hleaf (i : Nat) (hi : i < s.count) := rebuilt_leaf hs htwo hpass hst hi (hcw i hi)
  have hleaves : ((s.setTree st.arena s.count st.next false).complete .ok).leaves = s.count := by
    rw [State.leaves, State.complete_tree, State.setTree_tree, hnext, hcount, BitVec.toNat_ofNat]
    omega
  have hderive : deriveError ((s.setTree st.arena s.count st.next false).complete .ok) = none := by
    rw [deriveError_eq_none_iff, hleaves]
    refine ⟨rfl, fun i hi => ?_⟩
    rw [State.complete_mem, State.setTree_mem, (hleaf i hi).2]
    exact length_le_of_rebuildError hpass hi (by omega)
  refine ⟨_, exec_derive_of_no_error hderive, rfl, fun i hi => ?_⟩
  obtain ⟨htoken, hcodeOf⟩ := hleaf i hi
  rw [State.complete_mem, State.setTable_mem, hleaves]
  refine (codeAt_derivedTable hi hcode).trans ?_
  rw [derivedEntry, State.complete_mem, State.setTree_mem, htoken, hcodeOf]
  simp [CodeEntry.length, tokMask]

end

end Sys2Proof.Machine

/-! PROOFS. spec/43_bit_packer.md: what the PACK commands answer in each of their cases (R195 to R200), and that the flushed
words and the accumulator hold the codewords' bits (R201, R202). -/

namespace Sys2Proof.Machine

/-! ## PACK_BEGIN and PACK_END (R195, R197) -/

section

variable {s : State}

/-- Settles O35: PACK_BEGIN reads nothing, so that the model's meaning is the statement. -/
theorem packBeginOpensAStream : Obligations.PackBeginOpensAStream := fun _ => rfl

theorem exec_packEnd_of_idle (h : s.pk.state = .idle) : exec .packEnd s = .next (s.complete .seq) := by
  simp [exec, execPackEnd, h]

theorem exec_packEnd_of_active (h : s.pk.state = .active) :
    exec .packEnd s = .next (State.complete { s with pk := s.pk.closed } .ok) := by
  simp [exec, execPackEnd, h]

/-- No bit of the stream waits (R200). -/
theorem Packer.closed_of_empty {p : Packer} (h : p.free = 32#32) :
    p.closed = { p with outValid := false, tzb := 0#32, acc := 0#32, free := 32#32, state := .idle } := if_pos h

/-- The bits that wait are flushed, padded with PK_FREE zeros. -/
theorem Packer.closed_of_partial {p : Packer} (h : p.free ≠ 32#32) :
    p.closed = { p with out := p.acc <<< p.free.toNat, outValid := true, wcnt := p.wcnt + 1#32, tzb := p.free, acc := 0#32,
                        free := 32#32, state := .idle } := if_neg h

/-- Settles O38: E_SEQ outside a stream, else the packer is closed, by whether a bit waits in the accumulator. -/
theorem packEndFlushesAndCloses : Obligations.PackEndFlushesAndCloses := fun _ =>
  ⟨exec_packEnd_of_idle, fun hactive hempty => Packer.closed_of_empty hempty ▸ exec_packEnd_of_active hactive,
    fun hactive hpartial => Packer.closed_of_partial hpartial ▸ exec_packEnd_of_active hactive⟩

/-! ## PACK_TOKEN's checks (R196, R199) -/

theorem exec_packToken_of_error {e : ErrCode} (h : packLookup s = .error e) : exec .packToken s = .next (s.complete e) := by
  simp [exec, execPackToken, h]

theorem exec_packToken_of_ok {e : CodeEntry} (h : packLookup s = .ok e) :
    exec .packToken s = .next (State.complete { s with pk := s.pk.pushCode e.codeword e.length } .ok) := by
  simp [exec, execPackToken, h]

/-- What the checks before the search ask for. -/
structure CanPack (s : State) : Prop where
  active : s.pk.state = .active
  width : WidthOk s.tokenWidth
  count : s.count ≤ s.config.nsymMax

theorem packLookup_of_idle (h : s.pk.state = .idle) : packLookup s = .error .seq := by
  simp [packLookup, h]

theorem packLookup_of_range (hactive : s.pk.state = .active) (h : ¬ WidthOk s.tokenWidth ∨ s.config.nsymMax < s.count) :
    packLookup s = .error .range := by
  by_cases hwidth : WidthOk s.tokenWidth
  · have hcount : s.config.nsymMax < s.count := h.resolve_left (not_not_intro hwidth)
    simp [packLookup, hactive, hwidth, hcount]
  · simp [packLookup, hactive, hwidth]

theorem packLookup_of_not_found (h : CanPack s)
    (hnone : findToken s.tokenWidth s.regs.token (s.mem.code.take s.count) = none) :
    packLookup s = .error .unknownToken := by
  simp [packLookup, h.active, h.width, Nat.not_lt.mpr h.count, hnone]

theorem packLookup_of_found (h : CanPack s) {i : Nat}
    (hfound : findToken s.tokenWidth s.regs.token (s.mem.code.take s.count) = some i) :
    packLookup s = if 31 < (codeAt s.mem.code i).length then .error .fmtTable else .ok (codeAt s.mem.code i) := by
  simp [packLookup, h.active, h.width, Nat.not_lt.mpr h.count, hfound]

/-- A token is packed only in an open stream, and only with a codeword of at most 31 bits. -/
theorem packLookup_ok {e : CodeEntry} (h : packLookup s = .ok e) : s.pk.state = .active ∧ e.length ≤ 31 := by
  unfold packLookup at h
  split_ifs at h with hactive
  split at h
  next => cases h
  next i _ =>
    split_ifs at h with hlen
    cases h
    exact ⟨not_not.mp hactive, Nat.not_lt.mp hlen⟩

/-- The search compares the entries CODE[0..N-1] as codeAt reads them. -/
theorem getElem_take_eq_codeAt {code : List CodeEntry} {n i : Nat} (h : i < (code.take n).length) :
    (code.take n)[i] = codeAt code i := by
  rw [List.length_take] at h
  simp [codeAt, entryAt_eq, List.getElem?_eq_getElem (show i < code.length by omega)]

theorem findToken_eq_none {L n : Nat} {tok : Word} {code : List CodeEntry}
    (h : ∀ i < n, tokMask L (codeAt code i).token ≠ tokMask L tok) : findToken L tok (code.take n) = none := by
  rw [findToken, List.findIdx?_eq_none_iff, List.forall_mem_iff_forall_getElem]
  intro i hi
  rw [getElem_take_eq_codeAt]
  exact beq_false_of_ne (h i (List.length_take_le _ _ |>.trans_lt' hi))

/-- The entry of R199 is the one the search finds. -/
theorem findToken_of_foundAt {i : Nat} (hwf : s.mem.wf s.config) (hcount : s.count ≤ s.config.nsymMax) (h : FoundAt s i) :
    findToken s.tokenWidth s.regs.token (s.mem.code.take s.count) = some i := by
  obtain ⟨-, hcode, -, -⟩ := hwf
  obtain ⟨hi, htoken, hlowest⟩ := h
  rw [findToken, List.findIdx?_eq_some_iff_getElem]
  have hlen : i < (s.mem.code.take s.count).length := by rw [List.length_take]; omega
  refine ⟨hlen, ?_, fun j hj => ?_⟩
  · rw [getElem_take_eq_codeAt]
    exact beq_iff_eq.mpr htoken
  · rw [getElem_take_eq_codeAt]
    exact fun heq => hlowest j hj (beq_iff_eq.mp heq)

/-- Settles O37: what the search finds, after the checks before it. -/
theorem packTokenErrorsChangeNothing : Obligations.PackTokenErrorsChangeNothing := by
  intro s hwf
  refine ⟨fun hidle => ?_, fun hactive hrange => ?_, fun hactive hwidth hcount hunknown => ?_,
    fun i hactive hwidth hcount hfound hlong => ?_⟩ <;> apply exec_packToken_of_error
  · exact packLookup_of_idle hidle
  · exact packLookup_of_range hactive hrange
  · exact packLookup_of_not_found ⟨hactive, hwidth, hcount⟩ (findToken_eq_none hunknown)
  · rw [packLookup_of_found ⟨hactive, hwidth, hcount⟩ (findToken_of_foundAt hwf hcount hfound), if_pos hlong]

end

/-! ## The append step (R198) -/

section

variable {p : Packer} {v : Word} {n : Nat}

/-- The codeword fits: it stands below the bits held. -/
theorem Packer.pushCode_of_fits (hn : n ≤ p.free.toNat) :
    p.pushCode v n = { p with outValid := false, acc := p.acc <<< n ||| v, free := p.free - BitVec.ofNat 32 n,
                              tokcnt := p.tokcnt + 1#32 } := by
  rw [pushCode, append, if_pos hn]

/-- It does not fit: its first PK_FREE bits complete the word flushed, the others are held. -/
theorem Packer.pushCode_of_flush (hn : p.free.toNat < n) :
    p.pushCode v n = { p with out := p.acc <<< p.free.toNat ||| v >>> (n - p.free.toNat), outValid := true,
                              wcnt := p.wcnt + 1#32, acc := v &&& mask (n - p.free.toNat),
                              free := 32#32 - BitVec.ofNat 32 (n - p.free.toNat), tokcnt := p.tokcnt + 1#32 } := by
  rw [pushCode, append, if_neg (by omega)]

end

/-- Settles O36: the entry found is pushed, in the branch of `append` that its length and PK_FREE choose. -/
theorem packTokenAppendsTheCodeword : Obligations.PackTokenAppendsTheCodeword := by
  intro s i _ hwf hactive hwidth hcount hfound hlen n v r
  have hlookup : packLookup s = .ok (codeAt s.mem.code i) := by
    rw [packLookup_of_found ⟨hactive, hwidth, hcount⟩ (findToken_of_foundAt hwf hcount hfound), if_neg (by omega)]
  rw [exec_packToken_of_ok hlookup]
  by_cases hn : n ≤ r
  · rw [if_pos hn, ← Packer.pushCode_of_fits hn]
    rfl
  · rw [if_neg hn, ← Packer.pushCode_of_flush (Nat.lt_of_not_le hn)]
    rfl

/-! ## Bits of words, MSB-first -/

theorem msbBits_congr {w w' : Word} {n : Nat} (h : ∀ j < n, w.getLsbD j = w'.getLsbD j) : msbBits w n = msbBits w' n :=
  List.map_congr_left fun j hj => h _ (by have := List.mem_range.mp hj; omega)

/-- The first bits of a word's low a + b are those above its low b. -/
theorem msbBits_add (w : Word) (a b : Nat) : msbBits w (a + b) = msbBits (w >>> b) a ++ msbBits w b := by
  rw [msbBits, List.range_add, List.map_append, List.map_map]
  congr 1
  · refine List.map_congr_left fun j hj => ?_
    have hj : j < a := List.mem_range.mp hj
    rw [BitVec.getLsbD_ushiftRight, show a + b - 1 - j = b + (a - 1 - j) by omega]
  · refine List.map_congr_left fun j _ => ?_
    rw [Function.comp_apply, show a + b - 1 - (a + j) = b - 1 - j by omega]

theorem msbBits_zero (n : Nat) : msbBits 0#32 n = List.replicate n false := by
  simp [msbBits]

theorem msbBits_and_mask (w : Word) (n : Nat) : msbBits (w &&& mask n) n = msbBits w n := by
  refine msbBits_congr fun j hj => ?_
  rw [BitVec.getLsbD_and, mask, BitVec.getLsbD_ofNat, Nat.testBit_two_pow_sub_one, decide_eq_true hj, Bool.and_true]
  by_cases h32 : j < 32
  · simp [h32]
  · simp [BitVec.getLsbD_of_ge w j (by omega)]

theorem toNat_and_mask_lt (w : Word) (n : Nat) : (w &&& mask n).toNat < 2 ^ n := by
  rw [BitVec.toNat_and]
  refine Nat.and_lt_two_pow _ ?_
  have hpos := Nat.two_pow_pos n
  have hle := Nat.mod_le (2 ^ n - 1) (2 ^ 32)
  rw [mask, BitVec.toNat_ofNat]
  omega

/-- An n-bit v shifted in below k bits of a word (R198). -/
theorem msbBits_shiftLeft_or {acc v : Word} {k n : Nat} (hv : v.toNat < 2 ^ n) (hkn : k + n ≤ 32) :
    msbBits (acc <<< n ||| v) (k + n) = msbBits acc k ++ msbBits v n := by
  rw [msbBits_add]
  congr 1
  · refine msbBits_congr fun j hj => ?_
    have hhigh : v.getLsbD (n + j) = false :=
      Nat.testBit_lt_two_pow (hv.trans_le (Nat.pow_le_pow_right two_pos (Nat.le_add_right n j)))
    simp [-BitVec.getLsbD_eq_getElem, hhigh, show n + j < 32 by omega]
  · refine msbBits_congr fun j hj => ?_
    simp [hj]

@[simp] theorem wordsBits_nil : wordsBits [] = [] := rfl

@[simp] theorem wordsBits_append (ws ws' : List Word) : wordsBits (ws ++ ws') = wordsBits ws ++ wordsBits ws' :=
  List.flatMap_append

@[simp] theorem wordsBits_singleton (w : Word) : wordsBits [w] = msbBits w 32 := by
  simp [wordsBits]

@[simp] theorem length_wordsBits (ws : List Word) : (wordsBits ws).length = 32 * ws.length := by
  simp [wordsBits, Nat.mul_comm]

/-! ## What a push of a codeword leaves (R198) -/

/-- The number of stream bits in the accumulator, and those bits (R201). -/
def Packer.fill (p : Packer) : Nat := 32 - p.free.toNat

def Packer.held (p : Packer) : List Bool := msbBits p.acc p.fill

/-- The word the last command flushed, if it flushed one (PK_OUTVALID). -/
def Packer.flushed (p : Packer) : List Word := if p.outValid then [p.out] else []

@[simp] theorem Packer.length_held (p : Packer) : p.held.length = p.fill := length_msbBits _ _

section

variable {p : Packer} {v : Word} {n : Nat}

theorem Packer.pushCode_tokcnt : (p.pushCode v n).tokcnt = p.tokcnt + 1#32 := rfl

theorem Packer.toNat_free_of_fits (hn : n ≤ p.free.toNat) : (p.pushCode v n).free.toNat = p.free.toNat - n := by
  rw [pushCode_of_fits hn]
  bv_omega

theorem Packer.toNat_free_of_flush (hn : p.free.toNat < n) (hmax : n ≤ 31) :
    (p.pushCode v n).free.toNat = 32 - (n - p.free.toNat) := by
  rw [pushCode_of_flush hn]
  bv_omega

/-- An appended codeword that fits adds its length to the bits held. -/
theorem Packer.fill_of_fits (hfree : p.free.toNat ≤ 32) (hn : n ≤ p.free.toNat) : (p.pushCode v n).fill = p.fill + n := by
  rw [fill, toNat_free_of_fits hn, fill]
  omega

/-- After a flush only the rest of the codeword is held. -/
theorem Packer.fill_of_flush (hn : p.free.toNat < n) (hmax : n ≤ 31) : (p.pushCode v n).fill = n - p.free.toNat := by
  rw [fill, toNat_free_of_flush hn hmax]
  omega

theorem toNat_shiftLeft_or_lt {acc : Word} {k : Nat} (hacc : acc.toNat < 2 ^ k) (hv : v.toNat < 2 ^ n) :
    (acc <<< n ||| v).toNat < 2 ^ (k + n) := by
  rw [BitVec.toNat_or, BitVec.toNat_shiftLeft, Nat.shiftLeft_eq]
  refine Nat.or_lt_two_pow ((Nat.mod_le _ _).trans_lt ?_) (hv.trans_le (Nat.pow_le_pow_right two_pos (Nat.le_add_left n k)))
  rw [Nat.pow_add]
  exact Nat.mul_lt_mul_of_pos_right hacc (Nat.two_pow_pos n)

/-- A push keeps the accumulator below 2 to the number of bits held (R201). -/
theorem Packer.toNat_acc_pushCode_lt (hfree : p.free.toNat ≤ 32) (hacc : p.acc.toNat < 2 ^ p.fill) (hv : v.toNat < 2 ^ n)
    (hmax : n ≤ 31) : (p.pushCode v n).acc.toNat < 2 ^ (p.pushCode v n).fill := by
  rcases le_or_gt n p.free.toNat with hn | hn
  · rw [fill_of_fits hfree hn, pushCode_of_fits hn]
    exact toNat_shiftLeft_or_lt hacc hv
  · rw [fill_of_flush hn hmax, pushCode_of_flush hn]
    exact toNat_and_mask_lt v _

/-- A push appends the codeword to the stream: its bits are in the word it flushes and in the accumulator. -/
theorem Packer.bits_pushCode (hfree : p.free.toNat ≤ 32) (hv : v.toNat < 2 ^ n) (hmax : n ≤ 31) :
    wordsBits (p.pushCode v n).flushed ++ (p.pushCode v n).held = p.held ++ msbBits v n := by
  rcases le_or_gt n p.free.toNat with hn | hn
  · have hroom : p.fill + n ≤ 32 := by rw [fill]; omega
    rw [held, fill_of_fits hfree hn, pushCode_of_fits hn]
    exact msbBits_shiftLeft_or hv hroom
  · have hword : p.fill + p.free.toNat = 32 := by rw [fill]; omega
    have hcode : p.free.toNat + (n - p.free.toNat) = n := by omega
    have htop : (v >>> (n - p.free.toNat)).toNat < 2 ^ p.free.toNat := by
      rwa [BitVec.toNat_ushiftRight, Nat.shiftRight_eq_div_pow, Nat.div_lt_iff_lt_mul (Nat.two_pow_pos _), ← Nat.pow_add,
        hcode]
    have hout := msbBits_shiftLeft_or (acc := p.acc) htop hword.le
    have hsplit := msbBits_add v p.free.toNat (n - p.free.toNat)
    rw [hword] at hout
    rw [hcode] at hsplit
    rw [held, fill_of_flush hn hmax, pushCode_of_flush hn, flushed, if_pos rfl, wordsBits_singleton, hout, msbBits_and_mask,
      hsplit, held, List.append_assoc]

end

/-! ## A whole stream (R202) -/

/-- The packer holds a stream: the bits B are those of the words it flushed and of its accumulator; once a word was flushed a
bit waits; PK_WCNT counts the words. -/
structure Packer.Holds (p : Packer) (ws : List Word) (B : List Bool) : Prop where
  bits : wordsBits ws ++ p.held = B
  free_le : p.free.toNat ≤ 32
  waits : p.free.toNat = 32 → ws = []
  wcnt : p.wcnt = BitVec.ofNat 32 ws.length

theorem Packer.holds_opened : Packer.opened.Holds [] [] := ⟨rfl, le_rfl, fun _ => rfl, rfl⟩

namespace Packer.Holds

variable {p : Packer} {ws : List Word} {B : List Bool}

theorem length_eq (h : p.Holds ws B) : B.length = 32 * ws.length + p.fill := by
  rw [← h.bits, List.length_append, length_wordsBits, length_held]

theorem pushCode (h : p.Holds ws B) {e : CodeEntry} (hmax : e.length ≤ 31) :
    (p.pushCode e.codeword e.length).Holds (ws ++ (p.pushCode e.codeword e.length).flushed) (B ++ e.bits) := by
  have hv : e.codeword.toNat < 2 ^ e.length := toNat_and_mask_lt e.cw _
  obtain ⟨hstream, hfree, hwaits, hwcnt⟩ := h
  have hbits : wordsBits (ws ++ (p.pushCode e.codeword e.length).flushed) ++ (p.pushCode e.codeword e.length).held
      = B ++ e.bits := by
    rw [wordsBits_append, List.append_assoc, bits_pushCode hfree hv hmax, ← List.append_assoc, hstream]
    exact congrArg (B ++ ·) (msbBits_and_mask e.cw _)
  rcases le_or_gt e.length p.free.toNat with hn | hn
  · have hfree' := toNat_free_of_fits (v := e.codeword) hn
    refine ⟨hbits, by omega, fun h32 => ?_, ?_⟩ <;> rw [pushCode_of_fits hn]
    · simp [hwaits (by omega), flushed]
    · simp [hwcnt, flushed]
  · have hfree' := toNat_free_of_flush (v := e.codeword) hn hmax
    refine ⟨hbits, by omega, fun h32 => by omega, ?_⟩
    rw [pushCode_of_flush hn]
    simp [hwcnt, flushed, BitVec.ofNat_add]

/-- By induction on the entries, each pushed after the ones before it. -/
theorem packAll (h : p.Holds ws B) {es : List CodeEntry} (hmax : ∀ e ∈ es, e.length ≤ 31) :
    (Machine.packAll p es).1.Holds (ws ++ (Machine.packAll p es).2) (B ++ es.flatMap CodeEntry.bits) := by
  induction es generalizing p ws B with
  | nil => simpa [Machine.packAll] using h
  | cons e es ih =>
    obtain ⟨hhead, htail⟩ := List.forall_mem_cons.mp hmax
    have hrest := ih (h.pushCode hhead) htail
    rw [List.append_assoc, List.append_assoc] at hrest
    exact hrest

/-- PACK_END completes the last word with PK_TZB zero bits, fewer than a word (R197, R200). -/
theorem closed (h : p.Holds ws B) :
    wordsBits (ws ++ p.closed.flushed) = B ++ List.replicate p.closed.tzb.toNat false ∧ p.closed.tzb.toNat ≤ 31
      ∧ p.closed.wcnt = BitVec.ofNat 32 (ws ++ p.closed.flushed).length := by
  obtain ⟨hstream, hfree, hwaits, hwcnt⟩ := h
  by_cases hempty : p.free = 32#32
  · rw [closed_of_empty hempty]
    have hheld : p.held = [] := by simp [held, fill, hempty, msbBits]
    refine ⟨?_, Nat.zero_le _, by simpa [flushed] using hwcnt⟩
    simpa [flushed, hheld] using hstream
  · rw [closed_of_partial hempty]
    have hlt : p.free.toNat < 32 := by
      have : p.free.toNat ≠ 32 := fun h32 => hempty (BitVec.eq_of_toNat_eq h32)
      omega
    have hout := msbBits_shiftLeft_or (acc := p.acc) (v := 0#32) (Nat.two_pow_pos p.free.toNat) (k := p.fill)
      (by rw [fill]; omega)
    rw [BitVec.or_zero, msbBits_zero, show p.fill + p.free.toNat = 32 by rw [fill]; omega] at hout
    refine ⟨?_, by dsimp only; omega, by simp [flushed, hwcnt, BitVec.ofNat_add]⟩
    rw [flushed, if_pos rfl, wordsBits_append, wordsBits_singleton, hout, ← List.append_assoc]
    exact congrArg (· ++ _) hstream

end Packer.Holds

theorem packAll_tokcnt (p : Packer) (es : List CodeEntry) :
    (packAll p es).1.tokcnt = p.tokcnt + BitVec.ofNat 32 es.length := by
  induction es generalizing p with
  | nil => simp [packAll]
  | cons e es ih =>
    rw [packAll, ih, Packer.pushCode_tokcnt, List.length_cons, BitVec.add_assoc, Nat.add_comm, BitVec.ofNat_add]

/-- Settles O39: the stream of a fresh packer, by what every push and the end keep; the counters follow from the lengths. -/
theorem streamHoldsTheCodewordBits : Obligations.StreamHoldsTheCodewordBits := by
  intro es hmax B T p
  have h : p.Holds (packAll .opened es).2 B := Packer.holds_opened.packAll hmax
  obtain ⟨hend, htzb, hwcnt⟩ := h.closed
  have hwords : (packAll .opened es).2 ++ p.closed.flushed = streamWords es := rfl
  rw [hwords] at hend hwcnt
  have hT : T = 32 * (packAll .opened es).2.length + (32 - p.free.toNat) := h.length_eq
  have hTend : 32 * (streamWords es).length = T + p.closed.tzb.toNat := by
    simpa using congrArg List.length hend
  have hfree := h.free_le
  have hempty : p.free.toNat = 32 → (packAll .opened es).2.length = 0 := fun h32 => by rw [h.waits h32]; rfl
  have hcount : (streamWords es).length = (T + 31) / 32 := by omega
  refine ⟨h.bits, fun h0 => ⟨?_, ?_⟩, fun h1 => ⟨?_, ?_⟩, hend, by omega, hcount ▸ hwcnt, hcount, ?_⟩
  · rw [h.wcnt, show (packAll .opened es).2.length = 0 by omega]
  · exact BitVec.eq_of_toNat_eq (by simp; omega)
  · rw [h.wcnt, show (packAll .opened es).2.length = (T - 1) / 32 by omega]
  · omega
  · exact (packAll_tokcnt .opened es).trans (BitVec.zero_add _)

end Sys2Proof.Machine

/-! PROOFS. spec/10_state.md: every step keeps the registers and memories in range, by the command or the action of the host
that it is. -/

namespace Sys2Proof.Machine

section

variable {s t : State}

/-! ## The packer (R201) -/

theorem Packer.opened_ok : PackerOk .opened := by decide

theorem Packer.reset_ok : PackerOk .reset := by decide

theorem Packer.pushCode_ok {p : Packer} {v : Word} {n : Nat} (h : PackerOk p) (hactive : p.state = .active)
    (hv : v.toNat < 2 ^ n) (hmax : n ≤ 31) : PackerOk (p.pushCode v n) := by
  obtain ⟨hfree, hacc, -, htzb⟩ := h
  obtain ⟨hstate, hkept⟩ := p.pushCode_keeps v n
  have hroom : (p.pushCode v n).free.toNat ≤ 32 := by
    rcases le_or_gt n p.free.toNat with hn | hn
    · rw [toNat_free_of_fits hn]; omega
    · rw [toNat_free_of_flush hn hmax]; omega
  refine ⟨hroom, toNat_acc_pushCode_lt hfree hacc hv hmax, fun hidle => ?_, hkept.symm ▸ htzb⟩
  exact absurd (hactive.symm.trans (hstate.symm.trans hidle)) (by simp)

theorem Packer.closed_ok {p : Packer} (h : PackerOk p) : PackerOk p.closed := by
  obtain ⟨hfree, -, -, -⟩ := h
  by_cases hempty : p.free = 32#32
  · rw [closed_of_empty hempty]
    exact ⟨le_rfl, Nat.one_pos, fun _ => ⟨rfl, rfl⟩, Nat.zero_le _⟩
  · rw [closed_of_partial hempty]
    exact ⟨le_rfl, Nat.one_pos, fun _ => ⟨rfl, rfl⟩, by dsimp only; bv_omega⟩

theorem exec_keeps_packerOk {i : Instr} (hp : PackerOk s.pk) (h : exec i s = .next t) : PackerOk t.pk := by
  by_cases hb : i = .packBegin
  · subst hb
    cases h
    exact Packer.opened_ok
  by_cases ht : i = .packToken
  · subst ht
    rcases execPackToken_cases h with ⟨e, -, rfl⟩ | ⟨e, he, rfl⟩
    · exact hp
    · obtain ⟨hactive, hlen⟩ := packLookup_ok he
      exact Packer.pushCode_ok hp hactive (toNat_and_mask_lt _ _) hlen
  by_cases he : i = .packEnd
  · subst he
    rcases execPackEnd_cases h with ⟨-, rfl⟩ | ⟨-, rfl⟩
    · exact hp
    · exact Packer.closed_ok hp
  · exact exec_keeps_packer h hb ht he ▸ hp

/-! ## The unpacker (R49, R231) -/

/-- A walk emits at most one token for each bit. -/
theorem length_tokens_walk_le (node : List NodeRec) (root : Word) (bits : List Bool) (w : Walk) :
    (walk node root w bits).tokens.length ≤ w.tokens.length + bits.length := by
  induction bits generalizing w with
  | nil => exact le_rfl
  | cons b bits ih =>
    have hone : (descend node root w b).tokens.length ≤ w.tokens.length + 1 := by
      unfold descend
      extract_lets r n
      split
      · simp
      · exact Nat.le_succ _
    have hrest := ih (descend node root w b)
    rw [List.length_cons]
    exact hrest.trans (by omega)

/-- The walk over a word emits at most 32 tokens. -/
theorem length_tokens_wordWalk_le (s : State) (last : Bool) : (s.wordWalk last).tokens.length ≤ 32 := by
  have hwalk := length_tokens_walk_le s.mem.node s.tree.root (streamBits s.regs.word (s.stopAt last))
    { node := s.up.node, tokens := [] }
  rw [streamBits, List.length_map, List.length_range] at hwalk
  exact hwalk.trans (by simp)

/-- UnpackerOk when the tree stays and no stream is opened. -/
theorem UnpackerOk.frame (h : UnpackerOk s) (htree : t.tree = { s.tree with maxlen := t.tree.maxlen })
    (hcount : t.up.tcount.toNat ≤ 32) (hopen : t.up.state ≠ .idle → s.up.state ≠ .idle) : UnpackerOk t :=
  ⟨hcount, fun hne => by rw [htree]; exact h.2 (hopen hne)⟩

theorem exec_keeps_unpackerOk {i : Instr} (hu : UnpackerOk s) (h : exec i s = .next t) : UnpackerOk t := by
  have hcount := hu.1
  cases i with
  | build =>
    have hup := exec_tree_up h (.inl rfl)
    exact ⟨by rw [hup]; exact hcount, fun hne => absurd (by rw [hup]) hne⟩
  | rebuild =>
    have hup := exec_tree_up h (.inr rfl)
    exact ⟨by rw [hup]; exact hcount, fun hne => absurd (by rw [hup]) hne⟩
  | unpackBegin =>
    rcases execUnpackBegin_cases h with ⟨e, -, rfl⟩ | ⟨hvalid, hdegen, rfl⟩
    · exact hu
    · exact ⟨Nat.zero_le _, fun _ => ⟨hvalid, hdegen⟩⟩
  | unpackWord last =>
    have hemit : (s.emit (s.wordWalk last)).up.tcount.toNat ≤ 32 :=
      (Nat.mod_le _ _).trans (length_tokens_wordWalk_le s last)
    rcases execUnpackWord_cases h with ⟨-, rfl⟩ | ⟨-, rfl⟩ | ⟨-, -, -, rfl⟩ | ⟨hrun, -, rfl⟩ | ⟨-, -, -, -, rfl⟩
      | ⟨hrun, -, -, -, rfl⟩
    · exact hu
    · exact hu.frame rfl hcount fun hne => absurd rfl hne
    · exact hu.frame rfl hcount fun hne => absurd rfl hne
    · exact hu.frame rfl hemit fun _ => by simp [hrun]
    · exact hu.frame rfl hemit fun hne => absurd rfl hne
    · exact hu.frame rfl hemit fun _ => by simp [hrun]
  | unpackEnd =>
    rcases execUnpackEnd_cases h with ⟨-, rfl⟩ | ⟨-, c, rfl, -⟩
    · exact hu
    · exact hu.frame rfl hcount fun hne => absurd rfl hne
  | nop | derive | packBegin | packToken | packEnd =>
    have hup := exec_keeps_up h (by simp)
    have htree := (exec_keeps_tree h (by simp) (by simp)).2
    exact hu.frame htree (hup ▸ hcount) (hup ▸ id)

/-! ## The host's actions -/

theorem hostAct_config {a : HostAct} (h : hostAct s a = .next t) : t.config = s.config := by
  rcases hostAct_cases h with ⟨addr, -, -, rfl⟩ | ⟨addr, v, -, -, rfl⟩ | ⟨-, rfl⟩
  · rfl
  · exact s.busWrite_config addr v
  · rfl

theorem hostAct_resets_packer {a : HostAct} (h : hostAct s a = .next t) (hr : a.resets s.config = true) : t.pk = .reset := by
  rcases hostAct_cases h with ⟨addr, rfl, -, -⟩ | ⟨addr, v, rfl, -, rfl⟩ | ⟨-, rfl⟩
  · cases hr
  · rw [State.busWrite, if_pos (show isSoftReset (decodeOffset s.config addr) v = true from hr)]
    rfl
  · rfl

/-- A host's action leaves the packer and the unpacker alone, or resets them. -/
theorem hostAct_keeps_ranges {a : HostAct} (hp : PackerOk s.pk) (hu : UnpackerOk s) (h : hostAct s a = .next t) :
    PackerOk t.pk ∧ UnpackerOk t := by
  cases hr : a.resets s.config with
  | true =>
    obtain ⟨-, hup, -⟩ := hostAct_resets h hr
    exact ⟨hostAct_resets_packer h hr ▸ Packer.reset_ok, hup ▸ Nat.zero_le _, fun hne => absurd (hup ▸ rfl) hne⟩
  | false =>
    obtain ⟨-, htree, hpk, hup, -⟩ := hostAct_keeps_flags h hr
    exact ⟨hpk ▸ hp, hu.frame (by rw [htree]) (hup ▸ hu.1) (hup ▸ id)⟩

/-! ## Every step -/

theorem step_config (h : step s = .next t) : t.config = s.config := by
  rcases step_cases h with ⟨-, he⟩ | ⟨a, rest, -, -, ha⟩ | ⟨-, -, rfl⟩
  · rcases engineStep_cases he with ⟨i, -, hx⟩ | ⟨e, -, rfl⟩
    · exact (exec_keeps_inputs hx).1
    · rfl
  · exact hostAct_config (s := s.takeAct rest) ha
  · rfl

theorem step_keeps_ranges (hp : PackerOk s.pk) (hu : UnpackerOk s) (h : step s = .next t) : PackerOk t.pk ∧ UnpackerOk t := by
  rcases step_cases h with ⟨-, he⟩ | ⟨a, rest, -, -, ha⟩ | ⟨-, -, rfl⟩
  · rcases engineStep_cases he with ⟨i, -, hx⟩ | ⟨e, -, rfl⟩
    · exact ⟨exec_keeps_packerOk hp hx, exec_keeps_unpackerOk hu hx⟩
    · exact ⟨hp, hu⟩
  · exact hostAct_keeps_ranges (s := s.takeAct rest) hp hu ha
  · exact ⟨hp, hu⟩

/-- Settles O53: the configuration never changes, every operation keeps the memories' form, and a step keeps the ranges. -/
theorem stepKeepsRegistersAndMemoriesInRange : Obligations.StepKeepsRegistersAndMemoriesInRange := by
  intro s t ⟨hlegal, hmem, hpk, hup⟩ h
  exact ⟨step_config h ▸ hlegal, step_keeps_memory_wf h hmem, step_keeps_ranges hpk hup h⟩

end

end Sys2Proof.Machine

/-! PROOFS. spec/44_decode_tree.md: REBUILD's checks and what a failed one leaves (R215, R222), the tree of one entry (R219), the
rebuilt tree as the trie of the codewords (R216, R221 (b)), and that a table passes the checks of R218 exactly when it is a
complete prefix code (R221 (c)). -/

namespace Sys2Proof.Machine

/-! ## REBUILD's checks (R215, R222) -/

section

variable {s t : State}

theorem any_take_long_iff {code : List CodeEntry} {n : Nat} (hn : n ≤ code.length) :
    (code.take n).any (fun e => Config.maxCodeLen < e.length) = true ↔ ∃ i < n, 31 < (codeAt code i).length := by
  have hlen : (code.take n).length = n := by rw [List.length_take]; omega
  rw [List.any_eq_true]
  constructor
  · rintro ⟨e, he, hlong⟩
    obtain ⟨i, hi, rfl⟩ := List.mem_iff_getElem.mp he
    rw [getElem_take_eq_codeAt] at hlong
    exact ⟨i, by omega, of_decide_eq_true hlong⟩
  · rintro ⟨i, hi, hlong⟩
    exact ⟨_, List.getElem_mem (hlen.symm ▸ hi), by rw [getElem_take_eq_codeAt]; exact decide_eq_true hlong⟩

/-- The checks before any split, when L and N are in range: only the lengths count. -/
theorem rebuildError_eq_ite (hw : WidthOk s.tokenWidth) (hpos : 0 < s.count) (hmax : s.count ≤ s.config.nsymMax)
    (hcode : s.mem.code.length = s.config.nsymMax) :
    rebuildError s = if ∃ i < s.count, 31 < (codeAt s.mem.code i).length then some .fmtTable else none := by
  rw [rebuildError, if_neg (not_not.mpr hw), if_neg hpos.ne', if_neg hmax.not_gt]
  exact if_congr (any_take_long_iff (by omega)) rfl rfl

theorem rebuildError_eq_none (hw : WidthOk s.tokenWidth) (hpos : 0 < s.count) (hmax : s.count ≤ s.config.nsymMax)
    (hcode : s.mem.code.length = s.config.nsymMax) (hlen : ∀ i < s.count, (codeAt s.mem.code i).length ≤ 31) :
    rebuildError s = none := by
  rw [rebuildError_eq_ite hw hpos hmax hcode]
  exact if_neg fun ⟨i, hi, hlong⟩ => (hlen i hi).not_gt hlong

/-- A REBUILD whose check fails drops the tree. -/
theorem exec_rebuild_of_error {e : ErrCode} (h : rebuildError s = some e) :
    exec .rebuild s = .next (s.dropTree.complete e) := by
  simp [exec, execRebuild, h]

/-- So does a REBUILD one of whose splits fails. -/
theorem exec_rebuild_of_none (hpass : rebuildError s = none) (hn : s.count ≠ 1)
    (h : rebuildArena s.tokenWidth (s.mem.code.take s.count) s.mem.node = none) :
    exec .rebuild s = .next (s.dropTree.complete .fmtTable) := by
  simp [exec, execRebuild, hpass, hn, h]

/-- A REBUILD of two entries or more whose splits succeed leaves their tree. -/
theorem exec_rebuild_of_some {st : SplitState} (hpass : rebuildError s = none) (hn : s.count ≠ 1)
    (h : rebuildArena s.tokenWidth (s.mem.code.take s.count) s.mem.node = some st) :
    exec .rebuild s = .next ((s.setTree st.arena s.count st.next false).complete .ok) := by
  simp [exec, execRebuild, hpass, hn, h]

/-- A REBUILD that ends with an error code dropped the tree. -/
theorem eq_dropTree_of_exec_rebuild (h : exec .rebuild s = .next t) (herr : t.seq.errcode ≠ .ok) :
    t = s.dropTree.complete t.seq.errcode := by
  rcases execRebuild_cases h with ⟨e, -, rfl⟩ | ⟨-, -, rfl⟩ | ⟨-, -, -, rfl⟩ | ⟨st, -, -, -, rfl⟩
  · rfl
  · exact absurd rfl herr
  · rfl
  · exact absurd rfl herr

/-- Settles O40: the first check that fails gives the code, and every error drops the tree. -/
theorem rebuildErrorsDropTheTree : Obligations.RebuildErrorsDropTheTree := by
  rintro s ⟨-, hcode, -, -⟩
  refine ⟨fun hw => exec_rebuild_of_error ?_, fun hw h0 => exec_rebuild_of_error ?_, fun hw hmax => exec_rebuild_of_error ?_,
    fun hw hpos hmax hlong => exec_rebuild_of_error ?_, fun t h herr => ?_⟩
  · rw [rebuildError, if_pos hw]
  · rw [rebuildError, if_neg (not_not.mpr hw), if_pos h0]
  · rw [rebuildError, if_neg (not_not.mpr hw), if_neg (by omega), if_pos hmax]
  · rw [rebuildError_eq_ite hw hpos hmax hcode, if_pos hlong]
  · exact h.trans (congrArg Host.Outcome.next (eq_dropTree_of_exec_rebuild h herr))

/-! ## One entry (R219) -/

/-- Settles O41: one entry needs no split, and its record is the first. -/
theorem rebuildOfOneEntryIsDegenerate : Obligations.RebuildOfOneEntryIsDegenerate := by
  rintro s ⟨⟨htwo, -⟩, ⟨-, hcode, hnode, -⟩, -, -⟩ hw hn hlen
  rw [Config.arenaSize] at hnode
  have hpass : rebuildError s = none := rebuildError_eq_none hw (by omega) (by omega) hcode fun i hi => by
    obtain rfl : i = 0 := by omega
    exact hlen
  have htable : s.mem.code.take s.count = [codeAt s.mem.code 0] := by
    rw [hn, List.take_one, List.head?_eq_getElem?, codeAt, entryAt_eq,
      List.getElem?_eq_getElem (show 0 < s.mem.code.length by omega)]
    rfl
  have hexec : exec .rebuild s = .next ((s.setTree
      (writePrefix ((s.mem.code.take s.count).map (leafOfCode s.tokenWidth)) s.mem.node) 0 1 true).complete .ok) := by
    simp [exec, execRebuild, hpass, hn]
  rw [hexec, htable, List.map_singleton, writePrefix_singleton]
  rfl

/-! ## The trie of the codewords (R216, R221 (a), (b)) -/

/-- Settles O43: each split moves the entries one bit down, and at the end each stands at its leaf. -/
theorem rebuiltTreeIsTheTrieOfTheCodes : Obligations.RebuiltTreeIsTheTrieOfTheCodes := by
  intro s t hs htwo h hok
  obtain ⟨st, hpass, hst, ht⟩ := rebuild_of_exec_ok h hok (by omega)
  obtain ⟨hcode, hcount, hnode, hle⟩ := rebuild_sizes hs hpass
  obtain ⟨hnext, -⟩ := rebuildArena_fullTree hst (by omega) (by omega) (by omega)
  have hroot : t.tree.root.toNat = s.count := by
    rw [ht, State.complete_tree, State.setTree_tree, BitVec.toNat_ofNat]
    omega
  have hleaves : t.leaves = s.count := by
    rw [ht, State.leaves, State.complete_tree, State.setTree_tree, hnext, hcount, BitVec.toNat_ofNat]
    omega
  have harena : t.mem.node = st.arena := by rw [ht]; rfl
  refine ⟨rebuild_treeOk hs h (by rw [ht]; rfl), hleaves, fun i hi => ?_⟩
  obtain ⟨hkept, hlead⟩ := rebuildArena_trie hst (by omega) (by omega) (by omega) (hcount.symm ▸ hi)
  rw [codeAt_take hi] at hkept hlead
  rw [hcount] at hlead
  rw [harena, hroot]
  exact ⟨(congrArg NodeRec.token hkept :), (congrArg NodeRec.weight hkept :), hlead.follow_eq,
    fun j hj => (hlead.follow_take_mem (by rwa [CodeEntry.length_bits])).2⟩

end

/-! ## What the codewords below a record sum to (R221 (c)) -/

/-- The part of the Kraft sum that the entries `es` make. -/
def codeSum (code : List CodeEntry) (es : List Nat) : Nat := (es.map fun e => 2 ^ (31 - lenAt code e)).sum

/-- What the entries of an item sum to when their codewords fill the subtree below its record. -/
def SplitItem.room (it : SplitItem) : Nat := 2 ^ (32 - it.depth)

/-- The item that waits for the part on bit b, at record k. -/
def SplitItem.below (code : List CodeEntry) (it : SplitItem) (b : Bool) (k : Nat) : SplitItem :=
  { record := k, entries := it.part code b, depth := it.depth + 1 }

section

variable {code : List CodeEntry} {it : SplitItem}

theorem codeSum_append (es es' : List Nat) : codeSum code (es ++ es') = codeSum code es + codeSum code es' := by
  simp [codeSum]

theorem codeSum_singleton (e : Nat) : codeSum code [e] = 2 ^ (31 - lenAt code e) := by
  simp [codeSum]

theorem codeSum_parts : codeSum code (it.part code true) + codeSum code (it.part code false) = codeSum code it.entries := by
  rw [← codeSum_append]
  exact ((List.filter_append_perm (branchBit code it.depth) it.entries).map _).sum_eq

theorem SplitItem.part_sublist (b : Bool) : (it.part code b).Sublist it.entries := by
  cases b <;> exact List.filter_sublist

theorem SplitItem.branchBit_of_mem_part {b : Bool} {e : Nat} (h : e ∈ it.part code b) : branchBit code it.depth e = b := by
  cases b with
  | true => exact (List.mem_filter.mp h).2
  | false => simpa using (List.mem_filter.mp h).2

theorem SplitItem.room_below (b : Bool) (k : Nat) : (it.below code b k).room = 2 ^ (31 - it.depth) := by
  rw [room, below, Nat.add_sub_add_right 31 1]

theorem SplitItem.room_eq_two_mul (h : it.depth ≤ 31) : it.room = 2 * 2 ^ (31 - it.depth) := by
  rw [room, ← pow_succ', show 32 - it.depth = 31 - it.depth + 1 by omega]

/-- The checks of R218 (b) to (d), part by part. -/
theorem splitFails_eq_false_iff : splitFails code it = false ↔ (∀ e ∈ it.entries, it.depth ≤ lenAt code e)
    ∧ ∀ b, it.part code b ≠ [] ∧ loneMismatch code it.depth (it.part code b) = false := by
  simp only [splitFails, Bool.or_eq_false_iff, List.any_eq_false, decide_eq_true_eq, not_lt, List.isEmpty_eq_false_iff,
    Bool.forall_bool, SplitItem.part]
  tauto

/-! ## A prefix code below a record (R221 (c)) -/

/-- The entries of an item are a prefix code whose codewords all begin with the item's path from the root. -/
structure SplitItem.Coded (code : List CodeEntry) (it : SplitItem) (path : List Bool) : Prop where
  depth : it.depth = path.length + 1
  nodup : it.entries.Nodup
  length_le : ∀ e ∈ it.entries, lenAt code e ≤ 31
  starts : ∀ e ∈ it.entries, path <+: (codeAt code e).bits
  free : ∀ i ∈ it.entries, ∀ j ∈ it.entries, i ≠ j → ¬ (codeAt code i).bits <+: (codeAt code j).bits

namespace SplitItem.Coded

variable {path : List Bool}

/-- Of two entries or more none ends before the item's depth: it would be a prefix of the others (R218 (b)). -/
theorem depth_le (h : it.Coded code path) (htwo : 2 ≤ it.entries.length) {e : Nat} (he : e ∈ it.entries) :
    it.depth ≤ lenAt code e := by
  by_contra hlt
  obtain ⟨e', he', hne⟩ : ∃ e' ∈ it.entries, e' ≠ e := by
    by_contra! hall
    have hnodup := h.nodup
    rw [List.eq_replicate_of_mem hall, List.nodup_replicate] at hnodup
    omega
  have hbits : (codeAt code e).bits = path := by
    refine ((h.starts e he).eq_of_length_le ?_).symm
    rw [CodeEntry.length_bits]
    have := h.depth
    unfold lenAt at hlt
    omega
  exact h.free e he e' he' hne.symm (hbits ▸ h.starts e' he')

/-- A part of a prefix code is a prefix code one bit further down. -/
theorem part (h : it.Coded code path) (htwo : 2 ≤ it.entries.length) (b : Bool) (k : Nat) :
    (it.below code b k).Coded code (path ++ [b]) := by
  have hsub {e : Nat} (he : e ∈ it.part code b) : e ∈ it.entries := (part_sublist b).subset he
  refine ⟨?_, h.nodup.sublist (part_sublist b), fun e he => h.length_le e (hsub he), fun e he => ?_,
    fun i hi j hj => h.free i (hsub hi) j (hsub hj)⟩
  · rw [List.length_append, List.length_singleton, ← h.depth, below]
  · have hlt := h.depth_le htwo (hsub he)
    rw [h.depth] at hlt
    have hbit := branchBit_of_mem_part he
    rw [h.depth] at hbit
    rw [List.prefix_iff_eq_take.mp (h.starts e (hsub he)), ← hbit, ← take_succ_bits hlt]
    exact List.take_prefix _ _

/-- Kraft's inequality: a prefix code never sums to more than there is room for. -/
theorem codeSum_le {it : SplitItem} {path : List Bool} (h : it.Coded code path) : codeSum code it.entries ≤ it.room := by
  have hdepth := h.depth
  match hes : it.entries with
  | [] => exact Nat.zero_le _
  | [e] =>
    have he : e ∈ it.entries := by simp [hes]
    have hlen := (h.starts e he).length_le
    rw [CodeEntry.length_bits] at hlen
    rw [codeSum_singleton]
    exact Nat.pow_le_pow_right two_pos (by unfold lenAt; omega)
  | e :: e' :: es =>
    have htwo : 2 ≤ it.entries.length := by simp [hes]
    have hle : it.depth ≤ 31 := (h.depth_le htwo (by simp [hes])).trans (h.length_le e (by simp [hes]))
    have hone := (h.part htwo true 0).codeSum_le
    have hzero := (h.part htwo false 0).codeSum_le
    rw [room_below] at hone hzero
    rw [← hes, ← codeSum_parts, room_eq_two_mul hle, two_mul]
    exact Nat.add_le_add hone hzero
termination_by 31 - path.length
decreasing_by all_goals (rw [List.length_append, List.length_singleton]; omega)

end SplitItem.Coded

/-- The entries of an item are a prefix code that fills the subtree below its record. -/
def SplitItem.Complete (code : List CodeEntry) (it : SplitItem) : Prop :=
  (∃ path, it.Coded code path) ∧ codeSum code it.entries = it.room

namespace SplitItem.Complete

theorem depth_le (h : it.Complete code) (htwo : 2 ≤ it.entries.length) :
    (∀ e ∈ it.entries, it.depth ≤ lenAt code e) ∧ it.depth ≤ 31 := by
  obtain ⟨⟨path, hc⟩, -⟩ := h
  obtain ⟨e, he⟩ := List.exists_mem_of_length_pos (two_pos.trans_le htwo)
  exact ⟨fun e he => hc.depth_le htwo he, (hc.depth_le htwo he).trans (hc.length_le e he)⟩

/-- Then so are its two parts: neither has room for more than half. -/
theorem part (h : it.Complete code) (htwo : 2 ≤ it.entries.length) (b : Bool) (k : Nat) : (it.below code b k).Complete code := by
  obtain ⟨-, hle⟩ := h.depth_le htwo
  obtain ⟨⟨path, hc⟩, hsum⟩ := h
  have hone : codeSum code (it.part code true) ≤ _ := (hc.part htwo true k).codeSum_le
  have hzero : codeSum code (it.part code false) ≤ _ := (hc.part htwo false k).codeSum_le
  rw [room_below] at hone hzero
  rw [← codeSum_parts, room_eq_two_mul hle] at hsum
  refine ⟨⟨_, hc.part htwo b k⟩, (?_ : codeSum code (it.part code b) = _)⟩
  rw [room_below]
  cases b with
  | true => omega
  | false => omega

/-- Its split passes the checks of R218: a part is not empty, and a lone entry's codeword ends at its leaf. -/
theorem passes (h : it.Complete code) (htwo : 2 ≤ it.entries.length) : splitFails code it = false := by
  obtain ⟨hlen, hle⟩ := h.depth_le htwo
  refine splitFails_eq_false_iff.mpr ⟨hlen, fun b => ?_⟩
  obtain ⟨⟨path, hc⟩, hsum⟩ := h.part htwo b 0
  have hroom : codeSum code (it.part code b) = 2 ^ (31 - it.depth) := hsum.trans (room_below b 0)
  match hpart : it.part code b with
  | [] => exact absurd (hpart ▸ hroom) (Nat.two_pow_pos _).ne
  | [e] =>
    have he : lenAt code e ≤ 31 := hc.length_le e (by simp [below, hpart])
    rw [hpart, codeSum_singleton] at hroom
    have hexp := Nat.pow_right_injective le_rfl hroom
    refine ⟨List.cons_ne_nil _ _, ?_⟩
    rw [loneMismatch, bne_eq_false_iff_eq]
    omega
  | e :: e' :: es => exact ⟨List.cons_ne_nil _ _, rfl⟩

end SplitItem.Complete

end

/-! ## A complete prefix code passes every split (R221 (c)) -/

section

variable {code : List CodeEntry} {it : SplitItem} {st : SplitState} {n : Nat}

/-- What the part on bit b of a split leaves in the queue. -/
def SplitState.waits (code : List CodeEntry) (it : SplitItem) (st : SplitState) (b : Bool) : List SplitItem :=
  if (it.part code b).length = 1 then [] else [it.below code b (st.child code it b)]

theorem splitRecord_queue_eq_waits :
    (splitRecord code it st).queue = st.queue ++ (st.waits code it true ++ st.waits code it false) := by
  rw [splitRecord_queue, List.flatMap_cons, List.flatMap_cons, List.flatMap_nil, List.append_nil]
  rfl

theorem SplitState.eq_below_of_mem_waits {b : Bool} {it' : SplitItem} (h : it' ∈ st.waits code it b) :
    it' = it.below code b (st.child code it b) := by
  unfold waits at h
  split_ifs at h
  · cases h
  · exact List.mem_singleton.mp h

/-- After a split the queue holds what waited before and parts of the item split. -/
theorem mem_splitRecord_queue_cases {it' : SplitItem} (h : it' ∈ (splitRecord code it st).queue) :
    it' ∈ st.queue ∨ ∃ b k, it' = it.below code b k := by
  rw [splitRecord_queue_eq_waits, List.mem_append, List.mem_append] at h
  exact h.imp_right fun h => h.elim (fun h => ⟨_, _, SplitState.eq_below_of_mem_waits h⟩)
    fun h => ⟨_, _, SplitState.eq_below_of_mem_waits h⟩

/-- A placement makes as many records as it queues. -/
theorem placeChild_next (k d : Nat) (b : Bool) (part : List Nat) (st : SplitState) :
    (placeChild k d b part st).next + st.queue.length = st.next + (placeChild k d b part st).queue.length := by
  unfold placeChild
  split
  · rfl
  · simp only [List.length_append, List.length_singleton]
    omega

/-- So does a split. -/
theorem splitRecord_next :
    (splitRecord code it st).next + st.queue.length = st.next + (splitRecord code it st).queue.length := by
  have hone : (st.before code it false).next + st.queue.length = st.next + (st.before code it false).queue.length :=
    placeChild_next ..
  have hzero : (splitRecord code it st).next + (st.before code it false).queue.length
      = (st.before code it false).next + (splitRecord code it st).queue.length := placeChild_next ..
  omega

/-- With complete prefix codes below every waiting record the loop succeeds: each split passes, leaves such items only, and the
fuel is enough for the records not split yet. -/
theorem exists_splitLoop_of_complete (hn : n ≤ 2 ^ 31) (fuel : Nat) (h : SplitInv n st)
    (hcomplete : ∀ it ∈ st.queue, it.Complete code) (hfuel : fuel + st.next = 2 * n + st.queue.length) :
    ∃ st', splitLoop code fuel st = some st' := by
  induction fuel generalizing st with
  | zero =>
    have := h.work.lt_next
    have := h.work.next_le
    omega
  | succ fuel ih =>
    cases hqueue : st.queue with
    | nil => exact ⟨st, by simp only [splitLoop, hqueue]⟩
    | cons it rest =>
      rw [hqueue, List.forall_mem_cons] at hcomplete
      obtain ⟨hit, hrest⟩ := hcomplete
      have htwo := h.work.two_le it (by simp [hqueue])
      have hpass := hit.passes htwo
      simp only [splitLoop, hqueue, hpass, Bool.false_eq_true, if_false]
      refine ih (h.step hn hqueue hpass) (fun it' hit' => ?_) ?_
      · rcases mem_splitRecord_queue_cases hit' with hwait | ⟨b, k, rfl⟩
        · exact hrest it' hwait
        · exact hit.part htwo b k
      · have hnext := splitRecord_next (code := code) (it := it) (st := { st with queue := rest })
        simp only [hqueue, List.length_cons] at hfuel hnext
        omega

theorem exists_rebuildArena_of_completePrefixCode (L : Nat) {node : List NodeRec} (hn : 2 ≤ code.length)
    (hn' : code.length ≤ 2 ^ 31) (hlen : 2 * code.length - 1 ≤ node.length)
    (h : CompletePrefixCode code code.length) : ∃ st, rebuildArena L code node = some st := by
  obtain ⟨hle, hfree, hsum⟩ := h
  refine exists_splitLoop_of_complete hn' _ (splitInv_start L code node hn hlen) ?_ ?_
  · refine List.forall_mem_singleton.mpr ⟨⟨[], rfl, List.nodup_range, ?_, fun _ _ => List.nil_prefix, ?_⟩, hsum⟩ <;>
      simpa only [List.mem_range]
  · simp only [List.length_singleton]
    omega

/-! ## A table that passes every split is a complete prefix code (R221 (c)) -/

/-- Two paths to different records, of which the first is not inner, are no prefixes. -/
theorem Leads.not_prefix {node : List NodeRec} {root k k' : Nat} {inner : Set Nat} {path path' : List Bool}
    (h : Leads node root inner path k) (h' : Leads node root inner path' k') (hk : k ∉ inner) (hne : k ≠ k') :
    ¬ path <+: path' := by
  intro hprefix
  rcases Nat.lt_or_ge path.length path'.length with hlt | hge
  · have hmem := h'.follow_take_mem hlt
    rw [← List.prefix_iff_eq_take.mp hprefix, h.follow_eq] at hmem
    exact hk hmem
  · obtain rfl := hprefix.eq_of_length_le hge
    exact hne (h.follow_eq.symm.trans h'.follow_eq)

/-- What the waiting items have room for. -/
def roomOf (queue : List SplitItem) : Nat := (queue.map SplitItem.room).sum

theorem roomOf_append (q q' : List SplitItem) : roomOf (q ++ q') = roomOf q + roomOf q' := by
  simp [roomOf]

theorem codeSum_queued_append (q q' : List SplitItem) :
    codeSum code (queued (q ++ q')) = codeSum code (queued q) + codeSum code (queued q') := by
  rw [queued, List.flatMap_append, codeSum_append]
  rfl

/-- What the reconstruction of a table keeps, beside the forest: nothing is written past the records of the tree, and the entries
that have their leaves sum to the room they took. -/
structure BalanceInv (n : Nat) (code : List CodeEntry) (node : List NodeRec) (st : SplitState) : Prop extends SplitInv n st where
  fresh : ∀ k, 2 * n - 1 ≤ k → nodeAt st.arena k = nodeAt node k
  balance : roomOf st.queue + kraftSum code n = 2 ^ 31 + codeSum code (queued st.queue)

/-- A part that passes the checks fills half of the item's room, with its leaf or with the item it leaves in the queue. -/
theorem SplitState.room_waits (hok : splitFails code it = false) (b : Bool) :
    roomOf (st.waits code it b) + codeSum code (it.part code b)
      = 2 ^ (31 - it.depth) + codeSum code (queued (st.waits code it b)) := by
  obtain ⟨-, hpart⟩ := splitFails_eq_false_iff.mp hok
  unfold waits
  split_ifs with hone
  · obtain ⟨e, he⟩ := List.length_eq_one_iff.mp hone
    have hlone := (hpart b).2
    rw [he, loneMismatch, bne_eq_false_iff_eq] at hlone
    rw [he, codeSum_singleton, hlone]
    exact Nat.zero_add _
  · rw [← SplitItem.room_below (code := code) b (st.child code it b)]
    simp [roomOf, queued, SplitItem.below]

/-- One split keeps it. -/
theorem BalanceInv.step {node : List NodeRec} {rest : List SplitItem} (h : BalanceInv n code node st) (hn : n ≤ 2 ^ 31)
    (hlen : ∀ i < n, lenAt code i ≤ 31) (hqueue : st.queue = it :: rest) (hok : splitFails code it = false) :
    BalanceInv n code node (splitRecord code it { st with queue := rest }) := by
  have hinv := h.toSplitInv.step hn hqueue hok
  obtain ⟨⟨hwork, hsize, -, -, -⟩, hfresh, hbalance⟩ := h
  rw [hqueue] at hwork hbalance
  have hp := hwork.record_lt List.mem_cons_self
  have htwo := hwork.two_le it List.mem_cons_self
  obtain ⟨-, x, y, hx, hy, -, -, -, -, -, -, -, hj, -⟩ := splitRecord_joins hwork hsize hok rfl
  refine ⟨hinv, fun k hk => (hj.other k (by omega) (by omega) (by omega)).trans (hfresh k hk), ?_⟩
  have hdepth : it.depth ≤ 31 := by
    obtain ⟨e, he⟩ := List.exists_mem_of_length_pos (two_pos.trans_le htwo)
    exact ((splitFails_eq_false_iff.mp hok).1 e he).trans (hlen e (hwork.entry e (by simp [queued, he])))
  have hone := SplitState.room_waits (st := { st with queue := rest }) hok true
  have hzero := SplitState.room_waits (st := { st with queue := rest }) hok false
  have hroom := SplitItem.room_eq_two_mul hdepth
  have hparts := codeSum_parts (code := code) (it := it)
  have hhead : roomOf (it :: rest) = it.room + roomOf rest := rfl
  have hhead' : codeSum code (queued (it :: rest)) = codeSum code it.entries + codeSum code (queued rest) :=
    codeSum_append _ _
  simp only [splitRecord_queue_eq_waits, roomOf_append, codeSum_queued_append]
  omega

/-- A table with every LEN <= 31 that REBUILD accepts is a complete prefix code, and past its tree NODE is as before. -/
theorem completePrefixCode_of_rebuildArena {L : Nat} {node : List NodeRec} (h : rebuildArena L code node = some st)
    (hn : 2 ≤ code.length) (hn' : code.length ≤ 2 ^ 31) (hsize : 2 * code.length - 1 ≤ node.length)
    (hlen : ∀ i < code.length, lenAt code i ≤ 31) :
    CompletePrefixCode code code.length ∧ ∀ k, 2 * code.length - 1 ≤ k → nodeAt st.arena k = nodeAt node k := by
  have hstart : BalanceInv code.length code node
      { arena := (writePrefix (code.map (leafOfCode L)) node).set code.length rootRec, next := code.length + 1,
        queue := [{ record := code.length, entries := List.range code.length, depth := 1 }] } := by
    refine ⟨splitInv_start L code node hn hsize, fun k hk => ?_, ?_⟩
    · rw [nodeAt_set _ _ (by simp; omega), if_neg (by omega)]
      exact entryAt_writePrefix_ge _ _ _ _ (by rw [List.length_map]; omega)
    · simp [roomOf, SplitItem.room, queued, kraftSum, codeSum]
  obtain ⟨hinv, hempty⟩ := splitLoop_keeps (fun _ _ _ hinv hqueue hok => BalanceInv.step hinv hn' hlen hqueue hok) _ hstart h
  obtain ⟨-, -, -, hleaf, -⟩ := rebuildArena_fullTree h hn hn' hsize
  have hbalance := hinv.balance
  rw [hempty] at hbalance
  refine ⟨⟨hlen, fun i hi j hj hij => ?_, ?_⟩, hinv.fresh⟩
  · obtain ⟨-, hlead⟩ := rebuildArena_trie h hn hn' hsize hi
    obtain ⟨-, hlead'⟩ := rebuildArena_trie h hn hn' hsize hj
    exact hlead.not_prefix hlead' (fun ⟨_, hinner⟩ => by simp [(hleaf i (by omega)).mpr hi] at hinner) hij
  · simpa [roomOf, queued, codeSum] using hbalance

end

/-! ## Which tables REBUILD accepts (R221 (c)) -/

section

variable {s : State}

/-- A REBUILD reads the first N entries of CODE only. -/
theorem completePrefixCode_take_iff {code : List CodeEntry} {n : Nat} :
    CompletePrefixCode (code.take n) n ↔ CompletePrefixCode code n := by
  have hlen (i : Nat) (hi : i < n) : lenAt (code.take n) i = lenAt code i := by rw [lenAt, lenAt, codeAt_take hi]
  refine and_congr (forall₂_congr fun i hi => by rw [hlen i hi]) (and_congr ?_ ?_)
  · exact forall₄_congr fun i hi j hj => by rw [codeAt_take hi, codeAt_take hj]
  · rw [kraftSum, kraftSum, List.map_congr_left fun i hi => by rw [hlen i (List.mem_range.mp hi)]]

/-- An accepted table is a complete prefix code, and past its tree NODE is as before. -/
theorem rebuilt_completePrefixCode {st : SplitState} (hs : StateOk s) (htwo : 2 ≤ s.count) (hpass : rebuildError s = none)
    (hst : rebuildArena s.tokenWidth (s.mem.code.take s.count) s.mem.node = some st) :
    CompletePrefixCode s.mem.code s.count ∧ ∀ k, 2 * s.count - 1 ≤ k → nodeAt st.arena k = nodeAt s.mem.node k := by
  obtain ⟨hcode, hcount, hnode, hle⟩ := rebuild_sizes hs hpass
  have hcomplete := completePrefixCode_of_rebuildArena hst (by omega) (by omega) (by omega) fun i hi => by
    rw [lenAt, codeAt_take (by omega)]
    exact length_le_of_rebuildError hpass (by omega) (by omega)
  rwa [hcount, completePrefixCode_take_iff] at hcomplete

/-- Settles O42: a complete prefix code passes every split, and a table that passes them is one. -/
theorem rebuildAcceptsExactlyCompletePrefixCodes : Obligations.RebuildAcceptsExactlyCompletePrefixCodes := by
  intro s hs hw htwo hmax
  obtain ⟨-, ⟨-, hcode, -, -⟩, -, -⟩ := id hs
  refine ⟨fun hc => ?_, fun hc => ?_⟩
  · have hpass := rebuildError_eq_none hw (by omega) hmax hcode hc.1
    obtain ⟨-, hcount, hnode, hle⟩ := rebuild_sizes hs hpass
    obtain ⟨st, hst⟩ := exists_rebuildArena_of_completePrefixCode (code := s.mem.code.take s.count) s.tokenWidth
      (by omega) (by omega) (hcount.symm ▸ hnode) (by rwa [hcount, completePrefixCode_take_iff])
    obtain ⟨hnext, -⟩ := rebuildArena_fullTree hst (by omega) (by omega) (by omega)
    obtain ⟨-, hfresh⟩ := rebuilt_completePrefixCode hs htwo hpass hst
    refine ⟨st.arena, ?_, rebuildArena_length _ _ _ _ hst, hfresh⟩
    rw [exec_rebuild_of_some hpass (by omega) hst, hnext, hcount]
    rfl
  · by_cases hlong : ∃ i < s.count, 31 < (codeAt s.mem.code i).length
    · exact exec_rebuild_of_error (by rw [rebuildError_eq_ite hw (by omega) hmax hcode, if_pos hlong])
    · have hpass := rebuildError_eq_none hw (by omega) hmax hcode fun i hi => not_lt.mp fun hi' => hlong ⟨i, hi, hi'⟩
      cases hst : rebuildArena s.tokenWidth (s.mem.code.take s.count) s.mem.node with
      | none => exact exec_rebuild_of_none hpass (by omega) hst
      | some st => exact absurd (rebuilt_completePrefixCode hs htwo hpass hst).1 hc

end

end Sys2Proof.Machine

/-! PROOFS. spec/45_bit_unpacker.md: the descend step (R231), what the UNPACK commands answer in each of their cases (R232 to
R234), and what UNPACK_WORD never reads (R233, R237). -/

namespace Sys2Proof.Machine

/-! ## The descend step (R231) -/

section

variable {node : List NodeRec} {root : Word} {w : Walk} {b : Bool}

/-- The record one branch down from where the walk stands. -/
def Walk.child (node : List NodeRec) (w : Walk) (b : Bool) : Word :=
  if b then (nodeAt node w.node.toNat).c1 else (nodeAt node w.node.toNat).c0

theorem Walk.toNat_child : (w.child node b).toNat = childOf node w.node.toNat b := by
  cases b <;> rfl

theorem descend_of_leaf (h : (nodeAt node (w.child node b).toNat).leaf = true) :
    descend node root w b = { node := root, tokens := w.tokens ++ [(nodeAt node (w.child node b).toNat).token] } :=
  if_pos h

theorem descend_of_inner (h : (nodeAt node (w.child node b).toNat).leaf = false) :
    descend node root w b = { node := w.child node b, tokens := w.tokens } :=
  if_neg (Bool.not_eq_true _ ▸ h)

/-- Settles O46: by whether the child is a leaf. -/
theorem descendEmitsAtLeaves : Obligations.DescendEmitsAtLeaves :=
  fun _ _ _ _ => ⟨descend_of_leaf, descend_of_inner⟩

end

section

variable {s t : State}

/-! ## UNPACK_BEGIN and UNPACK_END (R232, R234) -/

theorem exec_unpackBegin_of_error {e : ErrCode} (h : unpackBeginError s = some e) :
    exec .unpackBegin s = .next (s.complete e) := by
  rw [exec, execUnpackBegin, h]
  rfl

/-- On a valid tree of more than one leaf the stream is open at the root. -/
theorem exec_unpackBegin_of_tree (hvalid : s.tree.valid = true) (hdegen : s.tree.degen = false) :
    exec .unpackBegin s = .next (State.complete
      { s with up := { state := .run, node := s.tree.root, tcount := 0#32, wcnt := 0#32, tokcnt := 0#32 } } .ok) := by
  have hpass : unpackBeginError s = none := by simp [unpackBeginError, hvalid, hdegen]
  rw [exec, execUnpackBegin, hpass]
  rfl

/-- Settles O45: the two checks, and the stream opened after them. -/
theorem unpackBeginOpensAStream : Obligations.UnpackBeginOpensAStream := by
  refine fun s => ⟨fun hvalid => exec_unpackBegin_of_error ?_, fun hvalid hdegen => exec_unpackBegin_of_error ?_,
    exec_unpackBegin_of_tree⟩
  · simp [unpackBeginError, hvalid]
  · simp [unpackBeginError, hvalid, hdegen]

theorem exec_unpackEnd_of_idle (h : s.up.state = .idle) : exec .unpackEnd s = .next (s.complete .seq) := by
  simp [exec, execUnpackEnd, h]

theorem exec_unpackEnd_of_done (h : s.up.state = .done) :
    exec .unpackEnd s = .next ((s.setUpState .idle).complete .ok) := by
  simp [exec, execUnpackEnd, h]

/-- A stream whose final word was not given: only one without any word may end, with UP_TZB 0. -/
theorem exec_unpackEnd_of_run (h : s.up.state = .run) :
    exec .unpackEnd s = .next ((s.setUpState .idle).complete
      (if s.up.wcnt ≠ 0#32 then .fmtTrunc else if s.regs.upTzb ≠ 0#8 then .fmtTzb else .ok)) := by
  simp only [exec, execUnpackEnd, h]
  split
  next => rfl
  next => split <;> rfl

/-- Settles O49: by UP_STATE, and in RUN by UP_WCNT and UP_TZB. -/
theorem unpackEndClosesTheStream : Obligations.UnpackEndClosesTheStream := by
  refine fun s => ⟨exec_unpackEnd_of_idle, exec_unpackEnd_of_done, fun hrun hwcnt => ?_, fun hrun hwcnt htzb => ?_,
    fun hrun hwcnt htzb => ?_⟩ <;> rw [exec_unpackEnd_of_run hrun]
  · rw [if_pos hwcnt]; rfl
  · rw [if_neg (not_not.mpr hwcnt), if_pos htzb]; rfl
  · rw [if_neg (not_not.mpr hwcnt), if_neg (not_not.mpr htzb)]; rfl

/-! ## UNPACK_WORD (R233, R235) -/

variable {last : Bool}

theorem exec_unpackWord_of_idle (h : s.up.state = .idle) : exec (.unpackWord last) s = .next (s.complete .seq) := by
  simp [exec, execUnpackWord, h]

theorem exec_unpackWord_of_done (h : s.up.state = .done) :
    exec (.unpackWord last) s = .next ((s.setUpState .idle).complete .fmtExtra) := by
  simp [exec, execUnpackWord, h]

theorem exec_unpackWord_of_tzb (h : s.up.state = .run) (hlast : last = true) (htzb : 31 < s.regs.upTzb.toNat) :
    exec (.unpackWord last) s = .next ((s.setUpState .idle).complete .fmtTzb) := by
  simp [exec, execUnpackWord, h, hlast, htzb]

/-- Settles O48: the three checks before the loop. -/
theorem unpackWordErrorsBeforeTheLoop : Obligations.UnpackWordErrorsBeforeTheLoop :=
  fun _ _ => ⟨exec_unpackWord_of_idle, exec_unpackWord_of_done, exec_unpackWord_of_tzb⟩

/-- UP_STATE after the walk over a word: the final word ends the stream, in DONE when the walk ended at the root. -/
def State.stateAfterWord (s : State) (last : Bool) : UpState :=
  if last = false then .run else if (s.wordWalk last).node = s.tree.root then .done else .idle

/-- Past the checks the word's walk is kept, whatever the code. -/
theorem exec_unpackWord_of_run (h : s.up.state = .run) (htzb : last = true → s.regs.upTzb.toNat ≤ 31) :
    exec (.unpackWord last) s = .next (((s.emit (s.wordWalk last)).setUpState (s.stateAfterWord last)).complete
      (if last = false ∨ (s.wordWalk last).node = s.tree.root then .ok else .fmtTrunc)) := by
  have hpass : ¬ (last = true ∧ 31 < s.regs.upTzb.toNat) := fun hfail => Nat.not_lt.mpr (htzb hfail.1) hfail.2
  simp only [exec, execUnpackWord, h, hpass, if_false, State.stateAfterWord]
  cases last with
  | false =>
    have hrun : (s.emit (s.wordWalk false)).setUpState .run = s.emit (s.wordWalk false) := by
      rw [← h]
      rfl
    simp [unpackRun, hrun]
  | true =>
    by_cases hroot : (s.wordWalk true).node = s.tree.root <;> simp [unpackRun, hroot]

theorem State.length_tokens_wordWalk_le (s : State) (last : Bool) : (s.wordWalk last).tokens.length ≤ 32 - s.stopAt last := by
  refine (length_tokens_walk_le _ _ _ _).trans ?_
  simp [streamBits]

/-- Settles O47: the walk over the word's bits, written to TBUF from entry 0 on. -/
theorem unpackWordDecodesTheWord : Obligations.UnpackWordDecodesTheWord := by
  rintro s last ⟨-, -, -, htbuf⟩ hrun htzb stop bits w
  have hlen : w.tokens.length ≤ 32 - stop := s.length_tokens_wordWalk_le last
  refine ⟨_, exec_unpackWord_of_run hrun htzb, hlen, writePrefix_length _ _, fun j hj => ?_, fun j hj => ?_⟩
  · exact writePrefix_getElem?_lt _ _ j hj (htbuf ▸ show j < 32 by omega)
  · exact writePrefix_getElem?_ge _ _ j hj

/-! ## What UNPACK_WORD never reads (R233, R237) -/

/-- Of the operand registers UNPACK_WORD reads the bits of WORD above the stop and, for the final word, UP_TZB. -/
theorem exec_unpackWord_with_regs {r : OperandRegs} (htzb : last = true → r.upTzb = s.regs.upTzb)
    (hbits : streamBits r.word (s.stopAt last) = streamBits s.regs.word (s.stopAt last))
    (h : exec (.unpackWord last) s = .next t) :
    exec (.unpackWord last) { s with regs := r } = .next { t with regs := r } := by
  have hstop : State.stopAt { s with regs := r } last = s.stopAt last := by
    cases last with
    | false => rfl
    | true => exact congrArg BitVec.toNat (htzb rfl)
  have hwalk : State.wordWalk { s with regs := r } last = s.wordWalk last := by
    rw [State.wordWalk, hstop, hbits]
    rfl
  cases hup : s.up.state with
  | idle =>
    rw [exec_unpackWord_of_idle hup] at h
    cases h
    exact exec_unpackWord_of_idle hup
  | done =>
    rw [exec_unpackWord_of_done hup] at h
    cases h
    exact exec_unpackWord_of_done hup
  | run =>
    by_cases hfail : last = true ∧ 31 < s.regs.upTzb.toNat
    · rw [exec_unpackWord_of_tzb hup hfail.1 hfail.2] at h
      cases h
      exact exec_unpackWord_of_tzb hup hfail.1 (htzb hfail.1 ▸ hfail.2)
    · have hpass (hlast : last = true) : s.regs.upTzb.toNat ≤ 31 := by simpa [hlast] using hfail
      rw [exec_unpackWord_of_run hup hpass] at h
      cases h
      rw [exec_unpackWord_of_run (s := { s with regs := r }) hup fun hlast => htzb hlast ▸ hpass hlast,
        State.stateAfterWord, hwalk]
      rfl

theorem streamBits_congr {v v' : Word} {stop : Nat} (h : ∀ j, stop ≤ j → j < 32 → v.getLsbD j = v'.getLsbD j) :
    streamBits v stop = streamBits v' stop :=
  List.map_congr_left fun j hj => by
    have hj : j < 32 - stop := List.mem_range.mp hj
    exact h (31 - j) (by omega) (by omega)

/-- Settles O50: the bits below UP_TZB are not among the walk's. -/
theorem paddingBitsAreNeverRead : Obligations.PaddingBitsAreNeverRead := by
  intro s v v' h
  obtain ⟨t, -, ht, -⟩ := exec_next_completed_seq (.unpackWord true) { s with regs := { s.regs with word := v } }
  obtain ⟨-, -, (hregs : t.regs = { s.regs with word := v }), -⟩ := exec_keeps_inputs ht
  refine ⟨t, ?_, ?_⟩
  · rw [ht, hregs, ← hregs]
  · rw [hregs]
    exact exec_unpackWord_with_regs (s := { s with regs := { s.regs with word := v } }) (fun _ => rfl)
      (streamBits_congr h).symm ht

/-- Settles O51: a word that is not the final one stops at bit 0, whatever UP_TZB. -/
theorem middleWordsIgnoreTheTrailingBitCount : Obligations.MiddleWordsIgnoreTheTrailingBitCount := by
  intro s z
  obtain ⟨t, -, ht, -⟩ := exec_next_completed_seq (.unpackWord false) s
  obtain ⟨-, -, hregs, -⟩ := exec_keeps_inputs ht
  refine ⟨t, ht, ?_⟩
  rw [hregs]
  exact exec_unpackWord_with_regs (by simp) rfl ht

end

end Sys2Proof.Machine

/-! PROOFS. spec/45_bit_unpacker.md R239, the round trip: the walk down the codewords of a tree gives their tokens back, and
the host's loops over the PACK and the UNPACK commands move the words between the two streams (spec/46_host_codec.md R252,
R256). -/

namespace Sys2Proof.Machine

/-! ## The walk down codewords (R231) -/

section

variable {node : List NodeRec} {root : Word}

/-- A walk at record n that has emitted nothing yet. -/
abbrev Walk.start (n : Word) : Walk := { node := n, tokens := [] }

theorem walk_cons (w : Walk) (b : Bool) (bits : List Bool) :
    walk node root w (b :: bits) = walk node root (descend node root w b) bits := rfl

/-- The walk with `ts` emitted before its own tokens. -/
def Walk.after (ts : List Word) (w : Walk) : Walk := { w with tokens := ts ++ w.tokens }

/-- A step goes the same way whatever was emitted before it. -/
theorem descend_after (ts : List Word) (w : Walk) (b : Bool) :
    descend node root (w.after ts) b = (descend node root w b).after ts := by
  cases h : (nodeAt node (w.child node b).toNat).leaf with
  | true =>
    rw [descend_of_leaf h, descend_of_leaf (w := w.after ts) h]
    exact congrArg (Walk.mk root) (List.append_assoc _ _ _)
  | false => rw [descend_of_inner h, descend_of_inner (w := w.after ts) h]; rfl

theorem walk_after (ts : List Word) (w : Walk) (bits : List Bool) :
    walk node root (w.after ts) bits = (walk node root w bits).after ts := by
  induction bits generalizing w with
  | nil => rfl
  | cons b bits ih => rw [walk_cons, descend_after, ih, walk_cons]

/-- A walk over two lists of bits is one over the first, and then one over the second that starts without tokens. -/
theorem walk_append (w : Walk) (bits bits' : List Bool) :
    walk node root w (bits ++ bits')
      = (walk node root (.start (walk node root w bits).node) bits').after (walk node root w bits).tokens := by
  rw [← walk_after, Walk.after, List.append_nil]
  exact List.foldl_append

/-- Down to an internal record the walk emits nothing. -/
theorem Leads.walk_of_inner {inner : Set Nat} {path : List Bool} {k : Nat} (h : Leads node root.toNat inner path k)
    (hinner : ∀ p ∈ inner, (nodeAt node p).leaf = false) (hk : (nodeAt node k).leaf = false) :
    ∃ n : Word, n.toNat = k ∧ walk node root (.start root) path = .start n := by
  induction h with
  | root => exact ⟨root, rfl, rfl⟩
  | @child path p b _ hp ih =>
    obtain ⟨n, rfl, hwalk⟩ := ih (hinner p hp)
    rw [← Walk.toNat_child (w := .start n)] at hk ⊢
    exact ⟨_, rfl, by rw [walk_append, hwalk]; exact descend_of_inner hk⟩

/-- Down to a leaf it emits the leaf's token and is back at the root. -/
theorem Leads.walk_of_leaf {inner : Set Nat} {path : List Bool} {k : Nat} (h : Leads node root.toNat inner path k)
    (hinner : ∀ p ∈ inner, (nodeAt node p).leaf = false) (hroot : (nodeAt node root.toNat).leaf = false)
    (hk : (nodeAt node k).leaf = true) :
    walk node root (.start root) path = { node := root, tokens := [(nodeAt node k).token] } := by
  cases h with
  | root => simp [hroot] at hk
  | @child path p b hpath hp =>
    obtain ⟨n, rfl, hwalk⟩ := hpath.walk_of_inner hinner (hinner p hp)
    rw [← Walk.toNat_child (w := .start n)] at hk ⊢
    rw [walk_append, hwalk]
    exact descend_of_leaf hk

/-- The walk along a token's codeword emits the token and is back at the root. -/
def Decodes (node : List NodeRec) (root : Word) (e : CodeEntry) : Prop :=
  walk node root (.start root) e.bits = { node := root, tokens := [e.token] }

/-- Along the codewords of a list of entries it emits their tokens. -/
theorem walk_flatMap_bits {es : List CodeEntry} (h : ∀ e ∈ es, Decodes node root e) :
    walk node root (.start root) (es.flatMap CodeEntry.bits)
      = { node := root, tokens := es.map CodeEntry.token } := by
  induction es with
  | nil => rfl
  | cons e es ih =>
    obtain ⟨he, hes⟩ := List.forall_mem_cons.mp h
    rw [List.flatMap_cons, walk_append, he, ih hes]
    rfl

end

/-- Each codeword DERIVE gives a leaf decodes to the leaf's token. -/
theorem derivedEntry_decodes {s : State} (hs : StateOk s) (ht : TreeOk s) (hvalid : s.tree.valid = true)
    (hdegen : s.tree.degen = false) (hlen : ∀ i < s.leaves, (codeOf s.mem.node i).len ≤ 31) {i : Nat} (hi : i < s.leaves) :
    Decodes s.mem.node s.tree.root (derivedEntry s.mem.node i) := by
  have hderive := exec_derive_of_no_error (deriveError_eq_none_iff.mpr ⟨hvalid, hlen⟩)
  obtain ⟨-, hdepth, hbits, -⟩ := derived_codeAt hs ht hderive rfl hi
  have hmany := one_lt_nnodes ht hdegen
  obtain ⟨-, -, hnodes, -, hfull⟩ := ht
  obtain ⟨-, -, hleaf, -⟩ := id hfull
  have hi' : i < s.tree.nnodes.toNat := by omega
  rw [Decodes, hbits]
  exact (FullTree.leads_rootPath hfull hi' hdepth).walk_of_leaf (fun _ hp => hp.2) (FullTree.root_not_leaf hfull hmany)
    ((hleaf i hi').mpr hi)

/-! ## Driving the block (spec/70_reset_and_hazards.md R304) -/

section

variable {s₀ s t : State}

/-- The block is idle, and its tree, its table and what says how to read them are those of `s₀`: what the codec's two streams
keep. -/
structure Coded (s₀ s : State) : Prop where
  idle : s.seq.busy = false
  wf : s.mem.wf s.config
  config : s.config = s₀.config
  ctrl : s.ctrl = s₀.ctrl
  nsym : s.regs.nsym = s₀.regs.nsym
  tree : s.tree = s₀.tree
  node : s.mem.node = s₀.mem.node
  code : s.mem.code = s₀.mem.code

theorem Coded.refl (hb : s.seq.busy = false) (hwf : s.mem.wf s.config) : Coded s s :=
  ⟨hb, hwf, rfl, rfl, rfl, rfl, rfl, rfl⟩

/-- A host write to a register of an idle block, but CTRL's soft reset. -/
theorem hostSet_reg (hb : s.seq.busy = false) {r : Reg} (hr : r ≠ .ctrl) (v : Word) :
    hostSet (.reg r) v s = s.writeReg r v := by
  have hctrl : r.offset ≠ 0x8 := by
    revert hr
    cases r <;> decide
  have hwrite := State.busWrite_idle hb r.offset_lt.2 (v := v) fun h => hctrl h.1
  rwa [decodeOffset_reg] at hwrite

namespace Coded

/-- Writes of TOKEN, WORD and UP_TZB. -/
theorem with_regs (h : Coded s₀ s) {r : OperandRegs} (hnsym : r.nsym = s.regs.nsym) : Coded s₀ { s with regs := r } :=
  { h with nsym := hnsym.trans h.nsym }

/-- A command other than BUILD, REBUILD and DERIVE, waited for, that completes with E_OK. -/
theorem hostRunCmd (h : Coded s₀ s) {i : Instr} (hi : i ≠ .build ∧ i ≠ .rebuild ∧ i ≠ .derive)
    (hx : exec i (s.issue (encode i)) = .next (t.complete .ok)) :
    Machine.hostRunCmd i s = (t.complete .ok, none) ∧ Coded s₀ (t.complete .ok) := by
  have hset : hostSet (.reg .cmd) (encode i) s = s.issue (encode i) := hostSet_reg h.idle (by simp) _
  have hengine : engineStep (s.issue (encode i)) = exec i (s.issue (encode i)) := engineStep_of_decode (decode_encode i)
  obtain ⟨hconfig, hctrl, hregs, -⟩ := exec_keeps_inputs hx
  obtain ⟨hbuild, hrebuild, hderive⟩ := hi
  obtain ⟨hnode, htree⟩ := exec_keeps_tree hx hbuild hrebuild
  obtain ⟨htable, -⟩ := exec_keeps_memories hx
  obtain ⟨hcode, hmaxlen⟩ := htable hderive
  refine ⟨by rw [Machine.hostRunCmd, hset, hengine, hx]; rfl, rfl, exec_keeps_memory_wf i hx h.wf, hconfig.trans h.config,
    hctrl.trans h.ctrl, (congrArg _ hregs).trans h.nsym, ?_, hnode.trans h.node, hcode.trans h.code⟩
  rw [htree, hmaxlen]
  exact h.tree

theorem hostCmd (h : Coded s₀ s) {i : Instr} (hi : i ≠ .build ∧ i ≠ .rebuild ∧ i ≠ .derive)
    (hx : exec i (s.issue (encode i)) = .next (t.complete .ok)) :
    Machine.hostCmd i s = .ok (t.complete .ok) ∧ Coded s₀ (t.complete .ok) := by
  obtain ⟨hrun, hcoded⟩ := h.hostRunCmd hi hx
  exact ⟨by rw [Machine.hostCmd, hrun], hcoded⟩

end Coded

end

/-! ## The pack stream (spec/46_host_codec.md R252) -/

section

variable {s₀ s : State}

/-- The word a host reads after a PACK command is the one it flushed. -/
theorem flushedWord_eq (s : State) : flushedWord s = s.pk.flushed := rfl

/-- The entry PACK_TOKEN finds for the token x. -/
def Encodes (s : State) (x : Word) (e : CodeEntry) : Prop :=
  ∃ i, FoundAt { s with regs := { s.regs with token := x } } i ∧ codeAt s.mem.code i = e

/-- A token of the table has a lowest entry. -/
theorem exists_encodes {x : Word}
    (h : ∃ i < s.count, tokMask s.tokenWidth (codeAt s.mem.code i).token = tokMask s.tokenWidth x) :
    ∃ e, Encodes s x e := by
  obtain ⟨hi, htoken⟩ := Nat.find_spec h
  exact ⟨_, Nat.find h, ⟨hi, htoken, fun j hj heq => Nat.find_min h hj ⟨hj.trans hi, heq⟩⟩, rfl⟩

/-- What PACK_TOKEN's checks ask of L, of N and of the table. -/
structure Packable (s : State) : Prop where
  width : WidthOk s.tokenWidth
  count : s.count ≤ s.config.nsymMax
  length : ∀ i < s.count, (codeAt s.mem.code i).length ≤ 31

theorem Encodes.length_le {x : Word} {e : CodeEntry} (h : Encodes s x e) (hp : Packable s) : e.length ≤ 31 := by
  obtain ⟨i, ⟨hi, -⟩, rfl⟩ := h
  exact hp.length i hi

namespace Coded

theorem packLookup (h : Coded s₀ s) (hp : Packable s₀) (hactive : s.pk.state = .active) {e : CodeEntry}
    (he : Encodes s₀ s.regs.token e) : packLookup s = .ok e := by
  obtain ⟨i, hfound, rfl⟩ := he
  have hcount : s.count = s₀.count := congrArg BitVec.toNat h.nsym
  have hwidth : s.tokenWidth = s₀.tokenWidth := by rw [State.tokenWidth, h.ctrl, State.tokenWidth]
  have hle : s.count ≤ s.config.nsymMax := by rw [hcount, h.config]; exact hp.count
  have hhere : FoundAt s i := by
    rw [FoundAt, hcount, hwidth, h.code]
    exact hfound
  rw [packLookup_of_found ⟨hactive, hwidth ▸ hp.width, hle⟩ (findToken_of_foundAt h.wf hle hhere), h.code,
    if_neg (Nat.not_lt.mpr (hp.length i hfound.1))]

/-- One token: its entry is pushed. -/
theorem packToken (h : Coded s₀ s) (hp : Packable s₀) (hactive : s.pk.state = .active) {x : Word} {e : CodeEntry}
    (he : Encodes s₀ x e) :
    ∃ t, Machine.hostCmd .packToken (hostSet (.reg .token) x s) = .ok t ∧ Coded s₀ t
      ∧ t.pk = s.pk.pushCode e.codeword e.length := by
  have hset : hostSet (.reg .token) x s = { s with regs := { s.regs with token := x } } := hostSet_reg h.idle (by simp) x
  have htoken : Coded s₀ { s with regs := { s.regs with token := x } } := h.with_regs rfl
  have hlookup := htoken.packLookup hp hactive he
  obtain ⟨hcmd, hcoded⟩ := htoken.hostCmd (i := .packToken) (by simp) (exec_packToken_of_ok hlookup)
  exact ⟨_, hset ▸ hcmd, hcoded, rfl⟩

/-- The tokens one by one: their entries are pushed in order. -/
theorem packTokens (hp : Packable s₀) {f : Word → CodeEntry} {xs : List Word} (hf : ∀ x ∈ xs, Encodes s₀ x (f x))
    (h : Coded s₀ s) (hactive : s.pk.state = .active) :
    ∃ t, Machine.packTokens xs s = .ok (t, (packAll s.pk (xs.map f)).2) ∧ Coded s₀ t
      ∧ t.pk = (packAll s.pk (xs.map f)).1 ∧ t.pk.state = .active := by
  induction xs generalizing s with
  | nil => exact ⟨s, rfl, h, rfl, hactive⟩
  | cons x xs ih =>
    obtain ⟨hx, hxs⟩ := List.forall_mem_cons.mp hf
    obtain ⟨b, hcmd, hb, hpush⟩ := h.packToken hp hactive hx
    have hstate := (s.pk.pushCode_keeps (f x).codeword (f x).length).1
    obtain ⟨t, hrest, ht, hpk, htactive⟩ := ih hxs hb (by rw [hpush, hstate, hactive])
    rw [hpush] at hrest hpk
    refine ⟨t, ?_, ht, hpk, htactive⟩
    rw [Machine.packTokens, hcmd]
    simp only [hrest, flushedWord_eq, hpush]
    rfl

/-- The whole stream gives the words of its entries. -/
theorem packStream (h : Coded s₀ s) (hp : Packable s₀) {f : Word → CodeEntry} {xs : List Word}
    (hf : ∀ x ∈ xs, Encodes s₀ x (f x)) :
    ∃ t, Machine.packStream xs s = .ok (t, streamWords (xs.map f)) ∧ Coded s₀ t
      ∧ t.pk = (packAll .opened (xs.map f)).1.closed := by
  obtain ⟨hbegin, hb⟩ := h.hostCmd (i := .packBegin) (by simp) (packBeginOpensAStream _)
  obtain ⟨c, htokens, hc, hpk, hactive⟩ := packTokens hp hf hb rfl
  obtain ⟨hend, ht⟩ := hc.hostCmd (i := .packEnd) (by simp) (exec_packEnd_of_active hactive)
  refine ⟨_, ?_, ht, congrArg Packer.closed hpk⟩
  rw [Machine.packStream, hbegin]
  simp only [htokens, hend, flushedWord_eq, State.complete_pk, State.issue_pk, hpk]
  rfl

end Coded

end

/-! ## The unpack stream (spec/46_host_codec.md R256) -/

section

variable {s₀ s : State}

theorem take_writePrefix {α : Type} {xs m : List α} (h : xs.length ≤ m.length) : (writePrefix xs m).take xs.length = xs := by
  simp [writePrefix, List.take_of_length_le h]

/-- The bits read of a word are its bits but the last `stop`. -/
theorem streamBits_eq_rdrop (w : Word) (stop : Nat) : streamBits w stop = (msbBits w 32).rdrop stop := by
  rw [List.rdrop, length_msbBits, msbBits, ← List.map_take, List.take_range, Nat.min_eq_left (Nat.sub_le _ _)]
  rfl

theorem wordsBits_cons (w : Word) (ws : List Word) : wordsBits (w :: ws) = msbBits w 32 ++ wordsBits ws := rfl

/-- The tokens of a walk that fits TBUF are those the host reads after it. -/
theorem emittedTokens_emit {w : Walk} (hlen : w.tokens.length ≤ 32) (htbuf : s.mem.tbuf.length = 32) :
    emittedTokens (s.emit w) = w.tokens := by
  have hcount : (BitVec.ofNat 32 w.tokens.length).toNat = w.tokens.length := by
    rw [BitVec.toNat_ofNat]
    omega
  simp only [emittedTokens, State.emit_mem, State.emit_up, hcount]
  exact take_writePrefix (htbuf ▸ hlen)

/-- A word completes with E_OK unless it is the final one and the walk ends inside the tree. -/
theorem exec_unpackWord_ok {last : Bool} (hrun : s.up.state = .run) (htzb : last = true → s.regs.upTzb.toNat ≤ 31)
    (hend : last = true → (s.wordWalk last).node = s.tree.root) :
    exec (.unpackWord last) s
      = .next (((s.emit (s.wordWalk last)).setUpState (if last then .done else .run)).complete .ok) := by
  rw [exec_unpackWord_of_run hrun htzb, State.stateAfterWord]
  cases last with
  | false => rfl
  | true => simp [hend rfl]

namespace Coded

/-- One word: its walk goes on from UP_NODE, and the host takes the tokens it emits. -/
theorem unpackWord (h : Coded s₀ s) (hrun : s.up.state = .run) {last : Bool} {w n : Word} {ts : List Word}
    (htzb : last = true → s.regs.upTzb.toNat ≤ 31)
    (hwalk : walk s₀.mem.node s₀.tree.root (.start s.up.node) (streamBits w (s.stopAt last))
      = { node := n, tokens := ts })
    (hend : last = true → n = s₀.tree.root) :
    ∃ t, Machine.hostRunCmd (.unpackWord last) (hostSet (.reg .word) w s) = (t, none) ∧ Coded s₀ t
      ∧ emittedTokens t = ts ∧ t.regs.upTzb = s.regs.upTzb
      ∧ t.up = { s.up with state := if last then .done else .run, node := n, tcount := BitVec.ofNat 32 ts.length,
                           wcnt := s.up.wcnt + 1#32, tokcnt := s.up.tokcnt + BitVec.ofNat 32 ts.length } := by
  have hset : hostSet (.reg .word) w s = { s with regs := { s.regs with word := w } } := hostSet_reg h.idle (by simp) w
  have hword : Coded s₀ { s with regs := { s.regs with word := w } } := h.with_regs rfl
  generalize hb : State.issue { s with regs := { s.regs with word := w } } (encode (.unpackWord last)) = b
  have hhere : b.wordWalk last = { node := n, tokens := ts } := by
    rw [← hwalk, ← h.node, ← h.tree, ← hb]
    rfl
  have hx := exec_unpackWord_ok (s := b) (last := last) (hb ▸ hrun) (hb ▸ htzb) fun hlast => by
    rw [hhere, ← hb, hend hlast]
    exact h.tree ▸ rfl
  have hlen := length_tokens_wordWalk_le b last
  rw [hhere] at hx hlen
  subst hb
  obtain ⟨hcmd, hcoded⟩ := hword.hostRunCmd (by simp) hx
  obtain ⟨-, -, -, htbuf⟩ := h.wf
  exact ⟨_, hset ▸ hcmd, hcoded, emittedTokens_emit hlen htbuf, rfl, rfl⟩

/-- The words one by one, the last one as the final word: a walk over their bits that ends at the root emits what the host has
at the end. -/
theorem unpackWords {ws : List Word} (hws : ws ≠ []) (h : Coded s₀ s) (hrun : s.up.state = .run)
    (htzb : s.regs.upTzb.toNat ≤ 31) {ts : List Word}
    (hwalk : walk s₀.mem.node s₀.tree.root (.start s.up.node) ((wordsBits ws).rdrop s.regs.upTzb.toNat)
      = { node := s₀.tree.root, tokens := ts }) :
    ∃ t, Machine.unpackWords ws s = { state := t, sink := ts, error := none } ∧ Coded s₀ t ∧ t.up.state = .done
      ∧ t.up.tokcnt = s.up.tokcnt + BitVec.ofNat 32 ts.length := by
  induction ws generalizing s ts with
  | nil => exact absurd rfl hws
  | cons w ws ih =>
    cases ws with
    | nil =>
      rw [wordsBits_singleton, ← streamBits_eq_rdrop] at hwalk
      obtain ⟨t, hcmd, ht, htokens, -, hup⟩ := h.unpackWord hrun (last := true) (fun _ => htzb) hwalk fun _ => rfl
      refine ⟨t, ?_, ht, by rw [hup]; rfl, by rw [hup]⟩
      simp [Machine.unpackWords, hcmd, htokens]
    | cons w' ws =>
      have hrest : s.regs.upTzb.toNat ≤ (wordsBits (w' :: ws)).length := by
        rw [length_wordsBits, List.length_cons]
        omega
      rw [wordsBits_cons, List.rdrop_append_of_le_length _ hrest, walk_append] at hwalk
      obtain ⟨⟨n, ts₁⟩, hfirst⟩ : ∃ r, walk s₀.mem.node s₀.tree.root (.start s.up.node) (msbBits w 32) = r := ⟨_, rfl⟩
      obtain ⟨⟨k, ts₂⟩, hsecond⟩ : ∃ r, walk s₀.mem.node s₀.tree.root (.start n)
        ((wordsBits (w' :: ws)).rdrop s.regs.upTzb.toNat) = r := ⟨_, rfl⟩
      rw [hfirst, hsecond] at hwalk
      obtain ⟨rfl, rfl⟩ := Walk.mk.inj hwalk
      have hword : streamBits w 0 = msbBits w 32 := streamBits_eq_rdrop w 0
      obtain ⟨b, hcmd, hb, htokens, hbtzb, hup⟩ := h.unpackWord hrun (last := false) (by simp) (hword ▸ hfirst) (by simp)
      obtain ⟨t, hrest, ht, hdone, htokcnt⟩ := ih (List.cons_ne_nil _ _) hb (by rw [hup]; rfl) (hbtzb ▸ htzb)
        (by rw [hup, hbtzb]; exact hsecond)
      refine ⟨t, ?_, ht, hdone, ?_⟩
      · rw [Machine.unpackWords, List.isEmpty_cons, hcmd]
        simp only [hrest, htokens]
      · rw [htokcnt, hup, List.length_append, BitVec.ofNat_add, BitVec.add_assoc]

/-- The whole stream, from a tree of more than one leaf: a walk from the root that ends there gives what the host has at the
end. -/
theorem unpackStream (h : Coded s₀ s) (hvalid : s₀.tree.valid = true) (hdegen : s₀.tree.degen = false) {ws : List Word}
    (hws : ws ≠ []) (htzb : s.regs.upTzb.toNat ≤ 31) {ts : List Word}
    (hwalk : walk s₀.mem.node s₀.tree.root (.start s₀.tree.root) ((wordsBits ws).rdrop s.regs.upTzb.toNat)
      = { node := s₀.tree.root, tokens := ts }) :
    ∃ t, Machine.unpackStream ws s = { state := t, sink := ts, error := none } ∧ t.up.tokcnt = BitVec.ofNat 32 ts.length
      ∧ t.up.state = .idle ∧ t.seq.errcode = .ok := by
  obtain ⟨hbegin, hb⟩ := h.hostRunCmd (i := .unpackBegin) (by simp)
    (exec_unpackBegin_of_tree (h.tree ▸ hvalid) (h.tree ▸ hdegen))
  obtain ⟨c, hwords, hc, hdone, htokcnt⟩ := hb.unpackWords hws rfl htzb (by rw [← hwalk, ← h.tree]; rfl)
  obtain ⟨hend, -⟩ := hc.hostRunCmd (i := .unpackEnd) (by simp) (exec_unpackEnd_of_done hdone)
  refine ⟨((c.issue (encode .unpackEnd)).setUpState .idle).complete .ok, ?_, htokcnt.trans (BitVec.zero_add _), rfl, rfl⟩
  rw [Machine.unpackStream, hbegin]
  simp only [hwords, hend]

end Coded

end

/-! ## The round trip (R239) -/

/-- The words of a stream but the padding of the last one are the codewords (spec/43_bit_packer.md R202). -/
theorem rdrop_wordsBits_streamWords {es : List CodeEntry} (hmax : ∀ e ∈ es, e.length ≤ 31) :
    (wordsBits (streamWords es)).rdrop (packAll .opened es).1.closed.tzb.toNat = es.flatMap CodeEntry.bits
      ∧ (packAll .opened es).1.closed.tzb.toNat ≤ 31 := by
  obtain ⟨-, -, -, hbits, htzb, -⟩ := streamHoldsTheCodewordBits es hmax
  refine ⟨?_, by omega⟩
  have hdrop := List.rdrop_append_length (l₁ := es.flatMap CodeEntry.bits)
    (l₂ := List.replicate (packAll .opened es).1.closed.tzb.toNat false)
  rwa [List.length_replicate, ← hbits] at hdrop

section

variable {s : State}

/-- CODE holds the table DERIVE gives, its tokens no wider than L bytes. -/
def HoldsDerivedTable (s : State) : Prop :=
  ∀ i < s.leaves, (codeOf s.mem.node i).len ≤ 31 ∧ codeAt s.mem.code i = derivedEntry s.mem.node i
    ∧ tokMask s.tokenWidth (codeAt s.mem.code i).token = (codeAt s.mem.code i).token

theorem HoldsDerivedTable.packable (h : HoldsDerivedTable s) (ht : TreeOk s) (hwidth : WidthOk s.tokenWidth)
    (hcount : s.count = s.leaves) : Packable s := by
  obtain ⟨-, hleaves, -⟩ := ht
  refine ⟨hwidth, hcount ▸ hleaves, fun i hi => ?_⟩
  obtain ⟨hlen, hentry, -⟩ := h i (hcount ▸ hi)
  rwa [hentry, derivedEntry_length hlen]

/-- The entry of a token decodes to the token's low 8L bits. -/
theorem HoldsDerivedTable.decodes (h : HoldsDerivedTable s) (hs : StateOk s) (ht : TreeOk s) (hvalid : s.tree.valid = true)
    (hdegen : s.tree.degen = false) (hcount : s.count = s.leaves) {x : Word} {e : CodeEntry} (he : Encodes s x e) :
    Decodes s.mem.node s.tree.root e ∧ e.token = tokMask s.tokenWidth x := by
  obtain ⟨i, ⟨hi, htoken, -⟩, rfl⟩ := he
  obtain ⟨-, hentry, hmask⟩ := h i (hcount ▸ hi)
  refine ⟨?_, hmask.symm.trans htoken⟩
  rw [hentry]
  exact derivedEntry_decodes hs ht hvalid hdegen (fun j hj => (h j hj).1) (hcount ▸ hi)

end

/-- Settles O52: the packed words hold the codewords of the tokens' entries, and the walk along them gives the tokens back. -/
theorem unpackRestoresThePackedTokens : Obligations.UnpackRestoresThePackedTokens := by
  intro s xs hs ⟨htrees, _⟩ hidle hvalid hdegen hwidth hcount htable hxs htokens
  have htree := htrees hvalid
  have htable : HoldsDerivedTable s := htable
  have hp := htable.packable htree hwidth hcount
  have : Nonempty CodeEntry := ⟨absentCode 0⟩
  have hentry : ∀ x ∈ xs, ∃ e, Encodes s x e := fun x hx => exists_encodes (hcount ▸ htokens x hx)
  choose! f hf using hentry
  have hdecodes : ∀ x ∈ xs, Decodes s.mem.node s.tree.root (f x) ∧ (f x).token = tokMask s.tokenWidth x :=
    fun x hx => htable.decodes hs htree hvalid hdegen hcount (hf x hx)
  have hsink : (xs.map f).map CodeEntry.token = xs.map (tokMask s.tokenWidth) := by
    rw [List.map_map]
    exact List.map_congr_left fun x hx => (hdecodes x hx).2
  have hwalk := walk_flatMap_bits (List.forall_mem_map.mpr fun x hx => (hdecodes x hx).1)
  obtain ⟨hbits, htzb⟩ := rdrop_wordsBits_streamWords (List.forall_mem_map.mpr fun x hx => (hf x hx).length_le hp)
  obtain ⟨-, hwf, -, -⟩ := hs
  obtain ⟨t, hpack, ht, hpk⟩ := (Coded.refl hidle hwf).packStream hp hf
  rw [← hbits, hsink] at hwalk
  have hset : hostSet (.reg .upTzb) t.pk.tzb t = { t with regs := { t.regs with upTzb := t.pk.tzb.setWidth 8 } } :=
    hostSet_reg ht.idle (by simp) _
  have hstop : (t.pk.tzb.setWidth 8).toNat = (packAll .opened (xs.map f)).1.closed.tzb.toNat := by
    rw [hpk, BitVec.toNat_setWidth]
    omega
  have hwords : streamWords (xs.map f) ≠ [] := fun hnil => by
    rw [hnil, wordsBits_nil, List.rdrop_nil] at hwalk
    exact hxs (List.map_eq_nil_iff.mp (Walk.mk.inj hwalk).2.symm)
  have htzbSet : Coded s { t with regs := { t.regs with upTzb := t.pk.tzb.setWidth 8 } } := ht.with_regs rfl
  obtain ⟨u, hunpack, htokcnt, hclosed, hok⟩ :=
    htzbSet.unpackStream hvalid hdegen hwords (hstop ▸ htzb) (by rw [hstop]; exact hwalk)
  exact ⟨t, u, _, hpack, hset ▸ hunpack, by simpa using htokcnt, hclosed, hok⟩

end Sys2Proof.Machine

/-! PROOFS. spec/46_host_codec.md R251, the frequency table: the counts are one entry per distinct token in first-seen order, and
the sort permutes them by count without exchanging equal counts. -/

namespace Sys2Proof.Machine

/-! ## The distinct tokens in first-seen order -/

section

variable {ts : List Word} {t : Word}

theorem eraseDups_concat_of_mem (h : t ∈ ts) : (ts ++ [t]).eraseDups = ts.eraseDups := by
  simp [List.eraseDups_append, List.removeAll, h]

theorem eraseDups_concat_of_notMem (h : t ∉ ts) : (ts ++ [t]).eraseDups = ts.eraseDups ++ [t] := by
  simp [List.eraseDups_append, List.removeAll, List.eraseDups_cons, h]

/-- `eraseDups` keeps the first occurrence of each token. -/
theorem pairwise_idxOf_eraseDups (ts : List Word) : ts.eraseDups.Pairwise (fun t u => ts.idxOf t < ts.idxOf u) := by
  induction ts using List.reverseRecOn with
  | nil => simp
  | append_singleton ts x ih =>
    have hold : ts.eraseDups.Pairwise (fun t u => (ts ++ [x]).idxOf t < (ts ++ [x]).idxOf u) :=
      ih.imp_of_mem fun ht hu hlt => by
        rwa [List.idxOf_append_of_mem (List.mem_eraseDups.mp ht), List.idxOf_append_of_mem (List.mem_eraseDups.mp hu)]
    by_cases hx : x ∈ ts
    · rwa [eraseDups_concat_of_mem hx]
    · rw [eraseDups_concat_of_notMem hx]
      refine List.pairwise_append.mpr ⟨hold, List.pairwise_singleton _ _, fun t ht u hu => ?_⟩
      rw [List.mem_eraseDups] at ht
      rw [List.mem_singleton.mp hu, List.idxOf_append_of_mem ht, List.idxOf_append_of_notMem hx]
      exact (List.idxOf_lt_length_of_mem ht).trans_le (Nat.le_add_right _ _)

theorem nodup_eraseDups (ts : List Word) : ts.eraseDups.Nodup :=
  (pairwise_idxOf_eraseDups ts).imp fun hlt heq => by simp [heq] at hlt

/-! ## Counting -/

/-- A token with the number of its occurrences in `ts`. -/
def freqIn (ts : List Word) (t : Word) : Freq := { token := t, count := ts.count t }

@[simp] theorem freqIn_token : (freqIn ts t).token = t := rfl
@[simp] theorem freqIn_count : (freqIn ts t).count = ts.count t := rfl

theorem freqIn_concat_self : freqIn (ts ++ [t]) t = { freqIn ts t with count := ts.count t + 1 } := by
  simp [freqIn]

theorem freqIn_concat_of_ne {u : Word} (h : u ≠ t) : freqIn (ts ++ [t]) u = freqIn ts u := by
  simp [freqIn, h.symm]

theorem map_freqIn_concat_of_notMem {us : List Word} (h : t ∉ us) : us.map (freqIn (ts ++ [t])) = us.map (freqIn ts) :=
  List.map_congr_left fun _ hu => freqIn_concat_of_ne (ne_of_mem_of_not_mem hu h)

/-- Counting a token already listed raises its count in place. -/
theorem bumpFreq_map_of_mem {us : List Word} (hnodup : us.Nodup) (ht : t ∈ us) :
    bumpFreq t (us.map (freqIn ts)) = us.map (freqIn (ts ++ [t])) := by
  induction us with
  | nil => simp at ht
  | cons u us ih =>
    obtain ⟨hu, hnodup⟩ := List.nodup_cons.mp hnodup
    by_cases hut : u = t
    · subst hut
      simp [bumpFreq, freqIn_concat_self, map_freqIn_concat_of_notMem hu]
    · have ht : t ∈ us := (List.mem_cons.mp ht).resolve_left (Ne.symm hut)
      simp [bumpFreq, hut, freqIn_concat_of_ne hut, ih hnodup ht]

/-- Counting a new token lists it last. -/
theorem bumpFreq_of_notMem {fs : List Freq} (h : t ∉ fs.map Freq.token) :
    bumpFreq t fs = fs ++ [{ token := t, count := 1 }] := by
  induction fs with
  | nil => rfl
  | cons f fs ih =>
    obtain ⟨hf, hfs⟩ := not_or.mp (mt List.mem_cons.mpr h)
    simp [bumpFreq, Ne.symm hf, ih hfs]

/-- The counts before the sort: the distinct tokens in first-seen order, each with its number of occurrences. -/
theorem foldl_bumpFreq (ts : List Word) :
    ts.foldl (fun fs t => bumpFreq t fs) [] = ts.eraseDups.map (freqIn ts) := by
  induction ts using List.reverseRecOn with
  | nil => simp
  | append_singleton ts t ih =>
    rw [List.foldl_append, ih, List.foldl_cons, List.foldl_nil]
    by_cases ht : t ∈ ts
    · rw [eraseDups_concat_of_mem ht, bumpFreq_map_of_mem (nodup_eraseDups ts) (List.mem_eraseDups.mpr ht)]
    · have hnew : t ∉ ts.eraseDups := mt List.mem_eraseDups.mp ht
      have hone : freqIn (ts ++ [t]) t = { token := t, count := 1 } := by
        simp [freqIn, List.count_eq_zero_of_not_mem ht]
      rw [eraseDups_concat_of_notMem ht, List.map_append, map_freqIn_concat_of_notMem hnew, List.map_singleton, hone]
      exact bumpFreq_of_notMem (by simpa [Function.comp_def] using ht)

end

/-! ## Sorting -/

/-- The order of the table: ascending by count, entries of equal count in the order `R`. -/
def StableLe (R : Freq → Freq → Prop) (f g : Freq) : Prop := f.count ≤ g.count ∧ (f.count = g.count → R f g)

theorem insertFreq_perm (f : Freq) (gs : List Freq) : (insertFreq f gs).Perm (f :: gs) := by
  induction gs with
  | nil => rfl
  | cons g gs ih =>
    rw [insertFreq]
    split
    · rfl
    · exact (ih.cons g).trans (.swap f g gs)

theorem foldl_insertFreq_perm (fs : List Freq) : (fs.foldl (fun acc f => insertFreq f acc) []).Perm fs := by
  induction fs using List.reverseRecOn with
  | nil => rfl
  | append_singleton fs f ih =>
    rw [List.foldl_append]
    exact ((insertFreq_perm f _).trans (ih.cons f)).trans (List.perm_append_singleton f fs).symm

section

variable {R : Freq → Freq → Prop}

/-- An entry that comes after all of a stably sorted list in the order `R` keeps it so. -/
theorem pairwise_insertFreq {f : Freq} {gs : List Freq} (hgs : gs.Pairwise (StableLe R)) (hf : ∀ g ∈ gs, R g f) :
    (insertFreq f gs).Pairwise (StableLe R) := by
  induction gs with
  | nil => exact List.pairwise_singleton _ f
  | cons g gs ih =>
    obtain ⟨hg, htail⟩ := List.pairwise_cons.mp hgs
    obtain ⟨hRg, hRgs⟩ := List.forall_mem_cons.mp hf
    rw [insertFreq]
    split
    next hlt =>
      have hless : ∀ b ∈ g :: gs, f.count < b.count :=
        List.forall_mem_cons.mpr ⟨hlt, fun b hb => hlt.trans_le (hg b hb).1⟩
      exact List.pairwise_cons.mpr ⟨fun b hb => ⟨(hless b hb).le, fun heq => absurd heq (hless b hb).ne⟩, hgs⟩
    next hge =>
      refine List.pairwise_cons.mpr ⟨fun b hb => ?_, ih htail hRgs⟩
      obtain rfl | hb := List.mem_cons.mp ((insertFreq_perm f gs).mem_iff.mp hb)
      · exact ⟨not_lt.mp hge, fun _ => hRg⟩
      · exact hg b hb

/-- The insertion sort is stable: entries of equal count keep the order `R` they were listed in. -/
theorem pairwise_foldl_insertFreq {fs : List Freq} (h : fs.Pairwise R) :
    (fs.foldl (fun acc f => insertFreq f acc) []).Pairwise (StableLe R) := by
  induction fs using List.reverseRecOn with
  | nil => exact .nil
  | append_singleton fs f ih =>
    obtain ⟨hfs, -, hlast⟩ := List.pairwise_append.mp h
    rw [List.foldl_append]
    exact pairwise_insertFreq (ih hfs) fun g hg =>
      hlast g ((foldl_insertFreq_perm fs).mem_iff.mp hg) f (List.mem_singleton_self f)

end

/-! ## The table (R251) -/

theorem freqTable_perm (ts : List Word) : (freqTable ts).Perm (ts.eraseDups.map (freqIn ts)) :=
  foldl_bumpFreq ts ▸ foldl_insertFreq_perm _

theorem mem_freqTable {ts : List Word} {f : Freq} : f ∈ freqTable ts ↔ ∃ t ∈ ts, freqIn ts t = f := by
  simp [(freqTable_perm ts).mem_iff]

theorem map_token_freqTable_perm (ts : List Word) : ((freqTable ts).map Freq.token).Perm ts.eraseDups := by
  simpa [Function.comp_def] using (freqTable_perm ts).map Freq.token

theorem pairwise_freqTable (ts : List Word) :
    (freqTable ts).Pairwise (StableLe fun f g => ts.idxOf f.token < ts.idxOf g.token) := by
  rw [freqTable, foldl_bumpFreq]
  exact pairwise_foldl_insertFreq (List.pairwise_map.mpr (pairwise_idxOf_eraseDups ts))

/-- Settles O60: the table permutes the counts of the distinct tokens into the stable ascending order. -/
theorem frequencyTableIsSortedAndStable : Obligations.FrequencyTableIsSortedAndStable := by
  intro ts
  refine ⟨(pairwise_freqTable ts).imp fun h => h.1, (map_token_freqTable_perm ts).nodup_iff.mpr (nodup_eraseDups ts),
    fun f hf => ?_, fun t ht => ⟨freqIn ts t, mem_freqTable.mpr ⟨t, ht, rfl⟩, rfl⟩, (pairwise_freqTable ts).imp fun h => h.2⟩
  obtain ⟨t, ht, rfl⟩ := mem_freqTable.mp hf
  exact ⟨rfl, ht⟩

end Sys2Proof.Machine

/-! PROOFS. spec/60_exceptions.md R280, the interrupt output, and spec/70_reset_and_hazards.md, the resets (R300, R301): what an
abandoned command leaves of the memories, and the registers at their reset values. -/

namespace Sys2Proof.Machine

variable {s t : State}

/-! ## The interrupt output (R280) -/

/-- A completion asserts irq exactly while IE = 1. -/
@[simp] theorem State.complete_irq (s : State) (c : ErrCode) : (s.complete c).irq = s.ctrl.ie :=
  Bool.and_true _

/-- Whatever word is pending, an illegal one's completion among them. -/
theorem engineStep_irq (h : engineStep s = .next t) : t.irq = s.ctrl.ie := by
  rcases engineStep_cases h with ⟨i, -, hx⟩ | ⟨e, -, rfl⟩
  · obtain ⟨u, c, hu, -, hctrl, -⟩ := exec_completes i s
    obtain rfl : u.complete c = t := Host.Outcome.next.inj (hu.symm.trans hx)
    rw [State.complete_irq, hctrl]
  · exact s.complete_irq _

/-- A write that neither clears DONE nor changes IE leaves irq as it was. -/
theorem State.writeTarget_keeps_irq (s : State) {g : Target} {v : Word} (hstatus : g = .reg .status → v.getLsbD 1 = false)
    (hctrl : g = .reg .ctrl → v.getLsbD 0 = s.ctrl.ie) : (s.writeTarget g v).irq = s.irq := by
  cases g with
  | reg r =>
    cases r with
    | ctrl => simp only [State.irq, State.writeTarget, State.writeReg, Ctrl.ofWrite, hctrl rfl]
    | status =>
      simp only [State.irq, State.writeTarget, State.writeReg, Sequencer.clearFlags, hstatus rfl, Bool.not_false, Bool.and_true]
    | _ => rfl
  | _ => rfl

/-- An action of the host that resets nothing, clears no DONE and changes no IE leaves irq as it was; while a command is pending
no write can do either (R89). -/
theorem hostAct_keeps_irq {a : HostAct} (hr : a.resets s.config = false)
    (hkeeps : s.seq.busy = false → (∀ size v, a = .write size 0xC v → v.getLsbD 1 = false)
      ∧ ∀ size v, a = .write size 0x8 v → v.getLsbD 0 = s.ctrl.ie)
    (h : hostAct s a = .next t) : t.irq = s.irq := by
  rcases hostAct_cases h with ⟨addr, -, -, rfl⟩ | ⟨addr, v, rfl, ⟨-, h4, -⟩, rfl⟩ | ⟨rfl, -⟩
  · rfl
  · cases hb : s.seq.busy with
    | true =>
      rw [State.busWrite_busy hb hr]
      rfl
    | false =>
      obtain ⟨hstatus, hctrl⟩ := hkeeps hb
      have hsoft : ¬ (addr = 0x8 ∧ v.getLsbD 31 = true) :=
        (isSoftReset_decodeOffset h4 v).not.mp (Bool.eq_false_iff.mp hr)
      rw [State.busWrite_idle hb h4 hsoft]
      refine s.writeTarget_keeps_irq (fun hg => ?_) fun hg => ?_
      · obtain rfl : addr = 0xC := (decodeOffset_eq_reg_iff h4).mp hg
        exact hstatus 4 v rfl
      · obtain rfl : addr = 0x8 := (decodeOffset_eq_reg_iff h4).mp hg
        exact hctrl 4 v rfl
  · cases hr

/-- Settles O20: by the two registers irq is made of, and who writes them. -/
theorem irqIsEnableAndDone : Obligations.IrqIsEnableAndDone := by
  refine ⟨fun _ => rfl, fun _ _ => engineStep_irq, fun s t v hb h31 h => ?_, fun s t v hb h1 h => ?_,
    fun _ _ _ => hostAct_keeps_irq, rfl⟩
  · have hwrite : hostAct s (.write 4 0x8 v) = .next (s.writeReg .ctrl v) :=
      hostAct_write_reg hb v (r := .ctrl) fun hsoft => Bool.eq_false_iff.mp h31 hsoft.2
    obtain rfl : s.writeReg .ctrl v = t := Host.Outcome.next.inj (hwrite.symm.trans h)
    rfl
  · obtain rfl : { s with seq := s.seq.clearFlags v } = t :=
      Host.Outcome.next.inj ((hostAct_write_status v hb).symm.trans h)
    simp [State.irq, Sequencer.clearFlags, h1]

/-! ## The abandoned command (R301 (b)) -/

/-- BUILD and REBUILD would have written NODE, DERIVE CODE, and UNPACK_WORD TBUF; nothing else is abandoned. -/
theorem State.abandon_mem (s : State) : s.abandon.mem =
    { sym := s.mem.sym
      node := if s.seq.busy = true ∧ (decode s.seq.pending = .ok .build ∨ decode s.seq.pending = .ok .rebuild)
        then anyNode s.config s.draws else s.mem.node
      code := if s.seq.busy = true ∧ decode s.seq.pending = .ok .derive then anyCode s.config s.draws else s.mem.code
      tbuf := if s.seq.busy = true ∧ (decode s.seq.pending = .ok (.unpackWord false)
          ∨ decode s.seq.pending = .ok (.unpackWord true))
        then anyTbuf s.draws else s.mem.tbuf } := by
  unfold State.abandon
  split
  next hb => split <;> simp [*]
  next hb => simp [hb]

/-! ## Soft reset (R301) -/

/-- A write of CTRL with bit 31 = 1 is the soft reset, whether or not a command is pending. -/
theorem hostAct_write_ctrl_softReset (s : State) {v : Word} (h31 : v.getLsbD 31 = true) :
    hostAct s (.write 4 0x8 v) = .next s.softReset := by
  rw [hostAct_write s (by decide), State.busWrite, if_pos ((isSoftReset_decodeOffset (by decide) v).mpr ⟨rfl, h31⟩)]

/-- Settles O21: the write is the soft reset, and an abandoned command is known by its word. -/
theorem softResetResetsRegistersAndKeepsMemories : Obligations.SoftResetResetsRegistersAndKeepsMemories := by
  intro s v h31
  have hword (i : Instr) : decode s.seq.pending = .ok i ↔ s.seq.pending = encode i :=
    decodeAcceptsExactlyTheEncodings s.seq.pending i
  refine ⟨s.softReset, hostAct_write_ctrl_softReset s h31, rfl, rfl, rfl, rfl, rfl, rfl, s.softReset_config, ?_⟩
  rw [State.softReset_mem, State.abandon_mem]
  exact ⟨rfl, if_congr (and_congr_right' (or_congr (hword .build) (hword .rebuild))) rfl rfl,
    if_congr (and_congr_right' (hword .derive)) rfl rfl,
    if_congr (and_congr_right' (or_congr (hword (.unpackWord false)) (hword (.unpackWord true)))) rfl rfl⟩

/-! ## Power-on reset (R300) -/

/-- At the registers' reset values STATUS is 0 (spec/10_state.md R55). -/
theorem State.statusWord_of_reset (hseq : s.seq = .reset) (htree : s.tree = .reset) (hpk : s.pk = .reset)
    (hup : s.up = .reset) : s.statusWord = 0#32 := by
  rw [State.statusWord, hseq, htree, hpk, hup]
  decide

/-- CTRL's reset value is TOKW = 1 (spec/10_state.md R55). -/
theorem Ctrl.toWord_reset : Ctrl.reset.toWord = 0x00000100#32 := by decide

/-- Settles O22: rst is the hard reset, and the initial state is the power-on state of the default configuration. -/
theorem powerOnResetValues : Obligations.PowerOnResetValues :=
  ⟨fun s => ⟨s.hardReset, rfl, rfl, Ctrl.toWord_reset, State.statusWord_of_reset rfl rfl rfl rfl, rfl, rfl, rfl, rfl, rfl, rfl,
      rfl, rfl⟩,
    State.statusWord_of_reset rfl rfl rfl rfl, Ctrl.toWord_reset, rfl, rfl, rfl, rfl, rfl, rfl, rfl⟩

end Sys2Proof.Machine
